-- ==== Sys2Proof/Word.lean ====
section
/-! DEFINITION. The bit-vector types of the block: R10 and R20 give every width. -/

namespace Sys2Proof

/-- A wire byte or a logical byte (R10). -/
abbrev Byte := BitVec 8

/-- A 16-bit value: a length, a checksum, a PWM-domain register (R10). -/
abbrev Half := BitVec 16

/-- A 32-bit value: a clock value, a stamp, a counter, a sample, an f32 pattern (R10, R11). -/
abbrev Word := BitVec 32

/-- A value of the frame position counter `p` (R22). -/
abbrev Pos := BitVec 11

end Sys2Proof
end

