-- ==== Sys2Proof/Config.lean ====
section
/-! DEFINITION. What an implementation fixes: the constants of R8, the configuration record of R9 with its
constraints, and the free values behind the two configuration functions that R203 and R234 leave open. -/

namespace Sys2Proof

/-! ## Constants (R8) -/

/-- `START`, the start marker. -/
@[simp] def startByte : Byte := 0xFE#8
/-- `ESC`, the escape marker. -/
@[simp] def escByte : Byte := 0xEE#8
/-- `ESC_CODE_START`, second byte of the pair that stands for `START`. -/
@[simp] def escCodeStart : Byte := 0x00#8
/-- `ESC_CODE_ESC`, second byte of the pair that stands for `ESC`. -/
@[simp] def escCodeEsc : Byte := 0x01#8
/-- `MAX_LEN`, the largest accepted `length`; also the size of the payload buffer (R27). -/
@[simp] def maxLen : Nat := 1024
/-- `TYPE_DATA`. -/
@[simp] def typeData : Byte := 1#8
/-- `TYPE_PRINT`. -/
@[simp] def typePrint : Byte := 2#8
/-- `TYPE_PUMP`. -/
@[simp] def typePump : Byte := 3#8
/-- `PUMP_LEN`. -/
@[simp] def pumpLen : Half := 8#16
/-- `DATA_LEN`. -/
@[simp] def dataLen : Half := 92#16
/-- `WDG_TIMEOUT_MS`. -/
@[simp] def wdgTimeoutMs : Nat := 4000
/-- `RAMP_PERIOD_MS`. -/
@[simp] def rampPeriodMs : Nat := 100
/-- `RAMP_MAX_STEP`. -/
@[simp] def rampMaxStep : Nat := 5
/-- `FLOW_PERIOD_MS`. -/
@[simp] def flowPeriodMs : Nat := 1000
/-- `TELEM_PERIOD_MS`. -/
@[simp] def telemPeriodMs : Nat := 10

/-! ## The configuration record (R9) -/

/-- A non-negative rational `num / den`; `K_FLOW[i]` is one, positive by `Config.Valid`. -/
structure Ratio where
  num : Nat
  den : Nat
deriving DecidableEq, Repr

/-- Which `PWM_CONV` the block is built with (R202, R203, D6). -/
inductive PwmConvChoice where
  /-- The default of R202: exact product, then floor. -/
  | exactFloor
  /-- Any function with the properties P1 to P4 of R203: a free value (entry 13). -/
  | platform
deriving DecidableEq, Repr

/-- Which `FLOW_RATE` the block is built with (R234, R235, D18). -/
inductive FlowRateChoice where
  /-- The default of R235: nearest binary32 pattern, ties to even. -/
  | nearestEven
  /-- Any function with the properties Q1 to Q3 of R234: a free value (entry 14). -/
  | platform
deriving DecidableEq, Repr

/-- The implementation parameters of R9. They are fixed when the block is built (R51): no operation writes them. -/
structure Config where
  /-- `PWM_MIN` -/
  pwmMin : Half
  /-- `PWM_MAX` -/
  pwmMax : Half
  /-- `PWM_NEUTRAL` -/
  pwmNeutral : Half
  /-- `PWM_CONV` -/
  pwmConv : PwmConvChoice
  /-- `K_FLOW[0..2]`, pulses per unit volume -/
  kFlow : Vector Ratio 3
  /-- `FLOW_RATE` -/
  flowRate : FlowRateChoice
  /-- `STRICT_ESC` (R257) -/
  strictEsc : Bool
  /-- `ROUTE_TABLE`, the known (type, expectedLength) pairs (R196) -/
  routeTable : List (Byte × Half)
deriving DecidableEq, Repr

/-- The constraint column of R9. -/
abbrev Config.Valid (c : Config) : Prop :=
  c.pwmMin.toNat < c.pwmMax.toNat ∧ c.pwmMin.toNat ≤ c.pwmNeutral.toNat ∧ c.pwmNeutral.toNat ≤ c.pwmMax.toNat ∧
  (∀ k ∈ c.kFlow.toList, 0 < k.num ∧ 0 < k.den) ∧ (∀ r ∈ c.routeTable, r.2.toNat ≤ maxLen)

/-- The "example" and "default" columns of R9: the instantiation the spec's vectors use. DESIGN CHOICE where
`State.reset` uses it (entry 9): unsafe for a claim about that one state, and no statement rests on it. -/
def Config.example : Config where
  pwmMin := 1000#16
  pwmMax := 2000#16
  pwmNeutral := 1500#16
  pwmConv := .exactFloor
  kFlow := #v[⟨15, 2⟩, ⟨15, 2⟩, ⟨15, 2⟩]
  flowRate := .nearestEven
  strictEsc := false
  routeTable := [(typePump, pumpLen)]

/-! ## Free values: nothing in Lean constrains them -/

/-- The value (in units of 2^-149) from which a platform's `PWM_CONV` answers at least `PWM_MIN + k`. A free value
(entry 13). -/
opaque Config.pwmThreshold : Config → Nat → Nat

/-- The pattern a platform's `FLOW_RATE(count, T, K)` computes, asked with `K` in lowest terms only. A free value
(entry 14). -/
opaque Config.platformRate : Word → Word → Ratio → Word

end Sys2Proof
end

