-- ==== Sys2Proof/Syntax.lean ====
section
/-! DEFINITION. The operations of the block, one constructor per row of `opcode_table.json` (R103, R120). -/

namespace Sys2Proof

/-- A packet value (R68). -/
structure Packet where
  type : Byte
  length : Half
  payload : List Byte
deriving DecidableEq, Repr

/-- The operations of R103 with their operands. An operand that the spec restricts (`i` to 0..2, `reg` to 0..17, `n`
to 0..1024, a payload to `n` bytes) is raw here and checked in `WellFormed`. -/
inductive Instr where
  -- external events (R110, R250)
  | reset (now : Word)
  | rxbyte (w : Byte) (now : Word)
  | tick (now : Word)
  | pulse (i : Byte)
  | sample (reg : Byte) (v : Word)
  | print (n : Half) (bytes : List Byte)
  -- wire symbol classes (R92)
  | wStart
  | wEsc
  | wLit (w : Byte)
  | wEsc0
  | wEsc1
  | wEscbad (w : Byte)
  -- decoder operations (R151 to R158)
  | decWait (b w : Byte)
  | decLenlo (b : Byte)
  | decLenhi (b : Byte)
  | decType (b : Byte)
  | decPayload (b : Byte)
  | decCklo (b : Byte)
  | decCkhi (b : Byte)
  -- internal operations
  | unesc (w : Byte)
  | route (P : Packet) (now : Word)
  | pumpcmd (P : Packet) (now : Word)
  | wdog (now : Word)
  | ramp (now : Word)
  | flowagg (now : Word)
  | telem (now : Word)
  | escape (b : Byte)
  | txframe (type : Byte) (n : Half) (payload : List Byte)
  -- packet types (R69 to R71, R96)
  | pktData (payload : List Byte) (now : Word)
  | pktPrint (n : Half) (payload : List Byte) (now : Word)
  | pktPump (payload : List Byte) (now : Word)
deriving DecidableEq, Repr

/-- The six external events: the operations an agent outside the block presents (R250). Every other operation is
invoked by one of them. -/
def Instr.isEvent : Instr → Bool
  | .reset _ | .rxbyte _ _ | .tick _ | .pulse _ | .sample _ _ | .print _ _ => true
  | .wStart | .wEsc | .wLit _ | .wEsc0 | .wEsc1 | .wEscbad _ => false
  | .decWait _ _ | .decLenlo _ | .decLenhi _ | .decType _ | .decPayload _ | .decCklo _ | .decCkhi _ => false
  | .unesc _ | .route _ _ | .pumpcmd _ _ | .wdog _ | .ramp _ | .flowagg _ | .telem _ | .escape _ => false
  | .txframe _ _ _ | .pktData _ _ | .pktPrint _ _ _ | .pktPump _ _ => false

end Sys2Proof
end

