-- ==== Sys2Proof/WellFormed.lean ====
section
/-! DEFINITION. Which operand values the spec gives an operation (R111, R182, R230, R250, U1, U13, R92). -/

namespace Sys2Proof

/-- Why an operation is not one of the block's: the operand that is outside its domain. -/
inductive Violation where
  /-- `PULSE(i)` with `i ≥ 3` names no sensor (R230). -/
  | sensorRange
  /-- `SAMPLE(reg, v)` with `reg ≥ 18` names no register (R111). -/
  | sampleRange
  /-- A payload of more than 1024 bytes (R182, U1). -/
  | lengthRange
  /-- A byte sequence whose length is not the one declared with it (R68, R180, R239). -/
  | lengthMismatch
  /-- A wire byte that its symbol class excludes (R92). -/
  | wireClass
  /-- A logical byte that does not come from the wire byte given with it (R152). -/
  | logicalByte
  /-- `PUMPCMD` on a packet that is not of type 3 and length 8 (R200). -/
  | notPumpPacket
deriving DecidableEq, Repr

/-- A payload of declared length `n`: at most 1024 bytes, and exactly `n` of them (R68, R182). -/
def payloadViolation (n : Half) (payload : List Byte) : Option Violation :=
  if maxLen < n.toNat then some .lengthRange
  else if payload.length ≠ n.toNat then some .lengthMismatch
  else none

/-- Whether `b` is a logical byte that the unescaper produces from the wire byte `w` (R135). -/
def producedFrom (b w : Byte) : Bool :=
  (w = b && w ≠ escByte) || (w = escCodeStart && b = startByte) || (w = escCodeEsc && b = escByte)

/-- The first operand of an operation that is outside its domain, if any. -/
def violation : Instr → Option Violation
  | .reset _ => none
  | .rxbyte _ _ => none
  | .tick _ => none
  | .pulse i => if i.toNat < 3 then none else some .sensorRange
  | .sample reg _ => if reg.toNat < 18 then none else some .sampleRange
  | .print n bytes => payloadViolation n bytes
  | .wStart => none
  | .wEsc => none
  | .wLit w => if w = startByte ∨ w = escByte then some .wireClass else none
  | .wEsc0 => none
  | .wEsc1 => none
  | .wEscbad w => if w = escCodeStart ∨ w = escCodeEsc then some .wireClass else none
  | .decWait b w => if producedFrom b w then none else some .logicalByte
  | .decLenlo _ => none
  | .decLenhi _ => none
  | .decType _ => none
  | .decPayload _ => none
  | .decCklo _ => none
  | .decCkhi _ => none
  | .unesc _ => none
  | .route P _ => payloadViolation P.length P.payload
  | .pumpcmd P _ =>
    if P.type = typePump ∧ P.length = pumpLen then payloadViolation P.length P.payload else some .notPumpPacket
  | .wdog _ => none
  | .ramp _ => none
  | .flowagg _ => none
  | .telem _ => none
  | .escape _ => none
  | .txframe _ n payload => payloadViolation n payload
  | .pktData payload _ => payloadViolation dataLen payload
  | .pktPrint n payload _ => payloadViolation n payload
  | .pktPump payload _ => payloadViolation pumpLen payload

/-- Every operand is in the domain the spec gives it. -/
abbrev WellFormed (i : Instr) : Prop := violation i = none

end Sys2Proof
end

