-- ==== Sys2Proof/Decode.lean ====
section
/-! DEFINITION. Little-endian byte order (R14, R62), and the event records: how an operation is written as bytes and
read back. The first byte of a record is the operation's code; the operands follow in the order of the spec's operand
list, multi-byte ones little-endian.

The codes 0 to 5 of the external events are R110's; `0xFE` for W.START and `0xEE` for W.ESC are the table's words for
them. The table's words for the other wire classes and for the packet types collide with the event codes (they number
other spaces: the wire byte, the type byte), and its position and internal rows have no word at all: their codes, and
the layout of the operands, are the model's. DESIGN CHOICE (entries 2 and 3): safe, no rule of operation reads a code. -/

namespace Sys2Proof

/-! ## Byte order -/

/-- The `n` bytes of `v`, least significant first (`MemWrite` of R14). -/
def leBytes : Nat → Nat → List Byte
  | 0, _ => []
  | n + 1, v => BitVec.ofNat 8 v :: leBytes n (v / 256)

/-- The unsigned value of a byte sequence, least significant byte first (`MemRead` of R14). -/
def leNat : List Byte → Nat
  | [] => 0
  | b :: bs => b.toNat + 256 * leNat bs

/-! ## Reading a record -/

/-- Why a byte sequence is no operation. -/
inductive DecodeError where
  /-- There is no byte at all. -/
  | empty
  /-- The record ends before its operands do. -/
  | truncated
  /-- An event code 6 to 15, which no event has (R110, U14). -/
  | unusedEventCode (code : Nat)
  /-- A code the record format gives no operation. -/
  | unusedCode (code : Nat)
  /-- An operand outside the domain the spec gives it. -/
  | illFormed (v : Violation)
deriving DecidableEq, Repr

/-- What reading a record answers: an operation and the bytes after it, or the reason there is none. -/
abbrev Decoded := Except DecodeError (Instr × List Byte)

/-- The first `n` bytes and the rest. -/
def takeBytes : Nat → List Byte → Option (List Byte × List Byte)
  | 0, bs => some ([], bs)
  | _ + 1, [] => none
  | n + 1, b :: bs =>
    match takeBytes n bs with
    | none => none
    | some (xs, rest) => some (b :: xs, rest)

/-- Read `n` bytes and go on. -/
def withBytes (n : Nat) (bs : List Byte) (k : List Byte → List Byte → Decoded) : Decoded :=
  match takeBytes n bs with
  | none => .error .truncated
  | some (xs, rest) => k xs rest

/-- Read one byte and go on. -/
def withByte (bs : List Byte) (k : Byte → List Byte → Decoded) : Decoded :=
  match bs with
  | [] => .error .truncated
  | b :: rest => k b rest

/-- Read a 16-bit operand and go on. -/
def withHalf (bs : List Byte) (k : Half → List Byte → Decoded) : Decoded :=
  withBytes 2 bs fun xs rest => k (BitVec.ofNat 16 (leNat xs)) rest

/-- Read a 32-bit operand and go on. -/
def withWord (bs : List Byte) (k : Word → List Byte → Decoded) : Decoded :=
  withBytes 4 bs fun xs rest => k (BitVec.ofNat 32 (leNat xs)) rest

/-- The operation a code names. An event's code is the low nibble (the table's mask is `0xF`, R110); bit 7 set marks
the other operations, whose code is the whole byte (entry 3). -/
def opCode (h : Byte) : Nat :=
  if h.toNat < 128 then h.toNat % 16 else h.toNat

/-- Read the operands of the operation named by a code. -/
def parseOperands (code : Nat) (bs : List Byte) : Decoded :=
  match code with
  | 0x00 => withWord bs fun now r => .ok (.reset now, r)
  | 0x01 => withByte bs fun w r => withWord r fun now r => .ok (.rxbyte w now, r)
  | 0x02 => withWord bs fun now r => .ok (.tick now, r)
  | 0x03 => withByte bs fun i r => .ok (.pulse i, r)
  | 0x04 => withByte bs fun reg r => withWord r fun v r => .ok (.sample reg v, r)
  | 0x05 => withHalf bs fun n r => withBytes n.toNat r fun xs r => .ok (.print n xs, r)
  | 0xFE => .ok (.wStart, bs)
  | 0xEE => .ok (.wEsc, bs)
  | 0x83 => withByte bs fun w r => .ok (.wLit w, r)
  | 0x84 => .ok (.wEsc0, bs)
  | 0x85 => .ok (.wEsc1, bs)
  | 0x86 => withByte bs fun w r => .ok (.wEscbad w, r)
  | 0x90 => withByte bs fun b r => withByte r fun w r => .ok (.decWait b w, r)
  | 0x91 => withByte bs fun b r => .ok (.decLenlo b, r)
  | 0x92 => withByte bs fun b r => .ok (.decLenhi b, r)
  | 0x93 => withByte bs fun b r => .ok (.decType b, r)
  | 0x94 => withByte bs fun b r => .ok (.decPayload b, r)
  | 0x95 => withByte bs fun b r => .ok (.decCklo b, r)
  | 0x96 => withByte bs fun b r => .ok (.decCkhi b, r)
  | 0xA0 => withByte bs fun w r => .ok (.unesc w, r)
  | 0xA1 => withByte bs fun t r => withHalf r fun n r => withBytes n.toNat r fun xs r =>
      withWord r fun now r => .ok (.route ⟨t, n, xs⟩ now, r)
  | 0xA2 => withByte bs fun t r => withHalf r fun n r => withBytes n.toNat r fun xs r =>
      withWord r fun now r => .ok (.pumpcmd ⟨t, n, xs⟩ now, r)
  | 0xA3 => withWord bs fun now r => .ok (.wdog now, r)
  | 0xA4 => withWord bs fun now r => .ok (.ramp now, r)
  | 0xA5 => withWord bs fun now r => .ok (.flowagg now, r)
  | 0xA6 => withWord bs fun now r => .ok (.telem now, r)
  | 0xA7 => withByte bs fun b r => .ok (.escape b, r)
  | 0xA8 => withByte bs fun t r => withHalf r fun n r => withBytes n.toNat r fun xs r => .ok (.txframe t n xs, r)
  | 0xB1 => withBytes dataLen.toNat bs fun xs r => withWord r fun now r => .ok (.pktData xs now, r)
  | 0xB2 => withHalf bs fun n r => withBytes n.toNat r fun xs r => withWord r fun now r => .ok (.pktPrint n xs now, r)
  | 0xB3 => withBytes pumpLen.toNat bs fun xs r => withWord r fun now r => .ok (.pktPump xs now, r)
  | c => .error (if c < 16 then .unusedEventCode c else .unusedCode c)

/-- The first operation of a byte sequence and the bytes after it, or the reason there is none. -/
def decode (bs : List Byte) : Decoded :=
  match bs with
  | [] => .error .empty
  | h :: r =>
    match parseOperands (opCode h) r with
    | .error e => .error e
    | .ok (i, rest) =>
      match violation i with
      | none => .ok (i, rest)
      | some v => .error (.illFormed v)

/-! ## Writing a record -/

/-- The record of an operation. -/
def encode : Instr → List Byte
  | .reset now => 0x00#8 :: leBytes 4 now.toNat
  | .rxbyte w now => 0x01#8 :: w :: leBytes 4 now.toNat
  | .tick now => 0x02#8 :: leBytes 4 now.toNat
  | .pulse i => [0x03#8, i]
  | .sample reg v => 0x04#8 :: reg :: leBytes 4 v.toNat
  | .print n bytes => 0x05#8 :: (leBytes 2 n.toNat ++ bytes)
  | .wStart => [startByte]
  | .wEsc => [escByte]
  | .wLit w => [0x83#8, w]
  | .wEsc0 => [0x84#8]
  | .wEsc1 => [0x85#8]
  | .wEscbad w => [0x86#8, w]
  | .decWait b w => [0x90#8, b, w]
  | .decLenlo b => [0x91#8, b]
  | .decLenhi b => [0x92#8, b]
  | .decType b => [0x93#8, b]
  | .decPayload b => [0x94#8, b]
  | .decCklo b => [0x95#8, b]
  | .decCkhi b => [0x96#8, b]
  | .unesc w => [0xA0#8, w]
  | .route P now => 0xA1#8 :: P.type :: (leBytes 2 P.length.toNat ++ P.payload ++ leBytes 4 now.toNat)
  | .pumpcmd P now => 0xA2#8 :: P.type :: (leBytes 2 P.length.toNat ++ P.payload ++ leBytes 4 now.toNat)
  | .wdog now => 0xA3#8 :: leBytes 4 now.toNat
  | .ramp now => 0xA4#8 :: leBytes 4 now.toNat
  | .flowagg now => 0xA5#8 :: leBytes 4 now.toNat
  | .telem now => 0xA6#8 :: leBytes 4 now.toNat
  | .escape b => [0xA7#8, b]
  | .txframe t n payload => 0xA8#8 :: t :: (leBytes 2 n.toNat ++ payload)
  | .pktData payload now => 0xB1#8 :: (payload ++ leBytes 4 now.toNat)
  | .pktPrint n payload now => 0xB2#8 :: (leBytes 2 n.toNat ++ payload ++ leBytes 4 now.toNat)
  | .pktPump payload now => 0xB3#8 :: (payload ++ leBytes 4 now.toNat)

/-! ## The opcode table's words -/

/-- The longest record: ROUTE or PUMPCMD with 1024 payload bytes. -/
@[simp] def maxRecordBytes : Nat := 1032

/-- The bytes of a table word of `nbits` bits, bit 0 the least significant bit of the first byte, followed by zeros up
to the longest record. -/
def wordBytes (nbits w : Nat) : List Byte :=
  let bytes := leBytes ((nbits + 7) / 8) (w % 2 ^ nbits)
  bytes ++ List.replicate (maxRecordBytes - bytes.length) 0#8

/-- The operation the decoder reads from a word of `opcode_table.json`, every bit above `nbits` zero. -/
def decodeTableWord (nbits w : Nat) : Option Instr :=
  match decode (wordBytes nbits w) with
  | .error _ => none
  | .ok (i, _) => some i

end Sys2Proof
end

