-- ==== Sys2Proof/Machine/State.lean ====
section
/-! DEFINITION. The state of the block (R20), grouped as R20's table groups its registers, the output of one operation
(R250, R260), the reasons a step can stop, and the state after reset (R55). -/

namespace Sys2Proof.Machine

open Sys2Proof

/-! ## The payload buffer (R27, R60) -/

/-- The payload buffer `payload[0..1023]` as (address, byte) pairs in canonical form: addresses strictly rising, each
below 1024, and only bytes that have been written since reset. -/
abbrev Memory := List Host.Cell

/-- What an unlisted address reads as: no value. R55 and U2 leave the reset contents unspecified, and R27 says that a
model which gives them no value and faults on such a read never faults. DESIGN CHOICE (entry 11): safe. -/
def Memory.unlisted (_address : Nat) : Option Byte := none

/-- Addresses rise strictly from `lo` on and stay below the buffer's size. -/
def Memory.risingFrom (lo : Nat) : Memory → Bool
  | [] => true
  | (a, _) :: rest => decide (lo ≤ a) && decide (a < maxLen) && Memory.risingFrom (a + 1) rest

/-- The canonical form: addresses strictly rising within 0..1023. (No entry can equal what an unlisted address reads
as, because that is no value.) -/
def Memory.wf (m : Memory) : Bool := Memory.risingFrom 0 m

/-! ## Registers (R20) -/

/-- The decoder's registers (R21 to R27). -/
structure Decoder where
  /-- The last wire byte was an `ESC` that opened a pair (R21). -/
  esc : Bool
  /-- The frame position counter (R22). -/
  p : Pos
  /-- The declared length (R23). -/
  len : Half
  /-- The packet type (R24). -/
  typ : Byte
  /-- The running checksum (R25). -/
  ck : Half
  /-- The received checksum low byte (R26). -/
  cklo : Byte
  /-- The payload buffer (R27). -/
  payload : Memory
deriving DecidableEq, Repr

/-- The pump controller's registers (R30 to R34). -/
structure Pump where
  /-- Setpoint of channel 0 (R30). -/
  sp0 : Half
  /-- Setpoint of channel 1 (R30). -/
  sp1 : Half
  /-- Output of channel 0 (R31). -/
  out0 : Half
  /-- Output of channel 1 (R31). -/
  out1 : Half
  /-- Stamp of the last command that changed a setpoint (R32). -/
  tCmd : Word
  /-- Stamp of the last ramp tick (R33). -/
  tRamp : Word
  /-- The most recent watchdog evaluation found the time-out (R34). -/
  wdg : Bool
deriving DecidableEq, Repr

/-- The flow registers (R40 to R42). -/
structure Flow where
  /-- Pulse counters `cnt[0..2]` (R40). -/
  cnt : Vector Word 3
  /-- Flow readings `flow[0..2]`, f32 patterns (R41). -/
  rate : Vector Word 3
  /-- Stamp of the close of the last aggregation window (R42). -/
  tFlow : Word
deriving DecidableEq, Repr

/-- The telemetry registers (R43 to R46). -/
structure Telemetry where
  /-- Stamp of the last telemetry packet (R43). -/
  tTlm : Word
  /-- Last known load cell readings (R44). -/
  loadcell : Vector Word 6
  /-- Last known fixed accelerometer readings, x y z (R45). -/
  accelFixed : Vector Word 3
  /-- Last known tank accelerometer readings, tank-major (R46). -/
  accelTank : Vector Word 9
deriving DecidableEq, Repr

/-- The status counters (R50). -/
structure Counters where
  nEscErr : Word
  nOversize : Word
  nCkErr : Word
  nRouteDrop : Word
  nCmdReject : Word
  nWdgTrip : Word
deriving DecidableEq, Repr

/-! ## Events and the output of one operation (R250, R260) -/

/-- The six events of R260, each with the information recorded with it. -/
inductive Event where
  /-- Code 1: a wire byte other than 0x00 and 0x01 while `esc = 1` (R261). -/
  | escErr (w : Byte)
  /-- Code 2: a declared length above 1024 (R262). -/
  | oversize (declared : Half)
  /-- Code 3: the declared checksum is not the computed one (R263). -/
  | ckErr (declared computed : Half)
  /-- Code 4: no route for the packet's type and length (R264). -/
  | routeDrop (type : Byte) (length : Half)
  /-- Code 5: a pump command with a NaN field (R265). -/
  | cmdReject (a b : Word)
  /-- Code 6: the watchdog went from armed to tripped (R266). -/
  | wdgTrip (elapsed : Word)
deriving DecidableEq, Repr

/-- The output of the most recent operation (R54, R250). The last three fields are the results of the internal
operations whose rules give a result (entry 8). -/
structure Output where
  /-- TX bytes the operation appended. -/
  tx : List Byte
  /-- The packet the operation emitted (R158). -/
  pkt : Option Packet
  /-- The events the operation raised, oldest first (R260). -/
  events : List Event
  /-- The logical byte of `UNESC` (R135) or of a wire symbol class (R92). -/
  logical : Option Byte
  /-- The error indication of `UNESC` (R135). -/
  unescErr : Bool
  /-- The wire bytes of `ESCAPE` (R130). -/
  coded : List Byte
deriving DecidableEq, Repr

/-- No output. -/
def Output.empty : Output := ⟨[], none, [], none, false, []⟩

/-! ## The whole state -/

/-- The registers of R20 (`dec`, `pump`, `flow`, `tlm`, `stat`) and the model's own fields: the configuration (R9,
entry 9), the pending event records (entry 1), the TX stream and the last operation's output (entry 8). -/
structure State where
  dec : Decoder
  pump : Pump
  flow : Flow
  tlm : Telemetry
  stat : Counters
  cfg : Config
  inbox : List Byte
  tx : List Byte
  out : Output
deriving DecidableEq, Repr

/-! ## Why a step can stop -/

/-- Conditions that no state satisfying R27 and R28 meets. All are safe: the block has no trap, and none of its
reachable states meets them (entries 11 and 12). -/
inductive Fault where
  /-- Raised by the position dispatch when no position is selected: R102 asks for this fault in place of a default
  action. Safe. -/
  | unreachablePosition
  /-- Raised by `DEC.PAYLOAD` and `DEC.CKHI` on an address outside `payload[0..1023]`, which does not exist (R27). Safe. -/
  | payloadIndex
  /-- Raised by `DEC.CKHI` on a payload byte that nothing has written since reset (R27). Safe. -/
  | unwrittenPayload
deriving DecidableEq, Repr

/-- Why the block has no such operation. -/
inductive Refusal where
  /-- Raised by `exec` for an operation that has no meaning yet. Safe. -/
  | notModelled (mnemonic : String)
  /-- Raised by an operation whose operand is outside the domain the spec gives it (R111, R182, R230, R250, U1, U13).
  Safe: the spec refuses it too. -/
  | illFormed (v : Violation)
  /-- Raised by a wire symbol class or a decoder operation presented in a state that selects another (R92, R102). Safe:
  the spec gives the operation no effect there (entry 5). -/
  | notSelected
  /-- Raised by `step` when the pending bytes are no event record. Safe: not an event of the block (R250, U14). -/
  | undecodable (e : DecodeError)
deriving DecidableEq, Repr

/-! ## Reset (R55) -/

/-- The decoder after reset. -/
def Decoder.reset : Decoder := ⟨false, 0, 0, 0, 0, 0, []⟩

/-- The pump controller after `RESET(now)`. -/
def Pump.reset (c : Config) (now : Word) : Pump :=
  ⟨c.pwmNeutral, c.pwmNeutral, c.pwmNeutral, c.pwmNeutral, now, now, false⟩

/-- The flow registers after `RESET(now)`. -/
def Flow.reset (now : Word) : Flow := ⟨#v[0, 0, 0], #v[0, 0, 0], now⟩

/-- The telemetry registers after `RESET(now)`. -/
def Telemetry.reset (now : Word) : Telemetry := ⟨now, #v[0, 0, 0, 0, 0, 0], #v[0, 0, 0], #v[0, 0, 0, 0, 0, 0, 0, 0, 0]⟩

/-- The status counters after reset. -/
def Counters.zero : Counters := ⟨0, 0, 0, 0, 0, 0⟩

/-- The block built with configuration `c`, right after `RESET(now)`, with no event pending and nothing sent. These are
the initial states of R292. -/
def State.initial (c : Config) (now : Word) : State where
  dec := .reset
  pump := .reset c now
  flow := .reset now
  tlm := .reset now
  stat := .zero
  cfg := c
  inbox := []
  tx := []
  out := .empty

/-- The machine right after reset: R55 with `now0 = 0` and the spec's example configuration. DESIGN CHOICE for both
(entries 9 and 10): unsafe for a claim about this one state only. -/
def State.reset : State := State.initial Config.example 0

end Sys2Proof.Machine
end

