-- ==== Sys2Proof/Machine/Flags.lean ====
section
/-! DEFINITION. The tests the block makes and the flags it sets: timer and watchdog conditions (R16, R254), event codes,
bits and counters (R50, R260), the class of a wire byte (R92) and the position selected (R102). -/

namespace Sys2Proof.Machine

open Sys2Proof

/-- `elapsed(t) = now −_32 t` (R16). -/
def elapsed (now t : Word) : Word := now - t

/-- A polled timer with stamp `t` and period `P` is due (R254); for the watchdog, the time-out holds (R210). -/
def timerDue (now t : Word) (period : Nat) : Bool := decide (period ≤ (elapsed now t).toNat)

/-- The code of an event (R260). -/
def eventCode : Event → Nat
  | .escErr _ => 1
  | .oversize _ => 2
  | .ckErr _ _ => 3
  | .routeDrop _ _ => 4
  | .cmdReject _ _ => 5
  | .wdgTrip _ => 6

/-- The six event bits of an operation's output (R15, R54). The spec gives each event a code (R260) and no bit
position. DESIGN CHOICE (entry 24): the event of code `c` has bit `c − 1`. -/
def eventBits (o : Output) : BitVec 6 :=
  o.events.foldl (fun bits e => bits ||| (1#6 <<< (eventCode e - 1))) 0

/-- The counter of an event goes up by one modulo 2^32 (R50). -/
def countEvent (e : Event) (c : Counters) : Counters :=
  match e with
  | .escErr _ => { c with nEscErr := c.nEscErr + 1 }
  | .oversize _ => { c with nOversize := c.nOversize + 1 }
  | .ckErr _ _ => { c with nCkErr := c.nCkErr + 1 }
  | .routeDrop _ _ => { c with nRouteDrop := c.nRouteDrop + 1 }
  | .cmdReject _ _ => { c with nCmdReject := c.nCmdReject + 1 }
  | .wdgTrip _ => { c with nWdgTrip := c.nWdgTrip + 1 }

/-- The wire symbol classes of R92. -/
inductive WireClass where
  | start
  | esc
  | lit
  | esc0
  | esc1
  | escbad
deriving DecidableEq, Repr

/-- The class of wire byte `w` in the context `esc` (R92). -/
def classify (esc : Bool) (w : Byte) : WireClass :=
  if esc then
    if w = escCodeStart then .esc0 else if w = escCodeEsc then .esc1 else .escbad
  else
    if w = startByte then .start else if w = escByte then .esc else .lit

/-- The decoder operations that `p` and `len` select (R102). -/
inductive Position where
  | wait
  | lenlo
  | lenhi
  | type
  | payload
  | cklo
  | ckhi
deriving DecidableEq, Repr

/-- The position dispatch of R151, tests in its order; `none` is its unreachable arm. -/
def positionOf (d : Decoder) : Option Position :=
  let p := d.p.toNat
  let len := d.len.toNat
  if p = 0 then some .wait
  else if p = 1 then some .lenlo
  else if p = 2 then some .lenhi
  else if p = 3 then some .type
  else if p < 4 + len then some .payload
  else if p = 4 + len then some .cklo
  else if p = 5 + len then some .ckhi
  else none

end Sys2Proof.Machine
end

