-- ==== Sys2Proof/Machine/Operands.lean ====
section
/-! DEFINITION. The operand forms of the block: fields of a packet payload (R14, R69, R70, R97), f32 values (R17), the
two configuration functions `PWM_CONV` (R202, R203) and `FLOW_RATE` (R233 to R235), and the `SAMPLE` register numbers
(R111). -/

namespace Sys2Proof.Machine

open Sys2Proof

/-! ## Fields of a byte sequence (R14) -/

/-- `MemRead(buf, addr, n)`: defined when `addr + n ≤ length` (R64). -/
def memRead (buf : List Byte) (addr n : Nat) : Option Nat :=
  if addr + n ≤ buf.length then some (leNat ((buf.drop addr).take n)) else none

/-- `MemWrite(buf, addr, n, v)`: byte `addr + k` becomes `v[8k+7:8k]`. -/
def memWrite (buf : List Byte) (addr n v : Nat) : List Byte :=
  buf.take addr ++ leBytes n v ++ buf.drop (addr + n)

/-- A 32-bit field of a payload (R97). -/
def field32 (payload : List Byte) (offset : Nat) : Option Word :=
  (memRead payload offset 4).map (BitVec.ofNat 32)

/-! ## f32 patterns (R17, G1, G2) -/

/-- The value of an f32 pattern. Every finite binary32 value is a whole number of units of 2^-149. -/
inductive FVal where
  | nan
  | negInf
  | posInf
  /-- The value `units × 2^-149`, exactly. -/
  | fin (units : Int)
deriving DecidableEq, Repr

/-- The magnitude, in units of 2^-149, of a finite pattern with exponent field `e` and fraction field `f`: R17's
`2^(e−127) × (1 + f/2^23)` for `e ≥ 1` and `2^(−126) × (f/2^23)` for `e = 0`. -/
def fmag (e f : Nat) : Nat :=
  if e = 0 then f else (2 ^ 23 + f) * 2 ^ (e - 1)

/-- `fval(b)` (R17). -/
def fval (b : Word) : FVal :=
  let e := (b.extractLsb' 23 8).toNat
  let f := (b.extractLsb' 0 23).toNat
  if e = 255 then
    if f ≠ 0 then .nan else if b.msb then .negInf else .posInf
  else .fin (if b.msb then -(fmag e f : Int) else (fmag e f : Int))

/-- 1.0 in units of 2^-149. -/
@[simp] def oneUnits : Nat := 2 ^ 149

/-- The value clamped into [0, 1], in units of 2^-149; `none` for NaN (R202, D7). -/
def clampUnits : FVal → Option Nat
  | .nan => none
  | .negInf => some 0
  | .posInf => some oneUnits
  | .fin u => some (min u.toNat oneUnits)

/-! ## PWM_CONV (R202, R203) -/

/-- `PWM_MAX − PWM_MIN`. -/
def pwmSpan (c : Config) : Nat := c.pwmMax.toNat - c.pwmMin.toNat

/-- How far above `PWM_MIN` the value `u` (units of 2^-149, 0 to 2^149) is placed. `exactFloor` is R202: the exact
product, then floor. `platform` is any placement with P2, P3 and P4 of R203: the number of thresholds not above the
value, the thresholds (each in 1 to 2^149) being free values (entry 13). -/
def pwmOffset (c : Config) (u : Nat) : Nat :=
  match c.pwmConv with
  | .exactFloor => pwmSpan c * u / oneUnits
  | .platform => ((List.range (pwmSpan c)).filter
      fun k => min (max 1 (Config.pwmThreshold c k)) oneUnits ≤ u).length

/-- `PWM_CONV(x)`: `none` for a NaN pattern, else a PWM-domain value (R202, R203, U6). -/
def pwmConv (c : Config) (x : Word) : Option Half :=
  (clampUnits (fval x)).map fun u => BitVec.ofNat 16 (c.pwmMin.toNat + pwmOffset c u)

/-! ## FLOW_RATE (R233 to R235) -/

/-- The numerator of `q = (1000 × c) / (T × K)` (R233). -/
def rateNum (count : Word) (K : Ratio) : Nat := 1000 * count.toNat * K.den

/-- The denominator of `q = (1000 × c) / (T × K)` (R233). -/
def rateDen (T : Word) (K : Ratio) : Nat := T.toNat * K.num

/-- The whole number nearest to `n / d`, ties to even. -/
def roundHalfEven (n d : Nat) : Nat :=
  let q := n / d
  let r := n % d
  if 2 * r < d then q else if d < 2 * r then q + 1 else q + q % 2

/-- The binary32 pattern nearest to `n / d`, ties to the pattern with an even fraction (R235, G3): with `2^s` units of
2^-149 between neighbouring patterns around `n / d`, the pattern is `s × 2^23` plus the rounded significand, and at most
the pattern of +∞. -/
def nearestF32 (n d : Nat) : Word :=
  let units := n * oneUnits / d
  let s := Nat.log2 units - 23
  BitVec.ofNat 32 (min (s * 2 ^ 23 + roundHalfEven (n * oneUnits) (d * 2 ^ s)) 0x7F800000)

/-- `n / d` lies in the range of the normal binary32 numbers: from 2^-126 to (2^24 − 1) × 2^104. -/
def normalRange (n d : Nat) : Bool :=
  decide (d * 2 ^ 23 ≤ n * oneUnits) && decide (n * oneUnits ≤ d * ((2 ^ 24 - 1) * 2 ^ 253))

/-- The pattern is finite and positive and within `2^-22 × q` of `q = n / d` (R234 Q3). -/
def withinTolerance (r : Word) (n d : Nat) : Bool :=
  match fval r with
  | .fin u => decide (0 < u) && decide ((u * (d : Int) - ((n * oneUnits : Nat) : Int)).natAbs * 2 ^ 22 ≤ n * oneUnits)
  | .nan | .negInf | .posInf => false

/-- The form of a rational in lowest terms: equal rationals have the same one. -/
def lowestTerms (K : Ratio) : Ratio := ⟨K.num / K.num.gcd K.den, K.den / K.num.gcd K.den⟩

/-- `FLOW_RATE(c, T, K)`. `nearestEven` is R235. `platform` is any function with Q1 to Q3 of R234: a free value of the
count, the window and the rational `K`, however `K` is written (Q1), held to Q2 for a zero count and to Q3 where Q3
speaks (entry 14). -/
def flowRate (c : Config) (count T : Word) (K : Ratio) : Word :=
  let n := rateNum count K
  let d := rateDen T K
  match c.flowRate with
  | .nearestEven => nearestF32 n d
  | .platform =>
    let r := Config.platformRate count T (lowestTerms K)
    if count = 0 then 0
    else if normalRange n d && !withinTolerance r n d then nearestF32 n d
    else r

/-! ## The DataPacket (R70) -/

/-- One row of R70's table: offset, size, value. -/
structure Field where
  offset : Nat
  size : Nat
  value : Nat
deriving DecidableEq, Repr

/-- R70's table, filled from the registers (R236). -/
def dataFields (now : Word) (t : Telemetry) (f : Flow) : List Field :=
  [⟨0, 8, now.toNat⟩,
   ⟨8, 4, t.loadcell[0].toNat⟩, ⟨12, 4, t.loadcell[1].toNat⟩, ⟨16, 4, t.loadcell[2].toNat⟩,
   ⟨20, 4, t.loadcell[3].toNat⟩, ⟨24, 4, t.loadcell[4].toNat⟩, ⟨28, 4, t.loadcell[5].toNat⟩,
   ⟨32, 4, t.accelFixed[0].toNat⟩, ⟨36, 4, t.accelFixed[1].toNat⟩, ⟨40, 4, t.accelFixed[2].toNat⟩,
   ⟨44, 4, t.accelTank[0].toNat⟩, ⟨48, 4, t.accelTank[1].toNat⟩, ⟨52, 4, t.accelTank[2].toNat⟩,
   ⟨56, 4, t.accelTank[3].toNat⟩, ⟨60, 4, t.accelTank[4].toNat⟩, ⟨64, 4, t.accelTank[5].toNat⟩,
   ⟨68, 4, t.accelTank[6].toNat⟩, ⟨72, 4, t.accelTank[7].toNat⟩, ⟨76, 4, t.accelTank[8].toNat⟩,
   ⟨80, 4, f.rate[0].toNat⟩, ⟨84, 4, f.rate[1].toNat⟩, ⟨88, 4, f.rate[2].toNat⟩]

/-- The 92-byte payload of a DataPacket: every field written with `MemWrite` into a fresh payload (R236). -/
def dataPayload (now : Word) (t : Telemetry) (f : Flow) : List Byte :=
  (dataFields now t f).foldl (fun D x => memWrite D x.offset x.size x.value) (List.replicate 92 0#8)

/-! ## SAMPLE register numbers (R111) -/

/-- Write the sample register numbered `reg`: 0 to 5 the load cells, 6 to 8 the fixed accelerometer, 9 to 17 the tank
accelerometers; `none` for any other number. -/
def writeSample (reg : Nat) (v : Word) (t : Telemetry) : Option Telemetry :=
  if h : reg < 6 then some { t with loadcell := t.loadcell.set reg v h }
  else if h : reg - 6 < 3 then some { t with accelFixed := t.accelFixed.set (reg - 6) v h }
  else if h : reg - 9 < 9 then some { t with accelTank := t.accelTank.set (reg - 9) v h }
  else none

end Sys2Proof.Machine
end

