-- ==== Sys2Proof/Machine/Ops.lean ====
section
/-! DEFINITION. The named operations over the state: the payload buffer (R27), register writes (R13), the outputs
`emit_tx`, `emit_pkt` and `raise` (R15), and the fetch of the next event record (entry 1).

`raise` is what the block has in the place of taking an exception: it saves nothing, switches no mode and transfers no
control (R273), and there is nothing to return from (R274). -/

namespace Sys2Proof.Machine

open Sys2Proof

/-- What an operation answers. -/
abbrev Result := Host.Outcome State Fault Refusal

/-- Go on with the next state; stop where the first part stopped. -/
def andThen (r : Result) (k : State → Result) : Result :=
  match r with
  | .next s => k s
  | .fault f => .fault f
  | .refused x => .refused x

/-! ## The payload buffer -/

/-- The byte at an address. -/
def payloadRead (m : Memory) (a : Nat) : Option Byte :=
  match m with
  | [] => Memory.unlisted a
  | (k, b) :: rest => if k = a then some b else payloadRead rest a

/-- Write a byte at an address, keeping the canonical form. -/
def payloadWrite (m : Memory) (a : Nat) (b : Byte) : Memory :=
  match m with
  | [] => [(a, b)]
  | (k, c) :: rest =>
    if a < k then (a, b) :: (k, c) :: rest
    else if a = k then (a, b) :: rest
    else (k, c) :: payloadWrite rest a b

/-- A copy of the `n` bytes from address `a` on, or the fault their read raises (R27, R159). -/
def payloadCopy (m : Memory) (a : Nat) : Nat → Except Fault (List Byte)
  | 0 => .ok []
  | n + 1 =>
    if maxLen ≤ a then .error .payloadIndex
    else
      match payloadRead m a with
      | none => .error .unwrittenPayload
      | some b =>
        match payloadCopy m (a + 1) n with
        | .error f => .error f
        | .ok bs => .ok (b :: bs)

/-! ## Register writes -/

/-- Write the decoder's registers. -/
def State.withDec (s : State) (d : Decoder) : State := { s with dec := d }
/-- Write the pump controller's registers. -/
def State.withPump (s : State) (p : Pump) : State := { s with pump := p }
/-- Write the flow registers. -/
def State.withFlow (s : State) (f : Flow) : State := { s with flow := f }
/-- Write the telemetry registers. -/
def State.withTlm (s : State) (t : Telemetry) : State := { s with tlm := t }

/-! ## Outputs (R15) -/

/-- Start an operation: its output is empty. -/
def State.begin (s : State) : State := { s with out := .empty }

/-- `emit_tx` of each byte in order: the TX stream grows by them (R80). -/
def emitTx (bs : List Byte) (s : State) : State :=
  { s with tx := s.tx ++ bs, out := { s.out with tx := s.out.tx ++ bs } }

/-- `emit_pkt(P)`. -/
def emitPkt (P : Packet) (s : State) : State := { s with out := { s.out with pkt := some P } }

/-- `raise e`: the event is recorded in the operation's output and its counter is incremented; no other state changes
(R15, R260). -/
def raise (e : Event) (s : State) : State :=
  { s with stat := countEvent e s.stat, out := { s.out with events := s.out.events ++ [e] } }

/-- The logical byte that an internal operation answers. -/
def answerLogical (lb : Option Byte) (s : State) : State := { s with out := { s.out with logical := lb } }

/-- The answer of `UNESC`: a logical byte or none, and the error indication (R135). -/
def answerUnesc (lb : Option Byte) (err : Bool) (s : State) : State :=
  { s with out := { s.out with logical := lb, unescErr := err } }

/-- The wire bytes that `ESCAPE` answers (R130). -/
def answerCoded (bs : List Byte) (s : State) : State := { s with out := { s.out with coded := bs } }

/-! ## Fetch (entry 1) -/

/-- What the pending bytes hold: nothing, the next operation and the bytes after it, or no record. -/
inductive Fetched where
  | idle
  | operation (i : Instr) (rest : List Byte)
  | bad (e : DecodeError)
deriving DecidableEq, Repr

/-- Take the next record from the pending bytes. -/
def fetch (s : State) : Fetched :=
  match s.inbox with
  | [] => .idle
  | b :: bs =>
    match decode (b :: bs) with
    | .ok (i, rest) => .operation i rest
    | .error e => .bad e

/-- The state in which the fetched operation runs: its record is consumed. -/
def State.withInbox (s : State) (rest : List Byte) : State := { s with inbox := rest }

end Sys2Proof.Machine
end

