-- ==== Sys2Proof/Machine/Coder.lean ====
section
/-! DEFINITION. The escape coder (`40_escape_coder.md`): ESCAPE, UNESC, and the wire symbol classes of R92. -/

namespace Sys2Proof.Machine

open Sys2Proof

/-! ## ESCAPE (R130) -/

/-- `ESCAPE(b)`: the wire bytes of a logical byte. -/
def escapeByte (b : Byte) : List Byte :=
  if b = startByte then [escByte, escCodeStart]
  else if b = escByte then [escByte, escCodeEsc]
  else [b]

/-- ESCAPE alone: it reads and writes no register and answers the wire bytes; its caller appends them (R130). -/
def execEscape (b : Byte) (s : State) : Result :=
  .next (answerCoded (escapeByte b) s.begin)

/-! ## UNESC (R135) -/

/-- What `UNESC` leaves and answers. -/
structure Unescaped where
  /-- `esc` after the operation. -/
  esc : Bool
  /-- The logical byte, if one was produced. -/
  logical : Option Byte
  /-- The error indication (R136). -/
  err : Bool
deriving DecidableEq, Repr

/-- `UNESC(w)` in the context `esc`. -/
def unescByte (esc : Bool) (w : Byte) : Unescaped :=
  if esc then
    if w = escCodeStart then ⟨false, some startByte, false⟩
    else if w = escCodeEsc then ⟨false, some escByte, false⟩
    else ⟨false, none, true⟩
  else if w = escByte then ⟨true, none, false⟩
  else ⟨false, some w, false⟩

/-- Write `esc`. -/
def setEsc (e : Bool) (s : State) : State := s.withDec { s.dec with esc := e }

/-- Write `p`. -/
def setPos (p : Pos) (s : State) : State := s.withDec { s.dec with p := p }

/-- UNESC alone: it writes `esc` and answers a logical byte or an error; raising `EscErr` is its caller's part (R136). -/
def execUnesc (w : Byte) (s : State) : Result :=
  let u := unescByte s.dec.esc w
  .next (answerUnesc u.logical u.err (setEsc u.esc s.begin))

/-! ## Receiving one wire symbol: steps 1 to 3 of R150 -/

/-- Step 1: a raw `START` forces `p` to 0, whatever `esc` is. -/
def resync (w : Byte) (s : State) : State :=
  if w = startByte then setPos 0 s else s

/-- Step 3: the escape error is raised, and aborts the frame in the strict mode (R136, R257). -/
def escapeError (w : Byte) (s : State) : State :=
  if s.cfg.strictEsc then setPos 0 (raise (.escErr w) s) else raise (.escErr w) s

/-- Steps 1 to 3 of R150 on the wire byte `w`: resync, unescape, escape-error handling. -/
def receiveSymbol (w : Byte) (s : State) : State :=
  let s1 := resync w s
  let u := unescByte s1.dec.esc w
  let s2 := setEsc u.esc s1
  if u.err then escapeError w s2 else s2

/-- The logical byte that the wire byte `w` produces in the state `s` (R92, R135). -/
def logicalOf (w : Byte) (s : State) : Option Byte := (unescByte s.dec.esc w).logical

/-- A wire symbol of class `c`: the class's effect (R92), answering the logical byte it produces; refused where `esc`
and `w` select another class (entries 5 and 6). -/
def wireSymbol (c : WireClass) (w : Byte) (s : State) : Result :=
  if classify s.dec.esc w = c then .next (answerLogical (logicalOf w s) (receiveSymbol w s.begin))
  else .refused .notSelected

/-- W.START: the raw start marker with `esc = 0`; `p <- 0`, logical byte 0xFE (R92, R150). -/
def execWStart (s : State) : Result := wireSymbol .start startByte s

/-- W.ESC: the escape marker with `esc = 0`; `esc <- 1`, no logical byte (R92, R135). -/
def execWEsc (s : State) : Result := wireSymbol .esc escByte s

/-- W.LIT: any other wire byte with `esc = 0`; it is its own logical byte (R92, R135). -/
def execWLit (w : Byte) (s : State) : Result := wireSymbol .lit w s

/-- W.ESC0: 0x00 with `esc = 1`; logical byte 0xFE (R92, R135). -/
def execWEsc0 (s : State) : Result := wireSymbol .esc0 escCodeStart s

/-- W.ESC1: 0x01 with `esc = 1`; logical byte 0xEE (R92, R135). -/
def execWEsc1 (s : State) : Result := wireSymbol .esc1 escCodeEsc s

/-- W.ESCBAD: any other wire byte with `esc = 1`; the escape error (R92, R136, R161). -/
def execWEscbad (w : Byte) (s : State) : Result := wireSymbol .escbad w s

end Sys2Proof.Machine
end

