-- ==== Sys2Proof/Machine/FrameDecoder.lean ====
section
/-! DEFINITION. The frame decoder (`41_frame_decoder.md`): the position operations and their dispatch. -/

namespace Sys2Proof.Machine

open Sys2Proof

/-- `ck +_16 zext_16(b)` (R12). -/
def addCk (ck : Half) (b : Byte) : Half := ck + b.setWidth 16

/-! ## The position operations, as their pseudocode (R152 to R158) -/

/-- DEC.WAIT (R152): `ck` takes the logical byte; `p` becomes 1 only on a raw start marker. -/
def decWait (b w : Byte) (s : State) : State :=
  s.withDec { s.dec with ck := b.setWidth 16, p := if w = startByte then 1 else s.dec.p }

/-- DEC.LENLO (R153). -/
def decLenlo (b : Byte) (s : State) : State :=
  s.withDec { s.dec with len := s.dec.len.extractLsb' 8 8 ++ b, ck := addCk s.dec.ck b, p := 2 }

/-- DEC.LENHI (R154), with the over-size test after the write. -/
def decLenhi (b : Byte) (s : State) : State :=
  let len : Half := b ++ s.dec.len.extractLsb' 0 8
  let ck := addCk s.dec.ck b
  if maxLen < len.toNat then raise (.oversize len) (s.withDec { s.dec with len := len, ck := ck, p := 0 })
  else s.withDec { s.dec with len := len, ck := ck, p := 3 }

/-- DEC.TYPE (R155). -/
def decType (b : Byte) (s : State) : State :=
  s.withDec { s.dec with typ := b, ck := addCk s.dec.ck b, p := 4 }

/-- DEC.PAYLOAD (R156). An index outside the buffer does not exist (R27) and faults; R28 excludes it. -/
def decPayload (b : Byte) (s : State) : Result :=
  let k := s.dec.p.toNat - 4
  if k < maxLen then
    .next (s.withDec
      { s.dec with payload := payloadWrite s.dec.payload k b, ck := addCk s.dec.ck b, p := s.dec.p + 1 })
  else .fault .payloadIndex

/-- DEC.CKLO (R157). -/
def decCklo (b : Byte) (s : State) : State :=
  s.withDec { s.dec with cklo := b, p := s.dec.p + 1 }

/-- DEC.CKHI (R158): validation, and emission of a copy of the payload (R159). -/
def decCkhi (b : Byte) (s : State) : Result :=
  let declared : Half := b ++ s.dec.cklo
  if declared = s.dec.ck then
    match payloadCopy s.dec.payload 0 s.dec.len.toNat with
    | .ok bytes => .next (emitPkt ⟨s.dec.typ, s.dec.len, bytes⟩ (setPos 0 s))
    | .error f => .fault f
  else .next (raise (.ckErr declared s.dec.ck) (setPos 0 s))

/-- `dispatch(b, w)` (R151). -/
def dispatch (b w : Byte) (s : State) : Result :=
  match positionOf s.dec with
  | some .wait => .next (decWait b w s)
  | some .lenlo => .next (decLenlo b s)
  | some .lenhi => .next (decLenhi b s)
  | some .type => .next (decType b s)
  | some .payload => decPayload b s
  | some .cklo => .next (decCklo b s)
  | some .ckhi => decCkhi b s
  | none => .fault .unreachablePosition

/-! ## The operations of the table -/

/-- Run a position operation where `p` and `len` select it (R102); elsewhere it is no operation of the block
(entry 5). -/
def atPosition (q : Position) (op : State → Result) (s : State) : Result :=
  if positionOf s.dec = some q then op s.begin else .refused .notSelected

/-- DEC.WAIT at `p = 0`. -/
def execDecWait (b w : Byte) (s : State) : Result := atPosition .wait (fun s => .next (decWait b w s)) s

/-- DEC.LENLO at `p = 1`. -/
def execDecLenlo (b : Byte) (s : State) : Result := atPosition .lenlo (fun s => .next (decLenlo b s)) s

/-- DEC.LENHI at `p = 2`. -/
def execDecLenhi (b : Byte) (s : State) : Result := atPosition .lenhi (fun s => .next (decLenhi b s)) s

/-- DEC.TYPE at `p = 3`. -/
def execDecType (b : Byte) (s : State) : Result := atPosition .type (fun s => .next (decType b s)) s

/-- DEC.PAYLOAD at `4 ≤ p < 4 + len`. -/
def execDecPayload (b : Byte) (s : State) : Result := atPosition .payload (decPayload b) s

/-- DEC.CKLO at `p = 4 + len`. -/
def execDecCklo (b : Byte) (s : State) : Result := atPosition .cklo (fun s => .next (decCklo b s)) s

/-- DEC.CKHI at `p = 5 + len`: it answers the packet; routing it is `RXBYTE`'s step 5 (R150). -/
def execDecCkhi (b : Byte) (s : State) : Result := atPosition .ckhi (decCkhi b) s

end Sys2Proof.Machine
end

