-- ==== Sys2Proof/Machine/FrameEncoder.lean ====
section
/-! DEFINITION. The frame encoder (`42_frame_encoder.md`): TXFRAME. -/

namespace Sys2Proof.Machine

open Sys2Proof

/-- The logical bytes the checksum covers after the start marker: length low, length high, type, payload (R180
step 3). -/
def coveredBytes (type : Byte) (n : Half) (payload : List Byte) : List Byte :=
  n.extractLsb' 0 8 :: n.extractLsb' 8 8 :: type :: payload

/-- The checksum accumulator, seeded with the start marker's value (R181). -/
def checksum (covered : List Byte) : Half := covered.foldl addCk 0x00FE#16

/-- The wire bytes of one frame (R180): the raw start marker, the escaped covered bytes, the escaped checksum, low byte
first. -/
def frameBytes (type : Byte) (n : Half) (payload : List Byte) : List Byte :=
  let covered := coveredBytes type n payload
  let c := checksum covered
  startByte :: (covered.flatMap escapeByte ++ escapeByte (c.extractLsb' 0 8) ++ escapeByte (c.extractLsb' 8 8))

/-- `TXFRAME(type, n, payload)` on the state: it writes no register and appends one contiguous frame (R80, R183). -/
def txFrame (type : Byte) (n : Half) (payload : List Byte) (s : State) : State :=
  emitTx (frameBytes type n payload) s

/-- TXFRAME; a payload of more than 1024 bytes, or not of the declared length, is refused (R182, U1). -/
def execTxframe (type : Byte) (n : Half) (payload : List Byte) (s : State) : Result :=
  match payloadViolation n payload with
  | none => .next (txFrame type n payload s.begin)
  | some v => .refused (.illFormed v)

end Sys2Proof.Machine
end

