-- ==== Sys2Proof/Machine/PumpControl.lean ====
section
/-! DEFINITION. The packet router, the pump command handler, the watchdog and the ramp engine (`43_router_pump.md`):
ROUTE, PUMPCMD, WDOG, RAMP, and the packet types PKT.DATA, PKT.PRINT, PKT.PUMP. -/

namespace Sys2Proof.Machine

open Sys2Proof

/-! ## Pump command (R200) -/

/-- The setpoints are latched and the command stamped when either differs from the current one, and only then
(R200, C1). -/
def latchSetpoints (s0 s1 : Half) (now : Word) (s : State) : State :=
  if s0 ≠ s.pump.sp0 ∨ s1 ≠ s.pump.sp1 then s.withPump { s.pump with sp0 := s0, sp1 := s1, tCmd := now } else s

/-- A pump command with field patterns `a` and `b`: rejected whole when either has no conversion (R204). -/
def pumpFields (a b now : Word) (s : State) : State :=
  match pwmConv s.cfg a, pwmConv s.cfg b with
  | some s0, some s1 => latchSetpoints s0 s1 now s
  | none, _ => raise (.cmdReject a b) s
  | some _, none => raise (.cmdReject a b) s

/-- `PUMPCMD(P, now)`: `pump1` at offset 0 drives channel 0, `pump2` at offset 4 channel 1 (R69, R201). -/
def pumpCommand (P : Packet) (now : Word) (s : State) : Result :=
  match field32 P.payload 0, field32 P.payload 4 with
  | some a, some b => .next (pumpFields a b now s)
  | _, _ => .refused (.illFormed .lengthMismatch)

/-- PUMPCMD on a packet of type 3 and length 8 (R200). -/
def execPumpcmd (P : Packet) (now : Word) (s : State) : Result :=
  match violation (.pumpcmd P now) with
  | none => pumpCommand P now s.begin
  | some v => .refused (.illFormed v)

/-! ## Router (R195) -/

/-- `ROUTE(P, now)`: the handler of the exactly matching pair, else `RouteDrop`. The one handler the spec defines is
`PUMPCMD`, of (3, 8); the handler of any other pair in the table is outside the block and writes no register of it
(R20, R196, D21; entry 16). -/
def routePacket (P : Packet) (now : Word) (s : State) : Result :=
  if (P.type, P.length) ∈ s.cfg.routeTable then
    if P.type = typePump ∧ P.length = pumpLen then pumpCommand P now s else .next s
  else .next (raise (.routeDrop P.type P.length) s)

/-- Route a packet value, refused when it is none (R68). -/
def receivePacket (P : Packet) (now : Word) (s : State) : Result :=
  match payloadViolation P.length P.payload with
  | none => routePacket P now s.begin
  | some v => .refused (.illFormed v)

/-- ROUTE alone, on a packet value (R195). -/
def execRoute (P : Packet) (now : Word) (s : State) : Result := receivePacket P now s

/-- PKT.DATA received by the device: type 1, length 92 (R70, R100). -/
def execPktData (payload : List Byte) (now : Word) (s : State) : Result :=
  receivePacket ⟨typeData, dataLen, payload⟩ now s

/-- PKT.PRINT received by the device: type 2, length `n` (R71, R100). -/
def execPktPrint (n : Half) (payload : List Byte) (now : Word) (s : State) : Result :=
  receivePacket ⟨typePrint, n, payload⟩ now s

/-- PKT.PUMP received by the device: type 3, length 8 (R69, R196). -/
def execPktPump (payload : List Byte) (now : Word) (s : State) : Result :=
  receivePacket ⟨typePump, pumpLen, payload⟩ now s

/-! ## Watchdog (R210) -/

/-- `WDOG(now)`. -/
def watchdog (now : Word) (s : State) : State :=
  if timerDue now s.pump.tCmd wdgTimeoutMs then
    let s1 := if s.pump.wdg then s else raise (.wdgTrip (elapsed now s.pump.tCmd)) s
    let n := s.cfg.pwmNeutral
    s1.withPump { s1.pump with sp0 := n, sp1 := n, out0 := n, out1 := n, wdg := true }
  else s.withPump { s.pump with wdg := false }

/-- WDOG alone. -/
def execWdog (now : Word) (s : State) : Result := .next (watchdog now s.begin)

/-! ## Ramp engine (R215) -/

/-- `ramp_step(o, s)`: signed, unbounded arithmetic (R12, R217); the result fits the register. -/
def rampStep (o sp : Half) : Half :=
  let e : Int := (sp.toNat : Int) - (o.toNat : Int)
  let d := min e.natAbs rampMaxStep
  if 0 < e then BitVec.ofNat 16 (o.toNat + d)
  else if e < 0 then BitVec.ofNat 16 (o.toNat - d)
  else o

/-- `RAMP(now)`: one step of both channels when the ramp timer is due, however late (R215, D12). -/
def rampOutputs (now : Word) (s : State) : State :=
  if timerDue now s.pump.tRamp rampPeriodMs then
    s.withPump { s.pump with
      tRamp := now
      out0 := rampStep s.pump.out0 s.pump.sp0
      out1 := rampStep s.pump.out1 s.pump.sp1 }
  else s

/-- RAMP alone. -/
def execRamp (now : Word) (s : State) : Result := .next (rampOutputs now s.begin)

end Sys2Proof.Machine
end

