-- ==== Sys2Proof/Machine/FlowTelemetry.lean ====
section
/-! DEFINITION. Flow pulse counters, flow aggregation, telemetry, samples and print (`44_flow_telemetry.md`): PULSE,
FLOWAGG, TELEM, SAMPLE, PRINT. -/

namespace Sys2Proof.Machine

open Sys2Proof

/-- PULSE: one indivisible increment of a sensor's counter, modulo 2^32 (R230); a number that names no sensor is
refused. -/
def execPulse (i : Byte) (s : State) : Result :=
  if h : i.toNat < 3 then
    let f := s.flow
    .next (s.begin.withFlow { f with cnt := f.cnt.set i.toNat (f.cnt[i.toNat] + 1) h })
  else .refused (.illFormed .sensorRange)

/-- `FLOWAGG(now)`: when the window is due, every counter is drained once and its rate computed over the measured
window (R232). -/
def aggregateFlow (now : Word) (s : State) : State :=
  if timerDue now s.flow.tFlow flowPeriodMs then
    let T := elapsed now s.flow.tFlow
    let counts := s.flow.cnt
    let k := s.cfg.kFlow
    s.withFlow
      { cnt := #v[0, 0, 0]
        rate := #v[flowRate s.cfg counts[0] T k[0], flowRate s.cfg counts[1] T k[1], flowRate s.cfg counts[2] T k[2]]
        tFlow := now }
  else s

/-- FLOWAGG alone. -/
def execFlowagg (now : Word) (s : State) : Result := .next (aggregateFlow now s.begin)

/-- `TELEM(now)`: when due, one DataPacket of the registers as they stand (R236). -/
def sendTelemetry (now : Word) (s : State) : State :=
  if timerDue now s.tlm.tTlm telemPeriodMs then
    txFrame typeData dataLen (dataPayload now s.tlm s.flow) (s.withTlm { s.tlm with tTlm := now })
  else s

/-- TELEM alone. -/
def execTelem (now : Word) (s : State) : Result := .next (sendTelemetry now s.begin)

/-- SAMPLE: one sample register takes a fresh reading, whole (R238); a number that names none is refused (R111). -/
def execSample (reg : Byte) (v : Word) (s : State) : Result :=
  match writeSample reg.toNat v s.tlm with
  | some t => .next (s.begin.withTlm t)
  | none => .refused (.illFormed .sampleRange)

/-- PRINT: one PrintPacket frame (R239); more than 1024 bytes are refused (R182). -/
def execPrint (n : Half) (bytes : List Byte) (s : State) : Result :=
  match payloadViolation n bytes with
  | none => .next (txFrame typePrint n bytes s.begin)
  | some v => .refused (.illFormed v)

end Sys2Proof.Machine
end

