-- ==== Sys2Proof/Machine/Sequencer.lean ====
section
/-! DEFINITION. The events that decide when the rest runs (`45_sequencer.md`, R150): RESET, RXBYTE, TICK, and the
expansions of the pseudo-operations of R119 and R256 into events. -/

namespace Sys2Proof.Machine

open Sys2Proof

/-- RESET: every register takes its reset value, the four stamps `now` (R55, R251). The configuration, the TX stream
and the pending events are no registers of the block and stay (R52; entry 19). -/
def execReset (now : Word) (s : State) : Result :=
  .next { s.begin with
    dec := .reset
    pump := .reset s.cfg now
    flow := .reset now
    tlm := .reset now
    stat := .zero }

/-- Step 5 of R150: a packet that came out is routed in the same operation. -/
def routeEmitted (now : Word) (s : State) : Result :=
  match s.out.pkt with
  | none => .next s
  | some P => routePacket P now s

/-- RXBYTE: the five steps of R150. -/
def execRxbyte (w : Byte) (now : Word) (s : State) : Result :=
  match logicalOf w s with
  | none => .next (receiveSymbol w s.begin)
  | some b => andThen (dispatch b w (receiveSymbol w s.begin)) (routeEmitted now)

/-- TICK: WDOG, RAMP, FLOWAGG, TELEM, in this order (R253). -/
def execTick (now : Word) (s : State) : Result :=
  .next (sendTelemetry now (aggregateFlow now (rampOutputs now (watchdog now s.begin))))

/-! ## Pseudo-operations: lists of events (R119, R256) -/

/-- `RXS hh hh ... @now`. -/
def rxsEvents (wire : List Byte) (now : Word) : List Instr := wire.map fun w => .rxbyte w now

/-- `FRAME(type, bytes) @now`: a well-formed frame arriving. -/
def frameEvents (type : Byte) (n : Half) (payload : List Byte) (now : Word) : List Instr :=
  rxsEvents (frameBytes type n payload) now

/-- `PUMP(a, b) @now`, the fields given by their f32 patterns. -/
def pumpEvents (a b now : Word) : List Instr :=
  frameEvents typePump pumpLen (leBytes 4 a.toNat ++ leBytes 4 b.toNat) now

/-- `LOOP(bytes, now)`: one iteration of the control loop (R256). -/
def loopEvents (wire : List Byte) (now : Word) : List Instr := rxsEvents wire now ++ [.tick now]

/-- `TICKS from t0 step d`, `k + 1` of them (R119). -/
def ticksEvents (t0 : Word) (d : Word) : Nat → List Instr
  | 0 => [.tick t0]
  | k + 1 => .tick t0 :: ticksEvents (t0 + d) d k

end Sys2Proof.Machine
end

