-- ==== Sys2Proof/Machine/Dispatch.lean ====
section
/-! DEFINITION. One operation of the block: its meaning, by constructor. -/

namespace Sys2Proof.Machine

open Sys2Proof

def exec (i : Instr) (s : State) : Host.Outcome State Fault Refusal :=
  match i with
  -- external events (45_sequencer.md, 41_frame_decoder.md, 44_flow_telemetry.md)
  | .reset now => Sys2Proof.Machine.execReset now s
  | .rxbyte w now => Sys2Proof.Machine.execRxbyte w now s
  | .tick now => Sys2Proof.Machine.execTick now s
  | .pulse k => Sys2Proof.Machine.execPulse k s
  | .sample reg v => Sys2Proof.Machine.execSample reg v s
  | .print n bytes => Sys2Proof.Machine.execPrint n bytes s
  -- wire symbol classes (30_encoding.md R92)
  | .wStart => Sys2Proof.Machine.execWStart s
  | .wEsc => Sys2Proof.Machine.execWEsc s
  | .wLit w => Sys2Proof.Machine.execWLit w s
  | .wEsc0 => Sys2Proof.Machine.execWEsc0 s
  | .wEsc1 => Sys2Proof.Machine.execWEsc1 s
  | .wEscbad w => Sys2Proof.Machine.execWEscbad w s
  -- decoder operations (41_frame_decoder.md)
  | .decWait b w => Sys2Proof.Machine.execDecWait b w s
  | .decLenlo b => Sys2Proof.Machine.execDecLenlo b s
  | .decLenhi b => Sys2Proof.Machine.execDecLenhi b s
  | .decType b => Sys2Proof.Machine.execDecType b s
  | .decPayload b => Sys2Proof.Machine.execDecPayload b s
  | .decCklo b => Sys2Proof.Machine.execDecCklo b s
  | .decCkhi b => Sys2Proof.Machine.execDecCkhi b s
  -- internal operations
  | .unesc w => Sys2Proof.Machine.execUnesc w s
  | .route P now => Sys2Proof.Machine.execRoute P now s
  | .pumpcmd P now => Sys2Proof.Machine.execPumpcmd P now s
  | .wdog now => Sys2Proof.Machine.execWdog now s
  | .ramp now => Sys2Proof.Machine.execRamp now s
  | .flowagg now => Sys2Proof.Machine.execFlowagg now s
  | .telem now => Sys2Proof.Machine.execTelem now s
  | .escape b => Sys2Proof.Machine.execEscape b s
  | .txframe t n payload => Sys2Proof.Machine.execTxframe t n payload s
  -- packet types (43_router_pump.md)
  | .pktData payload now => Sys2Proof.Machine.execPktData payload now s
  | .pktPrint n payload now => Sys2Proof.Machine.execPktPrint n payload now s
  | .pktPump payload now => Sys2Proof.Machine.execPktPump payload now s

end Sys2Proof.Machine
end

