-- ==== Sys2Proof/Machine/Step.lean ====
section
/-! DEFINITION. One step of the machine: the next pending event record is taken and its operation runs, whole (R66,
R250). With nothing pending the block does not change (R250; entry 4). -/

namespace Sys2Proof.Machine

open Sys2Proof

/-- One step. -/
def step (s : State) : Host.Outcome State Fault Refusal :=
  match fetch s with
  | .idle => .next s
  | .operation i rest => exec i (s.withInbox rest)
  | .bad e => .refused (.undecodable e)

/-- `s` with a word of `opcode_table.json` as its pending bytes, zeros up to the longest record after it: the next step
runs exactly that operation (entries 1 to 3). -/
def State.withFetchWord (s : State) (nbits w : Nat) : State :=
  s.withInbox (wordBytes nbits w)

end Sys2Proof.Machine
end

