-- ==== Sys2Proof/Safety.lean ====
section
/-! DEFINITION. What counts as a good state and a good run, in the terms the statements use: the decoder's and the pump
controller's invariants (R27, R28, R35), what the running checksum is at each position (R25, R95), runs of several
operations, and states that agree but for what no operation reads (R50, R267). -/

namespace Sys2Proof.Machine

open Sys2Proof

/-! ## Invariants -/

/-- R28: `p ≤ 3`, or `4 ≤ p ≤ 5 + len` and `len ≤ 1024`; and `p = 3` implies `len ≤ 1024`. -/
def PositionInv (d : Decoder) : Prop :=
  (d.p.toNat ≤ 3 ∨ (4 ≤ d.p.toNat ∧ d.p.toNat ≤ 5 + d.len.toNat ∧ d.len.toNat ≤ maxLen)) ∧
  (d.p.toNat = 3 → d.len.toNat ≤ maxLen)

/-- How many payload bytes of the frame in progress have arrived: the positions 4 to 3 + `len` already passed (R22). -/
def payloadCount (d : Decoder) : Nat := min (d.p.toNat - 4) d.len.toNat

/-- R27: every payload byte of the frame in progress that has arrived is in the buffer. -/
def PayloadInv (d : Decoder) : Prop :=
  ∀ k, k < payloadCount d → (payloadRead d.payload k).isSome = true

/-- The payload bytes of the frame in progress that have arrived, in order; a byte never written counts as 0. -/
def arrivedPayload (d : Decoder) : List Byte :=
  (List.range (payloadCount d)).map fun k => (payloadRead d.payload k).getD 0

/-- R25, R95: past the start marker `ck` is the checksum of the covered logical bytes that have arrived. -/
def ChecksumInv (d : Decoder) : Prop :=
  (d.p.toNat = 1 → d.ck = checksum []) ∧
  (d.p.toNat = 2 → d.ck = checksum [d.len.extractLsb' 0 8]) ∧
  (d.p.toNat = 3 → d.ck = checksum [d.len.extractLsb' 0 8, d.len.extractLsb' 8 8]) ∧
  (4 ≤ d.p.toNat → d.ck = checksum (coveredBytes d.typ d.len (arrivedPayload d)))

/-- A PWM-domain value lies in `[PWM_MIN, PWM_MAX]`. -/
abbrev inPwmRange (c : Config) (v : Half) : Prop := c.pwmMin.toNat ≤ v.toNat ∧ v.toNat ≤ c.pwmMax.toNat

/-- R35: the four PWM-domain registers lie in `[PWM_MIN, PWM_MAX]`. -/
def PumpInv (c : Config) (p : Pump) : Prop :=
  inPwmRange c p.sp0 ∧ inPwmRange c p.sp1 ∧ inPwmRange c p.out0 ∧ inPwmRange c p.out1

/-- The invariant of the block: a legal configuration, the buffer in canonical form, and the invariants above. -/
structure BlockInv (s : State) : Prop where
  cfg : s.cfg.Valid
  memory : Memory.wf s.dec.payload = true
  position : PositionInv s.dec
  payload : PayloadInv s.dec
  checksum : ChecksumInv s.dec
  pump : PumpInv s.cfg s.pump

/-! ## Runs -/

/-- Run operations one after another, stopping at the first that stops. -/
def runAll : List Instr → State → Result
  | [], s => .next s
  | i :: is, s => andThen (exec i s) (runAll is)

/-- The packets that a run of operations emits, in order; none after the operation that stops. -/
def emittedBy : List Instr → State → List Packet
  | [], _ => []
  | i :: is, s =>
    match exec i s with
    | .next t => t.out.pkt.toList ++ emittedBy is t
    | .fault _ => []
    | .refused _ => []

/-- The events that a run of operations raises, in order; none after the operation that stops. -/
def raisedBy : List Instr → State → List Event
  | [], _ => []
  | i :: is, s =>
    match exec i s with
    | .next t => t.out.events ++ raisedBy is t
    | .fault _ => []
    | .refused _ => []

/-- The decoder's own events: `EscErr`, `Oversize` and `CkErr` (R150). -/
def Event.isDecoder : Event → Bool
  | .escErr _ => true
  | .oversize _ => true
  | .ckErr _ _ => true
  | .routeDrop _ _ => false
  | .cmdReject _ _ => false
  | .wdgTrip _ => false

/-- Feed wire bytes to `UNESC` one at a time: `esc` at the end, the logical bytes produced in order, and whether an
error was reported (R137). -/
def unescAll (esc : Bool) : List Byte → Bool × List Byte × Bool
  | [] => (esc, [], false)
  | w :: ws =>
    let u := unescByte esc w
    let r := unescAll u.esc ws
    (r.1, u.logical.toList ++ r.2.1, u.err || r.2.2)

/-- `k` ramp ticks, each due, on one output toward a setpoint held at `sp` (R216). -/
def rampTicks (sp : Half) : Nat → Half → Half
  | 0, o => o
  | k + 1, o => rampTicks sp k (rampStep o sp)

/-- A stream in which 0xFE never stands and 0xEE stands only before 0x00 or 0x01: a well-formed frame body (R93,
R185). -/
def cleanBody : List Byte → Bool
  | [] => true
  | w :: ws =>
    if w = startByte then false
    else if w = escByte then
      match ws with
      | [] => false
      | x :: rest => (x = escCodeStart || x = escCodeEsc) && cleanBody rest
    else cleanBody ws

/-- The operation of a position on the logical byte `b` that came from the wire byte `w` (R151). -/
def positionInstr (q : Position) (b w : Byte) : Instr :=
  match q with
  | .wait => .decWait b w
  | .lenlo => .decLenlo b
  | .lenhi => .decLenhi b
  | .type => .decType b
  | .payload => .decPayload b
  | .cklo => .decCklo b
  | .ckhi => .decCkhi b

/-- The wire byte `w` in the context `esc` stands for the logical byte `b`: itself, or the second byte of an escape
pair (R91, R92). -/
def standsFor (esc : Bool) (w b : Byte) : Prop :=
  (esc = false ∧ w ≠ 0xEE#8 ∧ b = w) ∨ (esc = true ∧ ((w = 0x00#8 ∧ b = 0xFE#8) ∨ (w = 0x01#8 ∧ b = 0xEE#8)))

/-! ## Closed forms of the spec, in arithmetic -/

/-- R95: the checksum as a sum modulo 2^16. -/
def checksumSum (covered : List Byte) : Half := BitVec.ofNat 16 (0xFE + (covered.map BitVec.toNat).sum)

/-- A wire frame of the given fields that carries the checksum `c`, right or wrong (R90). -/
def frameCarrying (type : Byte) (n : Half) (payload : List Byte) (c : Half) : List Byte :=
  startByte :: ((coveredBytes type n payload).flatMap escapeByte ++ escapeByte (c.extractLsb' 0 8) ++
    escapeByte (c.extractLsb' 8 8))

/-- R17: the value of a finite f32 pattern as a rational number. -/
def fvalRat (b : Word) : ℚ :=
  let e := (b.extractLsb' 23 8).toNat
  let f := (b.extractLsb' 0 23).toNat
  let sign : ℚ := if b.msb then -1 else 1
  if e = 0 then sign * (2 : ℚ) ^ (-126 : ℤ) * ((f : ℚ) / 2 ^ 23)
  else sign * (2 : ℚ) ^ ((e : ℤ) - 127) * (1 + (f : ℚ) / 2 ^ 23)

/-- A finite f32 pattern: exponent field not 255 (R17). -/
def isFiniteF32 (b : Word) : Prop := (b.extractLsb' 23 8).toNat ≠ 255

/-- A NaN pattern (R17). -/
def isNanF32 (b : Word) : Prop := (b.extractLsb' 23 8).toNat = 255 ∧ (b.extractLsb' 0 23).toNat ≠ 0

/-! ## What no operation reads -/

/-- The state with its counters at zero. -/
def State.eraseCounters (s : State) : State := { s with stat := .zero }

/-- The answer of an operation, with the counters of its next state at zero. -/
def Result.eraseCounters (r : Result) : Result := andThen r fun s => .next s.eraseCounters

end Sys2Proof.Machine
end

