-- ==== Sys2Proof/Certificates/Slice0/Obligations.lean ====
section
/-! DEFINITION. The statements for the provers. "DERIVED" marks a statement that rests on an inference or a decision the
spec marks as its own, or on a choice of the model; its docstring names which. A next state written out in full says the
frame too: every register not named in it, the configuration and the pending events are unchanged, and the output of
the operation is exactly the one given. -/

open Sys2Proof Sys2Proof.Machine

/-! ## Records, decoding and the step -/

/-- DERIVED (the record format is the model's, entry 2). Reading back the record of a well-formed operation gives that
operation and leaves the bytes after it: no operand bit is dropped. -/
def Obligations.RecordRoundTrip : Prop :=
  ∀ (i : Instr) (rest : List Byte), WellFormed i → decode (encode i ++ rest) = .ok (i, rest)

/-- DERIVED (entry 2; operands in range: `45_sequencer.md`, R250 and E2 of R252). Whatever the decoder accepts has
every operand in its domain, and takes at least one byte. -/
def Obligations.DecodedOperationsAreWellFormed : Prop :=
  ∀ (bs rest : List Byte) (i : Instr), decode bs = .ok (i, rest) → WellFormed i ∧ rest.length < bs.length

/-- DERIVED (operand layout: entry 2; the codes are R110's and the table's). Records written out byte by byte decode to
the operations they stand for. -/
def Obligations.WrittenRecordsDecode : Prop :=
  decode [0x00, 0x88, 0x13, 0x00, 0x00] = .ok (.reset 5000, []) ∧
  decode [0x01, 0xFE, 0x0A, 0x00, 0x00, 0x00] = .ok (.rxbyte 0xFE 10, []) ∧
  decode [0x02, 0x00, 0xF0, 0xFF, 0xFF] = .ok (.tick 0xFFFFF000, []) ∧
  decode [0x03, 0x02] = .ok (.pulse 2, []) ∧
  decode [0x04, 0x02, 0x9C, 0xFF, 0xFF, 0xFF] = .ok (.sample 2 0xFFFFFF9C, []) ∧
  decode [0x05, 0x02, 0x00, 0x48, 0x69] = .ok (.print 2 [0x48, 0x69], []) ∧
  decode [0xFE] = .ok (.wStart, []) ∧ decode [0xEE] = .ok (.wEsc, [])

/-- DERIVED (R110 and U14 name no event for these codes; rejecting them by name is the model's, entry 3). A record
whose code is one of the unused event codes 6 to 15 is no operation. -/
def Obligations.UnusedEventCodesRejected : Prop :=
  ∀ (h : Byte) (rest : List Byte), h.toNat < 128 → 6 ≤ h.toNat % 16 →
    decode (h :: rest) = .error (.unusedEventCode (h.toNat % 16))

/-- DERIVED (how events reach the block is the model's, entries 1 and 4). A step runs exactly the operation that the
pending bytes decode to, in the state in which its record is consumed; with no byte pending the block does not change;
bytes that are no record are refused by name. -/
def Obligations.StepRunsTheDecodedOperation : Prop :=
  ∀ (s : State),
    (∀ i rest, decode s.inbox = .ok (i, rest) → step s = exec i { s with inbox := rest }) ∧
    (s.inbox = [] → step s = .next s) ∧
    (∀ e, s.inbox ≠ [] → decode s.inbox = .error e → step s = .refused (.undecodable e))

/-! ## The escape coder (40_escape_coder.md) -/

/-- R130: ESCAPE answers the one or two wire bytes of a logical byte, reads and writes no register, raises nothing. -/
def Obligations.EscapeAnswersWireBytes : Prop :=
  ∀ (b : Byte) (s : State),
    exec (.escape b) s = .next { s with out := { Output.empty with
      coded := if b = 0xFE then [0xEE, 0x00] else if b = 0xEE then [0xEE, 0x01] else [b] } }

/-- R135: UNESC's answer and the new `esc` for each of the 512 combinations; no other register is written. -/
def Obligations.UnescDecodesOneWireByte : Prop :=
  ∀ (w : Byte) (s : State),
    exec (.unesc w) s = .next { s with
      dec := { s.dec with esc := !s.dec.esc && w = 0xEE }
      out := { Output.empty with
        logical :=
          if s.dec.esc then (if w = 0x00 then some 0xFE else if w = 0x01 then some 0xEE else none)
          else if w = 0xEE then none else some w
        unescErr := s.dec.esc && w ≠ 0x00 && w ≠ 0x01 } }

/-- DERIVED (the spec derives R131 from R130). No output byte of ESCAPE is 0xFE; 0xEE stands only as the first of two;
two bytes exactly for 0xFE and 0xEE; different bytes give outputs neither of which is a prefix of the other. -/
def Obligations.EscapeOutputsAreUnambiguous : Prop :=
  ∀ (b c : Byte),
    0xFE#8 ∉ escapeByte b ∧
    ((escapeByte b).length = 2 ↔ b = 0xFE ∨ b = 0xEE) ∧
    (0xEE#8 ∈ escapeByte b → ∃ x, escapeByte b = [0xEE, x] ∧ x ≠ 0xEE) ∧
    (escapeByte b <+: escapeByte c → b = c)

/-- DERIVED (the spec derives R137 from R130 and R135). Unescaping the escaped form of any byte sequence, from `esc =
0`, gives the sequence back, reports no error and ends with `esc = 0`. -/
def Obligations.CoderRoundTrip : Prop :=
  ∀ (bs : List Byte), unescAll false (bs.flatMap escapeByte) = (false, bs, false)

/-- DERIVED (the spec derives R92's table from R135 and R150). The three classes of `esc = 0`: their logical byte, new
`esc` and effect on `p`. -/
def Obligations.WireSymbolsOutsideAPair : Prop :=
  ∀ (w : Byte) (s : State), s.dec.esc = false →
    exec .wStart s = .next { s with
      dec := { s.dec with p := 0 }, out := { Output.empty with logical := some 0xFE } } ∧
    exec .wEsc s = .next { s with dec := { s.dec with esc := true }, out := Output.empty } ∧
    (w ≠ 0xFE → w ≠ 0xEE →
      exec (.wLit w) s = .next { s with out := { Output.empty with logical := some w } }) ∧
    exec .wEsc0 s = .refused .notSelected ∧ exec .wEsc1 s = .refused .notSelected ∧
    exec (.wEscbad w) s = .refused .notSelected

/-- DERIVED (the spec derives R92's table from R135 and R150). The two good classes of `esc = 1`; the classes of `esc =
0` are not selected there (the refusal is the model's, entry 5). -/
def Obligations.WireSymbolsClosingAPair : Prop :=
  ∀ (w : Byte) (s : State), s.dec.esc = true →
    exec .wEsc0 s = .next { s with
      dec := { s.dec with esc := false }, out := { Output.empty with logical := some 0xFE } } ∧
    exec .wEsc1 s = .next { s with
      dec := { s.dec with esc := false }, out := { Output.empty with logical := some 0xEE } } ∧
    exec .wStart s = .refused .notSelected ∧ exec .wEsc s = .refused .notSelected ∧
    exec (.wLit w) s = .refused .notSelected

/-- R136 and R261: the escape error. It yields no logical byte, clears `esc`, counts and records `EscErr`, and keeps
`p`, which becomes 0 only in the strict mode or when the byte is 0xFE; nothing else changes. The same through RXBYTE.
-/
def Obligations.EscapeErrorKeepsThePosition : Prop :=
  ∀ (w : Byte) (now : Word) (s : State), s.dec.esc = true → w ≠ 0x00 → w ≠ 0x01 →
    let t : State := { s with
      dec := { s.dec with esc := false, p := if s.cfg.strictEsc ∨ w = 0xFE then 0 else s.dec.p }
      stat := { s.stat with nEscErr := s.stat.nEscErr + 1 }
      out := { Output.empty with events := [.escErr w] } }
    exec (.wEscbad w) s = .next t ∧ exec (.rxbyte w now) s = .next t

/-! ## The frame decoder (41_frame_decoder.md) -/

/-- DERIVED (R152's case (c), what `ck` takes from a byte that starts no frame, is the spec's decision D24). DEC.WAIT
puts the logical byte into `ck`, and goes to position 1 only on a raw start marker. -/
def Obligations.DecWaitSeedsTheChecksum : Prop :=
  ∀ (b w : Byte) (s : State), s.dec.p = 0 →
    exec (.decWait b w) s = .next { s with
      dec := { s.dec with ck := b.setWidth 16, p := if w = 0xFE then 1 else 0 }, out := Output.empty }

/-- R153: DEC.LENLO writes the low byte of `len` only. -/
def Obligations.DecLenloWritesLowByte : Prop :=
  ∀ (b : Byte) (s : State), s.dec.p = 1 →
    ∃ len : Half, len.toNat = s.dec.len.toNat / 256 * 256 + b.toNat ∧
      exec (.decLenlo b) s = .next { s with
        dec := { s.dec with len := len, ck := s.dec.ck + b.setWidth 16, p := 2 }, out := Output.empty }

/-- R154: DEC.LENHI writes the high byte of `len` only, and aborts the frame exactly when `len` then exceeds 1024. -/
def Obligations.DecLenhiTestsTheLength : Prop :=
  ∀ (b : Byte) (s : State), s.dec.p = 2 →
    ∃ len : Half, len.toNat = b.toNat * 256 + s.dec.len.toNat % 256 ∧
      (len.toNat ≤ 1024 → exec (.decLenhi b) s = .next { s with
        dec := { s.dec with len := len, ck := s.dec.ck + b.setWidth 16, p := 3 }, out := Output.empty }) ∧
      (1024 < len.toNat → exec (.decLenhi b) s = .next { s with
        dec := { s.dec with len := len, ck := s.dec.ck + b.setWidth 16, p := 0 }
        stat := { s.stat with nOversize := s.stat.nOversize + 1 }
        out := { Output.empty with events := [.oversize len] } })

/-- R155: DEC.TYPE. -/
def Obligations.DecTypeLatchesTheType : Prop :=
  ∀ (b : Byte) (s : State), s.dec.p = 3 →
    exec (.decType b) s = .next { s with
      dec := { s.dec with typ := b, ck := s.dec.ck + b.setWidth 16, p := 4 }, out := Output.empty }

/-- R156: DEC.PAYLOAD stores the byte at index `p − 4`, and every other byte of the buffer reads as before. -/
def Obligations.DecPayloadStoresOneByte : Prop :=
  ∀ (b : Byte) (s : State), 4 ≤ s.dec.p.toNat → s.dec.p.toNat < 4 + s.dec.len.toNat → s.dec.len.toNat ≤ 1024 →
    ∃ m : Memory,
      (∀ a : Nat, payloadRead m a = if a = s.dec.p.toNat - 4 then some b else payloadRead s.dec.payload a) ∧
      exec (.decPayload b) s = .next { s with
        dec := { s.dec with payload := m, ck := s.dec.ck + b.setWidth 16, p := s.dec.p + 1 }, out := Output.empty }

/-- R157: DEC.CKLO holds the byte and leaves `ck` alone. -/
def Obligations.DecCkloHoldsTheByte : Prop :=
  ∀ (b : Byte) (s : State), s.dec.p.toNat = 4 + s.dec.len.toNat →
    exec (.decCklo b) s = .next { s with
      dec := { s.dec with cklo := b, p := s.dec.p + 1 }, out := Output.empty }

/-- R158: DEC.CKHI. On equality of all 16 bits the packet is emitted with a copy of the payload; else `CkErr` and no
packet. `p` returns to 0 in both. -/
def Obligations.DecCkhiEmitsOrDiscards : Prop :=
  ∀ (b : Byte) (s : State), s.dec.p.toNat = 5 + s.dec.len.toNat →
    (∀ bytes : List Byte, b.toNat * 256 + s.dec.cklo.toNat = s.dec.ck.toNat → s.dec.len.toNat ≤ 1024 →
      bytes.length = s.dec.len.toNat →
      (∀ (k : Nat) (h : k < bytes.length), payloadRead s.dec.payload k = some bytes[k]) →
      exec (.decCkhi b) s = .next { s with
        dec := { s.dec with p := 0 }
        out := { Output.empty with pkt := some ⟨s.dec.typ, s.dec.len, bytes⟩ } }) ∧
    (b.toNat * 256 + s.dec.cklo.toNat ≠ s.dec.ck.toNat →
      exec (.decCkhi b) s = .next { s with
        dec := { s.dec with p := 0 }
        stat := { s.stat with nCkErr := s.stat.nCkErr + 1 }
        out := { Output.empty with events := [.ckErr (b ++ s.dec.cklo) s.dec.ck] } })

/-- DERIVED (refusing an operation where another is selected is the model's, entry 5; the selection is R102's, which
the spec derives). A position operation presented at another position does nothing. -/
def Obligations.PositionOperationsNeedTheirPosition : Prop :=
  ∀ (q : Position) (b w : Byte) (s : State), positionOf s.dec ≠ some q →
    exec (positionInstr q b w) s = .refused .notSelected

/-- DERIVED (the spec derives R160 from R150 to R158). A raw start marker outside a pair starts a frame from any
position; the escape marker outside a pair only arms the escape. -/
def Obligations.RxMarkersOutsideAPair : Prop :=
  ∀ (now : Word) (s : State), s.dec.esc = false →
    exec (.rxbyte 0xFE now) s = .next { s with
      dec := { s.dec with p := 1, ck := 0x00FE }, out := Output.empty } ∧
    exec (.rxbyte 0xEE now) s = .next { s with dec := { s.dec with esc := true }, out := Output.empty }

/-- DERIVED (the spec derives R160 from R150 to R158). Any other wire byte that stands for a logical byte runs the
operation of the current position on it, unless that byte completes a frame. -/
def Obligations.RxRunsThePositionOperation : Prop :=
  ∀ (w b : Byte) (now : Word) (q : Position) (s : State),
    standsFor s.dec.esc w b → w ≠ 0xFE → positionOf s.dec = some q →
    (q = .ckhi → b.toNat * 256 + s.dec.cklo.toNat ≠ s.dec.ck.toNat) →
    exec (.rxbyte w now) s = exec (positionInstr q b w) { s with dec := { s.dec with esc := false } }

/-- DERIVED (the spec derives R160 from R150 to R158). The byte that completes a frame with a matching checksum emits
the packet and routes it in the same operation: the state is the one ROUTE leaves, and the output is ROUTE's with the
packet in it. -/
def Obligations.RxRoutesTheCompletedPacket : Prop :=
  ∀ (w b : Byte) (now : Word) (bytes : List Byte) (s t : State),
    standsFor s.dec.esc w b → w ≠ 0xFE → s.dec.p.toNat = 5 + s.dec.len.toNat → s.dec.len.toNat ≤ 1024 →
    b.toNat * 256 + s.dec.cklo.toNat = s.dec.ck.toNat → bytes.length = s.dec.len.toNat →
    (∀ (k : Nat) (h : k < bytes.length), payloadRead s.dec.payload k = some bytes[k]) →
    exec (.route ⟨s.dec.typ, s.dec.len, bytes⟩ now) { s with dec := { s.dec with esc := false, p := 0 } } = .next t →
    exec (.rxbyte w now) s = .next { t with out := { t.out with pkt := some ⟨s.dec.typ, s.dec.len, bytes⟩ } }

/-- DERIVED (the faults are the model's, entries 11 and 12; R102 asks for the first). Outside R28 and R27 the decoder
faults by name: no position selected, a payload index past the buffer, a copy of a byte never written. -/
def Obligations.DecoderFaultsByName : Prop :=
  ∀ (w b : Byte) (now : Word) (s : State), standsFor s.dec.esc w b → w ≠ 0xFE →
    (5 + s.dec.len.toNat < s.dec.p.toNat → 4 ≤ s.dec.p.toNat →
      exec (.rxbyte w now) s = .fault .unreachablePosition) ∧
    (1028 ≤ s.dec.p.toNat → s.dec.p.toNat < 4 + s.dec.len.toNat →
      exec (.rxbyte w now) s = .fault .payloadIndex) ∧
    (∀ k : Nat, s.dec.p.toNat = 5 + s.dec.len.toNat → s.dec.len.toNat ≤ 1024 →
      b.toNat * 256 + s.dec.cklo.toNat = s.dec.ck.toNat → k < s.dec.len.toNat → payloadRead s.dec.payload k = none →
      exec (.rxbyte w now) s = .fault .unwrittenPayload)

/-- DERIVED (the spec derives R162 from R150 to R158, R137 and R180). A frame sent whole is received whole, from any
decoder state with `esc = 0`: exactly one packet, the one sent, emitted by the last byte; no event of the decoder; the
decoder ends at `p = 0`, `esc = 0`. -/
def Obligations.FrameRoundTrip : Prop :=
  ∀ (type : Byte) (n : Half) (payload : List Byte) (now : Word) (s : State),
    s.dec.esc = false → n.toNat ≤ 1024 → payload.length = n.toNat →
    ∃ t, runAll (frameEvents type n payload now) s = .next t ∧
      emittedBy (frameEvents type n payload now) s = [⟨type, n, payload⟩] ∧
      t.out.pkt = some ⟨type, n, payload⟩ ∧
      (∀ e ∈ raisedBy (frameEvents type n payload now) s, e.isDecoder = false) ∧
      t.dec.p = 0 ∧ t.dec.esc = false

/-- DERIVED (the spec derives R164 from R153 to R158; R186 quotes the property). A frame that carries any checksum but
its own is discarded with `CkErr`: no packet, the two checksums recorded, the decoder back at `p = 0`, and no pump,
flow or telemetry register changed. -/
def Obligations.WrongChecksumIsDiscarded : Prop :=
  ∀ (type : Byte) (n : Half) (payload : List Byte) (c : Half) (now : Word) (s : State),
    s.dec.esc = false → n.toNat ≤ 1024 → payload.length = n.toNat → c ≠ checksumSum (coveredBytes type n payload) →
    ∃ t, runAll (rxsEvents (frameCarrying type n payload c) now) s = .next t ∧
      emittedBy (rxsEvents (frameCarrying type n payload c) now) s = [] ∧
      raisedBy (rxsEvents (frameCarrying type n payload c) now) s =
        [.ckErr c (checksumSum (coveredBytes type n payload))] ∧
      t.dec.p = 0 ∧ t.dec.esc = false ∧ t.pump = s.pump ∧ t.flow = s.flow ∧ t.tlm = s.tlm

/-- DERIVED (the spec derives R161 from R150 and R135). A frame whose start marker comes straight after a raw 0xEE is
lost whole: one `EscErr`, no packet, and the decoder waits at `p = 0` with `esc = 0`. -/
def Obligations.StartAfterEscapeLosesTheFrame : Prop :=
  ∀ (type : Byte) (n : Half) (payload : List Byte) (now : Word) (s : State),
    s.dec.esc = false →
    ∃ t, runAll (rxsEvents (0xEE#8 :: frameBytes type n payload) now) s = .next t ∧
      emittedBy (rxsEvents (0xEE#8 :: frameBytes type n payload) now) s = [] ∧
      raisedBy (rxsEvents (0xEE#8 :: frameBytes type n payload) now) s = [.escErr 0xFE] ∧
      t.dec.p = 0 ∧ t.dec.esc = false ∧ t.pump = s.pump

/-- DERIVED (the spec derives R164 from R153 to R158). Changing one covered byte always changes the checksum. -/
def Obligations.ChecksumSeesOneByte : Prop :=
  ∀ (xs ys : List Byte) (b c : Byte), b ≠ c → checksum (xs ++ b :: ys) ≠ checksum (xs ++ c :: ys)

/-- DERIVED (the spec derives R163, R271 and R165; the invariant is R27, R28, R35 and the meaning of `ck`). From a
state that satisfies the invariant RXBYTE completes on every byte; it raises at most one event; what it leaves in the
decoder does not depend on `now`; and a packet it emits has at most 1024 payload bytes, exactly as many as its length
says, and a checksum that was received and verified. -/
def Obligations.RxCompletesWithAVerifiedPacket : Prop :=
  ∀ (w : Byte) (now : Word) (s : State), BlockInv s →
    ∃ t, exec (.rxbyte w now) s = .next t ∧ t.out.events.length ≤ 1 ∧
      (∀ now' t', exec (.rxbyte w now') s = .next t' → t'.dec = t.dec) ∧
      (∀ P, t.out.pkt = some P →
        P.length.toNat ≤ 1024 ∧ P.payload.length = P.length.toNat ∧
        ∃ b, standsFor s.dec.esc w b ∧ (b ++ s.dec.cklo : Half) = checksumSum (coveredBytes P.type P.length P.payload))

/-! ## The frame encoder (42_frame_encoder.md) -/

/-- R180: TXFRAME appends one frame, contiguous, and writes no register. -/
def Obligations.TxframeAppendsOneFrame : Prop :=
  ∀ (type : Byte) (n : Half) (payload : List Byte) (s : State), n.toNat ≤ 1024 → payload.length = n.toNat →
    let covered := BitVec.ofNat 8 (n.toNat % 256) :: BitVec.ofNat 8 (n.toNat / 256) :: type :: payload
    let c := (0xFE + (covered.map BitVec.toNat).sum) % 65536
    let wire := 0xFE#8 :: (covered ++ [BitVec.ofNat 8 (c % 256), BitVec.ofNat 8 (c / 256)]).flatMap fun b =>
      if b = 0xFE then [0xEE, 0x00] else if b = 0xEE then [0xEE, 0x01] else [b]
    exec (.txframe type n payload) s =
      .next { s with tx := s.tx ++ wire, out := { Output.empty with tx := wire } }

/-- DERIVED (R182 and D23: the spec's decision to refuse). A payload of more than 1024 bytes is refused by TXFRAME and
by PRINT. -/
def Obligations.LongPayloadsRefused : Prop :=
  ∀ (type : Byte) (n : Half) (payload : List Byte) (s : State), 1024 < n.toNat →
    exec (.txframe type n payload) s = .refused (.illFormed .lengthRange) ∧
    exec (.print n payload) s = .refused (.illFormed .lengthRange)

/-- DERIVED (the spec derives R184 and R185 from R180). A frame starts with 0xFE, holds no other 0xFE, holds 0xEE only
before 0x00 or 0x01, and takes between `n + 6` and `2n + 11` wire bytes. -/
def Obligations.FramesAreClean : Prop :=
  ∀ (type : Byte) (n : Half) (payload : List Byte), payload.length = n.toNat →
    ∃ body, frameBytes type n payload = 0xFE#8 :: body ∧ cleanBody body = true ∧
      n.toNat + 6 ≤ body.length + 1 ∧ body.length + 1 ≤ 2 * n.toNat + 11

/-! ## Router and pump control (43_router_pump.md) -/

/-- DERIVED (the drop and the handler of (3, 8) are R195's; other pairs are the next statement's). ROUTE drops a packet
whose pair is not in the table, with `RouteDrop` and no other change, and gives a pump packet of the table to PUMPCMD.
-/
def Obligations.RouteMatchesExactly : Prop :=
  ∀ (P : Packet) (now : Word) (s : State), P.length.toNat ≤ 1024 → P.payload.length = P.length.toNat →
    ((P.type, P.length) ∉ s.cfg.routeTable →
      exec (.route P now) s = .next { s with
        stat := { s.stat with nRouteDrop := s.stat.nRouteDrop + 1 }
        out := { Output.empty with events := [.routeDrop P.type P.length] } }) ∧
    ((P.type, P.length) ∈ s.cfg.routeTable → P.type = 3 → P.length = 8 →
      ∃ t, exec (.pumpcmd P now) s = .next t ∧ exec (.route P now) s = .next t)

/-- DERIVED (the handlers of other pairs are outside the block: the model's choice, entry 16, after D21). A packet of
any other pair in the table changes no register. -/
def Obligations.OtherRoutesLeaveTheBlock : Prop :=
  ∀ (P : Packet) (now : Word) (s : State), P.length.toNat ≤ 1024 → P.payload.length = P.length.toNat →
    (P.type, P.length) ∈ s.cfg.routeTable → ¬ (P.type = 3 ∧ P.length = 8) →
    exec (.route P now) s = .next { s with out := Output.empty }

/-- DERIVED (what a packet-type row does as an operation is the model's reading, entry 7; R100 and R196 are decisions
of the spec). With the device's table {(3, 8)} a received DataPacket or PrintPacket is dropped, and a PumpPacket is
handled as PUMPCMD handles it. -/
def Obligations.PacketTypesOnTheDevice : Prop :=
  ∀ (n : Half) (payload : List Byte) (now : Word) (s : State), s.cfg.routeTable = [(3, 8)] →
    payload.length = n.toNat →
    (n = 92 → exec (.pktData payload now) s = .next { s with
      stat := { s.stat with nRouteDrop := s.stat.nRouteDrop + 1 }
      out := { Output.empty with events := [.routeDrop 1 92] } }) ∧
    (n.toNat ≤ 1024 → exec (.pktPrint n payload now) s = .next { s with
      stat := { s.stat with nRouteDrop := s.stat.nRouteDrop + 1 }
      out := { Output.empty with events := [.routeDrop 2 n] } }) ∧
    (n = 8 → ∃ t, exec (.pumpcmd ⟨3, 8, payload⟩ now) s = .next t ∧ exec (.pktPump payload now) s = .next t)

/-- R200: PUMPCMD on the fields `a` and `b`. Both setpoints are latched and the command stamped exactly when one
changes; an unchanged command writes nothing; a field without a conversion rejects the packet whole. -/
def Obligations.PumpCommandLatchesChanges : Prop :=
  ∀ (a b now : Word) (s : State),
    let r := exec (.pumpcmd ⟨3, 8, leBytes 4 a.toNat ++ leBytes 4 b.toNat⟩ now) s
    (∀ s0 s1, pwmConv s.cfg a = some s0 → pwmConv s.cfg b = some s1 →
      (¬ (s0 = s.pump.sp0 ∧ s1 = s.pump.sp1) → r = .next { s with
        pump := { s.pump with sp0 := s0, sp1 := s1, tCmd := now }, out := Output.empty }) ∧
      (s0 = s.pump.sp0 ∧ s1 = s.pump.sp1 → r = .next { s with out := Output.empty })) ∧
    (pwmConv s.cfg a = none ∨ pwmConv s.cfg b = none → r = .next { s with
      stat := { s.stat with nCmdReject := s.stat.nCmdReject + 1 }
      out := { Output.empty with events := [.cmdReject a b] } })

/-- DERIVED (R202 and D7: the spec's decisions; R17 and G2 from general knowledge). Under the default a finite pattern
converts to `PWM_MIN` plus the floor of the exact product of the span and the value clamped into [0, 1]; +∞ converts to
`PWM_MAX` and −∞ to `PWM_MIN`; a NaN pattern has no conversion. -/
def Obligations.PwmConversionIsExactFloor : Prop :=
  ∀ (c : Config) (x : Word), c.Valid → c.pwmConv = .exactFloor →
    (isFiniteF32 x → ∃ r, pwmConv c x = some r ∧
      (r.toNat : ℤ) = c.pwmMin.toNat +
        ⌊((c.pwmMax.toNat : ℚ) - c.pwmMin.toNat) * max 0 (min 1 (fvalRat x))⌋) ∧
    (x = 0x7F800000 → pwmConv c x = some c.pwmMax) ∧
    (x = 0xFF800000 → pwmConv c x = some c.pwmMin) ∧
    (isNanF32 x → pwmConv c x = none)

/-- DERIVED (R203 and D6, U6: decisions of the spec; entry 13). Whichever conversion the block is built with: NaN and
only NaN has none; every result is in range; 0.0 and −∞ give `PWM_MIN`, 1.0 and +∞ give `PWM_MAX`; finite patterns
convert in the order of their values. -/
def Obligations.PwmConversionIsAdmissible : Prop :=
  ∀ (c : Config) (x y : Word), c.Valid →
    (pwmConv c x = none ↔ isNanF32 x) ∧
    (∀ r, pwmConv c x = some r → inPwmRange c r) ∧
    pwmConv c 0x00000000 = some c.pwmMin ∧ pwmConv c 0x3F800000 = some c.pwmMax ∧
    pwmConv c 0xFF800000 = some c.pwmMin ∧ pwmConv c 0x7F800000 = some c.pwmMax ∧
    (isFiniteF32 x → isFiniteF32 y → fvalRat x ≤ fvalRat y →
      ∀ r q, pwmConv c x = some r → pwmConv c y = some q → r.toNat ≤ q.toNat)

/-- R210 and R266: WDOG. At 4000 ms or more all four pump registers go to neutral at once and `wdg` is set, with
`WdgTrip` only when it was clear; below, only `wdg` is cleared. -/
def Obligations.WatchdogForcesNeutral : Prop :=
  ∀ (now : Word) (s : State),
    (4000 ≤ (now - s.pump.tCmd).toNat →
      exec (.wdog now) s = .next { s with
        pump := { s.pump with
          sp0 := s.cfg.pwmNeutral, sp1 := s.cfg.pwmNeutral, out0 := s.cfg.pwmNeutral, out1 := s.cfg.pwmNeutral
          wdg := true }
        stat := { s.stat with nWdgTrip := if s.pump.wdg then s.stat.nWdgTrip else s.stat.nWdgTrip + 1 }
        out := { Output.empty with events := if s.pump.wdg then [] else [.wdgTrip (now - s.pump.tCmd)] } }) ∧
    ((now - s.pump.tCmd).toNat < 4000 →
      exec (.wdog now) s = .next { s with pump := { s.pump with wdg := false }, out := Output.empty })

/-- DERIVED (one step however late, and the stamp `now`, are the spec's decision D12 on R215). RAMP. When due, each
output moves toward its setpoint by the error or by 5, whichever is smaller in magnitude, and the stamp is `now`; when
not due nothing changes. -/
def Obligations.RampMovesByAtMostFive : Prop :=
  ∀ (now : Word) (s : State),
    (100 ≤ (now - s.pump.tRamp).toNat →
      ∃ o0 o1 : Half,
        (o0.toNat : ℤ) = s.pump.out0.toNat + max (-5) (min 5 ((s.pump.sp0.toNat : ℤ) - s.pump.out0.toNat)) ∧
        (o1.toNat : ℤ) = s.pump.out1.toNat + max (-5) (min 5 ((s.pump.sp1.toNat : ℤ) - s.pump.out1.toNat)) ∧
        exec (.ramp now) s = .next { s with
          pump := { s.pump with tRamp := now, out0 := o0, out1 := o1 }, out := Output.empty }) ∧
    ((now - s.pump.tRamp).toNat < 100 → exec (.ramp now) s = .next { s with out := Output.empty })

/-- DERIVED (the spec derives R216 from R215). After `k` due ramp ticks toward a held setpoint the output is at
distance `max (|S − O| − 5k) 0` from it, on the side it started from. -/
def Obligations.RampConverges : Prop :=
  ∀ (sp o : Half) (k : Nat),
    (o.toNat ≤ sp.toNat → (rampTicks sp k o).toNat = sp.toNat - (sp.toNat - o.toNat - 5 * k)) ∧
    (sp.toNat ≤ o.toNat → (rampTicks sp k o).toNat = sp.toNat + (o.toNat - sp.toNat - 5 * k))

/-- DERIVED (the spec derives R212 from R210, R215 and R253). After a TICK at which 4000 ms have passed since the last
command that changed a setpoint, setpoints and outputs are neutral, whatever they were, mid-ramp or not. -/
def Obligations.TickAfterSilenceIsNeutral : Prop :=
  ∀ (now : Word) (s : State), 4000 ≤ (now - s.pump.tCmd).toNat →
    ∃ t, exec (.tick now) s = .next t ∧ t.pump.wdg = true ∧
      t.pump.sp0 = s.cfg.pwmNeutral ∧ t.pump.sp1 = s.cfg.pwmNeutral ∧
      t.pump.out0 = s.cfg.pwmNeutral ∧ t.pump.out1 = s.cfg.pwmNeutral

/-- DERIVED (the whole-machine rule is R31 and R306 read together; R306 is derived). Only RESET, TICK, WDOG and RAMP
move an output; a command never does. -/
def Obligations.OnlyTimedOperationsMoveOutputs : Prop :=
  ∀ (i : Instr) (s t : State), exec i s = .next t →
    t.pump.out0 ≠ s.pump.out0 ∨ t.pump.out1 ≠ s.pump.out1 →
    (∃ now, i = .reset now) ∨ (∃ now, i = .tick now) ∨ (∃ now, i = .wdog now) ∨ (∃ now, i = .ramp now)

/-! ## Flow, telemetry, samples, print (44_flow_telemetry.md) -/

/-- DERIVED (the wrap of the counter is the spec's decision D17 on R230). PULSE adds one to one counter, modulo 2^32; a
number that names no sensor is refused. -/
def Obligations.PulseCountsOne : Prop :=
  ∀ (i : Byte) (s : State),
    (∀ h : i.toNat < 3, exec (.pulse i) s = .next { s with
      flow := { s.flow with
        cnt := s.flow.cnt.set i.toNat (BitVec.ofNat 32 ((s.flow.cnt[i.toNat]'h).toNat + 1)) h }
      out := Output.empty }) ∧
    (3 ≤ i.toNat → exec (.pulse i) s = .refused (.illFormed .sensorRange))

/-- R232: FLOWAGG. When 1000 ms or more have passed it drains every counter once and computes every rate over the
measured window; else nothing changes. -/
def Obligations.FlowaggDrainsTheWindow : Prop :=
  ∀ (now : Word) (s : State),
    (1000 ≤ (now - s.flow.tFlow).toNat →
      ∃ f : Flow, exec (.flowagg now) s = .next { s with flow := f, out := Output.empty } ∧ f.tFlow = now ∧
        ∀ (i : Nat) (h : i < 3), f.cnt[i] = 0 ∧
          f.rate[i] = flowRate s.cfg s.flow.cnt[i] (now - s.flow.tFlow) s.cfg.kFlow[i]) ∧
    ((now - s.flow.tFlow).toNat < 1000 → exec (.flowagg now) s = .next { s with out := Output.empty })

/-- DERIVED (R234, R235 and D18: decisions of the spec; G3; entry 14; which quotients go to +∞ and to +0.0 is the
model's reading of "nearest, ties to even", entry 15). The rate is a function of the count, the window and the rational
`K`: two ways to write one rational give one rate. With `q = (1000 c) / (T K)`: a zero count gives +0.0; a positive
count with `q` in the range of the normal numbers gives a finite positive pattern within `2^-22 q`, and within
`2^-24 q` under the default. The default speaks for every `q`: below `2^128 − 2^103` it is a finite pattern with its sign clear
such that no finite pattern is nearer to `q`, and its fraction is even where another is as near; from `2^128 − 2^103` on
it is +∞; up to `2^-150` it is +0.0. -/
def Obligations.FlowRateIsWithinTolerance : Prop :=
  ∀ (c : Config) (count T : Word) (K : Ratio), 1000 ≤ T.toNat → 0 < K.num → 0 < K.den →
    let q : ℚ := (1000 * count.toNat * K.den) / (T.toNat * K.num)
    let r := flowRate c count T K
    (∀ K' : Ratio, 0 < K'.num → 0 < K'.den → K'.num * K.den = K.num * K'.den → flowRate c count T K' = r) ∧
    flowRate c 0 T K = 0 ∧
    (0 < count.toNat → (2 : ℚ) ^ (-126 : ℤ) ≤ q → q ≤ (2 ^ 24 - 1) * 2 ^ 104 →
      isFiniteF32 r ∧ 0 < fvalRat r ∧ |fvalRat r - q| ≤ q / 2 ^ 22 ∧
      (c.flowRate = .nearestEven → |fvalRat r - q| ≤ q / 2 ^ 24)) ∧
    (c.flowRate = .nearestEven →
      (q < 2 ^ 128 - 2 ^ 103 →
        isFiniteF32 r ∧ r.msb = false ∧
        ∀ y, isFiniteF32 y → |fvalRat r - q| ≤ |fvalRat y - q| ∧
          (y ≠ r → |fvalRat y - q| = |fvalRat r - q| → r.getLsbD 0 = false)) ∧
      (2 ^ 128 - 2 ^ 103 ≤ q → r = 0x7F800000) ∧
      (q ≤ (2 : ℚ) ^ (-150 : ℤ) → r = 0))

/-- DERIVED (the timestamp field is the spec's decision D19 on R236). TELEM. When due it sends one frame of type 1 and
length 92 whose payload holds every register at its offset; else nothing changes. -/
def Obligations.TelemSendsTheRegisters : Prop :=
  ∀ (now : Word) (s : State),
    (10 ≤ (now - s.tlm.tTlm).toNat →
      ∃ D : List Byte, D.length = 92 ∧ memRead D 0 8 = some now.toNat ∧
        (∀ (k : Nat) (h : k < 6), memRead D (8 + 4 * k) 4 = some s.tlm.loadcell[k].toNat) ∧
        (∀ (a : Nat) (h : a < 3), memRead D (32 + 4 * a) 4 = some s.tlm.accelFixed[a].toNat) ∧
        (∀ (j : Nat) (h : j < 9), memRead D (44 + 4 * j) 4 = some s.tlm.accelTank[j].toNat) ∧
        (∀ (i : Nat) (h : i < 3), memRead D (80 + 4 * i) 4 = some s.flow.rate[i].toNat) ∧
        exec (.telem now) s = .next { s with
          tlm := { s.tlm with tTlm := now }
          tx := s.tx ++ frameBytes 1 92 D
          out := { Output.empty with tx := frameBytes 1 92 D } }) ∧
    ((now - s.tlm.tTlm).toNat < 10 → exec (.telem now) s = .next { s with out := Output.empty })

/-- DERIVED (the operation is the spec's decision D26, R238). SAMPLE writes the one register its number selects, whole;
18 and above are refused. -/
def Obligations.SampleWritesOneRegister : Prop :=
  ∀ (reg : Byte) (v : Word) (s : State),
    (∀ h : reg.toNat < 6, exec (.sample reg v) s = .next { s with
      tlm := { s.tlm with loadcell := s.tlm.loadcell.set reg.toNat v h }, out := Output.empty }) ∧
    (6 ≤ reg.toNat → ∀ h : reg.toNat - 6 < 3, exec (.sample reg v) s = .next { s with
      tlm := { s.tlm with accelFixed := s.tlm.accelFixed.set (reg.toNat - 6) v h }, out := Output.empty }) ∧
    (9 ≤ reg.toNat → ∀ h : reg.toNat - 9 < 9, exec (.sample reg v) s = .next { s with
      tlm := { s.tlm with accelTank := s.tlm.accelTank.set (reg.toNat - 9) v h }, out := Output.empty }) ∧
    (18 ≤ reg.toNat → exec (.sample reg v) s = .refused (.illFormed .sampleRange))

/-- DERIVED (the operation is the spec's decision D25, R239). PRINT sends exactly what TXFRAME sends for type 2. -/
def Obligations.PrintSendsOneFrame : Prop :=
  ∀ (n : Half) (bytes : List Byte) (s : State), n.toNat ≤ 1024 → bytes.length = n.toNat →
    exec (.print n bytes) s = exec (.txframe 2 n bytes) s ∧
    exec (.print n bytes) s = .next { s with
      tx := s.tx ++ frameBytes 2 n bytes, out := { Output.empty with tx := frameBytes 2 n bytes } }

/-! ## Sequencing (45_sequencer.md) -/

/-- DERIVED (R55 and D10, D11: of the values the document fixes `p` and the pump registers, the others are the spec's
decisions; that the TX stream, the configuration and the pending events stay is the model's, entry 19). RESET from any
state. -/
def Obligations.ResetWritesEveryRegister : Prop :=
  ∀ (now : Word) (s : State),
    ∃ t, exec (.reset now) s = .next t ∧
      t.dec.esc = false ∧ t.dec.p = 0 ∧ t.dec.len = 0 ∧ t.dec.typ = 0 ∧ t.dec.ck = 0 ∧ t.dec.cklo = 0 ∧
      t.pump = ⟨s.cfg.pwmNeutral, s.cfg.pwmNeutral, s.cfg.pwmNeutral, s.cfg.pwmNeutral, now, now, false⟩ ∧
      t.flow = ⟨Vector.replicate 3 0, Vector.replicate 3 0, now⟩ ∧
      t.tlm = ⟨now, Vector.replicate 6 0, Vector.replicate 3 0, Vector.replicate 9 0⟩ ∧
      t.stat = ⟨0, 0, 0, 0, 0, 0⟩ ∧
      t.cfg = s.cfg ∧ t.tx = s.tx ∧ t.inbox = s.inbox ∧ t.out = Output.empty

/-- DERIVED (the order of the four parts is the spec's decision D13, R253). TICK is WDOG, then RAMP, then FLOWAGG, then
TELEM; its output is the watchdog's event and the telemetry frame. -/
def Obligations.TickRunsTheFourParts : Prop :=
  ∀ (now : Word) (s : State),
    ∃ s1 s2 s3 s4, exec (.wdog now) s = .next s1 ∧ exec (.ramp now) s1 = .next s2 ∧
      exec (.flowagg now) s2 = .next s3 ∧ exec (.telem now) s3 = .next s4 ∧
      exec (.tick now) s = .next { s4 with out := { s4.out with events := s1.out.events } }

/-- DERIVED (R253 corner case (b)). A second TICK at the same `now` changes no register. -/
def Obligations.TickIsIdempotent : Prop :=
  ∀ (now : Word) (s t : State), exec (.tick now) s = .next t →
    exec (.tick now) t = .next { t with out := Output.empty }

/-- DERIVED (R250's totality is the spec's decision D1; the invariant is what R28, R27 and R35 derive). From a state
that satisfies the invariant every external event whose operands are in range completes. -/
def Obligations.EventsInRangeComplete : Prop :=
  ∀ (i : Instr) (s : State), BlockInv s → i.isEvent = true → WellFormed i → ∃ t, exec i s = .next t

/-! ## The whole machine -/

/-- DERIVED (R28 and R35 are derived by the spec; the state after RESET is R292's). The invariant holds right after
reset, for every legal configuration and every clock value, and in `State.reset`. -/
def Obligations.InvariantHoldsAfterReset : Prop :=
  (∀ (c : Config) (now : Word), c.Valid → BlockInv (State.initial c now)) ∧ BlockInv State.reset

/-- DERIVED (the spec derives R28 and R35; the part on `ck` is R25 with R95; the part on the buffer is R27). Every step
keeps the invariant: the position counter and the length stay legal, the buffer stays canonical and holds every arrived
byte, `ck` stays the checksum of what has arrived, and the PWM registers stay in range. -/
def Obligations.EveryStepKeepsTheInvariant : Prop :=
  ∀ (s t : State), BlockInv s → step s = .next t → BlockInv t

/-- DERIVED (R27 and R102: the spec derives that these reads and this arm never happen). No operation faults in a state
that satisfies the invariant. -/
def Obligations.NoFaultUnderTheInvariant : Prop :=
  ∀ (i : Instr) (s : State) (f : Fault), BlockInv s → exec i s ≠ .fault f

/-- DERIVED (R51 and R52: what is fixed when the block is built, and what belongs to its collaborators). No operation
changes the configuration or the pending events, and the TX stream only grows, by exactly the bytes the operation's
output reports. -/
def Obligations.ConfigurationFixedAndStreamGrows : Prop :=
  ∀ (i : Instr) (s t : State), exec i s = .next t →
    t.cfg = s.cfg ∧ t.inbox = s.inbox ∧ t.tx = s.tx ++ t.out.tx

/-- DERIVED (R50 and R267). No operation reads a counter or an event of an earlier operation: with other counters and
another last output every operation answers the same, the counters apart. -/
def Obligations.CountersAreNeverRead : Prop :=
  ∀ (i : Instr) (s : State) (c : Counters) (o : Output),
    Result.eraseCounters (exec i { s with stat := c, out := o }) = Result.eraseCounters (exec i s)

/-- DERIVED (the spec derives R240). Receiving reads and writes no flow or telemetry register and sends nothing; PRINT
and TELEM read and write no decoder or pump register. -/
def Obligations.ReceiveAndTransmitAreIndependent : Prop :=
  ∀ (w : Byte) (now : Word) (n : Half) (bytes : List Byte) (s t : State) (f : Flow) (m : Telemetry) (d : Decoder)
    (p : Pump),
    (exec (.rxbyte w now) s = .next t →
      t.flow = s.flow ∧ t.tlm = s.tlm ∧ t.out.tx = [] ∧
      exec (.rxbyte w now) { s with flow := f, tlm := m } = .next { t with flow := f, tlm := m }) ∧
    (exec (.telem now) s = .next t →
      exec (.telem now) { s with dec := d, pump := p } = .next { t with dec := d, pump := p }) ∧
    (exec (.print n bytes) s = .next t →
      exec (.print n bytes) { s with dec := d, pump := p } = .next { t with dec := d, pump := p })

/-! ## The event output (60_exceptions.md) -/

/-- DERIVED (the codes are R260's, the spec's decision D15; that the event of code `c` has bit `c − 1` of the event
output is the model's choice, entry 24). The six events have the codes 1 to 6; bit `code − 1` of an output's event bits
is set exactly when an event of that code stands in the output; and `raise` sets the bit of its event and no other. -/
def Obligations.EventBitsFollowTheCodes : Prop :=
  (∀ w, eventCode (.escErr w) = 1) ∧ (∀ n, eventCode (.oversize n) = 2) ∧ (∀ c d, eventCode (.ckErr c d) = 3) ∧
  (∀ t n, eventCode (.routeDrop t n) = 4) ∧ (∀ a b, eventCode (.cmdReject a b) = 5) ∧
  (∀ t, eventCode (.wdgTrip t) = 6) ∧
  (∀ (o : Output) (k : Nat), (eventBits o).getLsbD k = true ↔ ∃ e ∈ o.events, eventCode e = k + 1) ∧
  (∀ (e : Event) (s : State) (k : Nat),
    (eventBits (raise e s).out).getLsbD k = ((eventBits s.out).getLsbD k || decide (eventCode e = k + 1)))
end

