-- ==== Sys2Proof/Laws/State.lean ====
section
/-! SUPPORT. One lemma per field per update of the state, so that no proof unfolds a record update. -/

namespace Sys2Proof.Machine

open Sys2Proof

/-! ## State.withDec -/

@[simp] theorem State.withDec_dec (s : State) (d : Decoder) : (s.withDec d).dec = d := rfl
@[simp] theorem State.withDec_pump (s : State) (d : Decoder) : (s.withDec d).pump = s.pump := rfl
@[simp] theorem State.withDec_flow (s : State) (d : Decoder) : (s.withDec d).flow = s.flow := rfl
@[simp] theorem State.withDec_tlm (s : State) (d : Decoder) : (s.withDec d).tlm = s.tlm := rfl
@[simp] theorem State.withDec_stat (s : State) (d : Decoder) : (s.withDec d).stat = s.stat := rfl
@[simp] theorem State.withDec_cfg (s : State) (d : Decoder) : (s.withDec d).cfg = s.cfg := rfl
@[simp] theorem State.withDec_inbox (s : State) (d : Decoder) : (s.withDec d).inbox = s.inbox := rfl
@[simp] theorem State.withDec_tx (s : State) (d : Decoder) : (s.withDec d).tx = s.tx := rfl
@[simp] theorem State.withDec_out (s : State) (d : Decoder) : (s.withDec d).out = s.out := rfl

/-! ## State.withPump -/

@[simp] theorem State.withPump_dec (s : State) (p : Pump) : (s.withPump p).dec = s.dec := rfl
@[simp] theorem State.withPump_pump (s : State) (p : Pump) : (s.withPump p).pump = p := rfl
@[simp] theorem State.withPump_flow (s : State) (p : Pump) : (s.withPump p).flow = s.flow := rfl
@[simp] theorem State.withPump_tlm (s : State) (p : Pump) : (s.withPump p).tlm = s.tlm := rfl
@[simp] theorem State.withPump_stat (s : State) (p : Pump) : (s.withPump p).stat = s.stat := rfl
@[simp] theorem State.withPump_cfg (s : State) (p : Pump) : (s.withPump p).cfg = s.cfg := rfl
@[simp] theorem State.withPump_inbox (s : State) (p : Pump) : (s.withPump p).inbox = s.inbox := rfl
@[simp] theorem State.withPump_tx (s : State) (p : Pump) : (s.withPump p).tx = s.tx := rfl
@[simp] theorem State.withPump_out (s : State) (p : Pump) : (s.withPump p).out = s.out := rfl

/-! ## State.withFlow -/

@[simp] theorem State.withFlow_dec (s : State) (f : Flow) : (s.withFlow f).dec = s.dec := rfl
@[simp] theorem State.withFlow_pump (s : State) (f : Flow) : (s.withFlow f).pump = s.pump := rfl
@[simp] theorem State.withFlow_flow (s : State) (f : Flow) : (s.withFlow f).flow = f := rfl
@[simp] theorem State.withFlow_tlm (s : State) (f : Flow) : (s.withFlow f).tlm = s.tlm := rfl
@[simp] theorem State.withFlow_stat (s : State) (f : Flow) : (s.withFlow f).stat = s.stat := rfl
@[simp] theorem State.withFlow_cfg (s : State) (f : Flow) : (s.withFlow f).cfg = s.cfg := rfl
@[simp] theorem State.withFlow_inbox (s : State) (f : Flow) : (s.withFlow f).inbox = s.inbox := rfl
@[simp] theorem State.withFlow_tx (s : State) (f : Flow) : (s.withFlow f).tx = s.tx := rfl
@[simp] theorem State.withFlow_out (s : State) (f : Flow) : (s.withFlow f).out = s.out := rfl

/-! ## State.withTlm -/

@[simp] theorem State.withTlm_dec (s : State) (m : Telemetry) : (s.withTlm m).dec = s.dec := rfl
@[simp] theorem State.withTlm_pump (s : State) (m : Telemetry) : (s.withTlm m).pump = s.pump := rfl
@[simp] theorem State.withTlm_flow (s : State) (m : Telemetry) : (s.withTlm m).flow = s.flow := rfl
@[simp] theorem State.withTlm_tlm (s : State) (m : Telemetry) : (s.withTlm m).tlm = m := rfl
@[simp] theorem State.withTlm_stat (s : State) (m : Telemetry) : (s.withTlm m).stat = s.stat := rfl
@[simp] theorem State.withTlm_cfg (s : State) (m : Telemetry) : (s.withTlm m).cfg = s.cfg := rfl
@[simp] theorem State.withTlm_inbox (s : State) (m : Telemetry) : (s.withTlm m).inbox = s.inbox := rfl
@[simp] theorem State.withTlm_tx (s : State) (m : Telemetry) : (s.withTlm m).tx = s.tx := rfl
@[simp] theorem State.withTlm_out (s : State) (m : Telemetry) : (s.withTlm m).out = s.out := rfl

/-! ## State.withInbox -/

@[simp] theorem State.withInbox_dec (s : State) (bs : List Byte) : (s.withInbox bs).dec = s.dec := rfl
@[simp] theorem State.withInbox_pump (s : State) (bs : List Byte) : (s.withInbox bs).pump = s.pump := rfl
@[simp] theorem State.withInbox_flow (s : State) (bs : List Byte) : (s.withInbox bs).flow = s.flow := rfl
@[simp] theorem State.withInbox_tlm (s : State) (bs : List Byte) : (s.withInbox bs).tlm = s.tlm := rfl
@[simp] theorem State.withInbox_stat (s : State) (bs : List Byte) : (s.withInbox bs).stat = s.stat := rfl
@[simp] theorem State.withInbox_cfg (s : State) (bs : List Byte) : (s.withInbox bs).cfg = s.cfg := rfl
@[simp] theorem State.withInbox_inbox (s : State) (bs : List Byte) : (s.withInbox bs).inbox = bs := rfl
@[simp] theorem State.withInbox_tx (s : State) (bs : List Byte) : (s.withInbox bs).tx = s.tx := rfl
@[simp] theorem State.withInbox_out (s : State) (bs : List Byte) : (s.withInbox bs).out = s.out := rfl

/-! ## State.begin -/

@[simp] theorem State.begin_dec (s : State) : s.begin.dec = s.dec := rfl
@[simp] theorem State.begin_pump (s : State) : s.begin.pump = s.pump := rfl
@[simp] theorem State.begin_flow (s : State) : s.begin.flow = s.flow := rfl
@[simp] theorem State.begin_tlm (s : State) : s.begin.tlm = s.tlm := rfl
@[simp] theorem State.begin_stat (s : State) : s.begin.stat = s.stat := rfl
@[simp] theorem State.begin_cfg (s : State) : s.begin.cfg = s.cfg := rfl
@[simp] theorem State.begin_inbox (s : State) : s.begin.inbox = s.inbox := rfl
@[simp] theorem State.begin_tx (s : State) : s.begin.tx = s.tx := rfl
@[simp] theorem State.begin_out (s : State) : s.begin.out = Output.empty := rfl

/-! ## emitTx -/

@[simp] theorem emitTx_dec (bs : List Byte) (s : State) : (emitTx bs s).dec = s.dec := rfl
@[simp] theorem emitTx_pump (bs : List Byte) (s : State) : (emitTx bs s).pump = s.pump := rfl
@[simp] theorem emitTx_flow (bs : List Byte) (s : State) : (emitTx bs s).flow = s.flow := rfl
@[simp] theorem emitTx_tlm (bs : List Byte) (s : State) : (emitTx bs s).tlm = s.tlm := rfl
@[simp] theorem emitTx_stat (bs : List Byte) (s : State) : (emitTx bs s).stat = s.stat := rfl
@[simp] theorem emitTx_cfg (bs : List Byte) (s : State) : (emitTx bs s).cfg = s.cfg := rfl
@[simp] theorem emitTx_inbox (bs : List Byte) (s : State) : (emitTx bs s).inbox = s.inbox := rfl
@[simp] theorem emitTx_tx (bs : List Byte) (s : State) : (emitTx bs s).tx = s.tx ++ bs := rfl
@[simp] theorem emitTx_out (bs : List Byte) (s : State) : (emitTx bs s).out = { s.out with tx := s.out.tx ++ bs } := rfl

/-! ## emitPkt -/

@[simp] theorem emitPkt_dec (P : Packet) (s : State) : (emitPkt P s).dec = s.dec := rfl
@[simp] theorem emitPkt_pump (P : Packet) (s : State) : (emitPkt P s).pump = s.pump := rfl
@[simp] theorem emitPkt_flow (P : Packet) (s : State) : (emitPkt P s).flow = s.flow := rfl
@[simp] theorem emitPkt_tlm (P : Packet) (s : State) : (emitPkt P s).tlm = s.tlm := rfl
@[simp] theorem emitPkt_stat (P : Packet) (s : State) : (emitPkt P s).stat = s.stat := rfl
@[simp] theorem emitPkt_cfg (P : Packet) (s : State) : (emitPkt P s).cfg = s.cfg := rfl
@[simp] theorem emitPkt_inbox (P : Packet) (s : State) : (emitPkt P s).inbox = s.inbox := rfl
@[simp] theorem emitPkt_tx (P : Packet) (s : State) : (emitPkt P s).tx = s.tx := rfl
@[simp] theorem emitPkt_out (P : Packet) (s : State) : (emitPkt P s).out = { s.out with pkt := some P } := rfl

/-! ## raise -/

@[simp] theorem raise_dec (e : Event) (s : State) : (raise e s).dec = s.dec := rfl
@[simp] theorem raise_pump (e : Event) (s : State) : (raise e s).pump = s.pump := rfl
@[simp] theorem raise_flow (e : Event) (s : State) : (raise e s).flow = s.flow := rfl
@[simp] theorem raise_tlm (e : Event) (s : State) : (raise e s).tlm = s.tlm := rfl
@[simp] theorem raise_stat (e : Event) (s : State) : (raise e s).stat = countEvent e s.stat := rfl
@[simp] theorem raise_cfg (e : Event) (s : State) : (raise e s).cfg = s.cfg := rfl
@[simp] theorem raise_inbox (e : Event) (s : State) : (raise e s).inbox = s.inbox := rfl
@[simp] theorem raise_tx (e : Event) (s : State) : (raise e s).tx = s.tx := rfl
@[simp] theorem raise_out (e : Event) (s : State) : (raise e s).out = { s.out with events := s.out.events ++ [e] } := rfl

/-! ## answerLogical -/

@[simp] theorem answerLogical_dec (lb : Option Byte) (s : State) : (answerLogical lb s).dec = s.dec := rfl
@[simp] theorem answerLogical_pump (lb : Option Byte) (s : State) : (answerLogical lb s).pump = s.pump := rfl
@[simp] theorem answerLogical_flow (lb : Option Byte) (s : State) : (answerLogical lb s).flow = s.flow := rfl
@[simp] theorem answerLogical_tlm (lb : Option Byte) (s : State) : (answerLogical lb s).tlm = s.tlm := rfl
@[simp] theorem answerLogical_stat (lb : Option Byte) (s : State) : (answerLogical lb s).stat = s.stat := rfl
@[simp] theorem answerLogical_cfg (lb : Option Byte) (s : State) : (answerLogical lb s).cfg = s.cfg := rfl
@[simp] theorem answerLogical_inbox (lb : Option Byte) (s : State) : (answerLogical lb s).inbox = s.inbox := rfl
@[simp] theorem answerLogical_tx (lb : Option Byte) (s : State) : (answerLogical lb s).tx = s.tx := rfl
@[simp] theorem answerLogical_out (lb : Option Byte) (s : State) : (answerLogical lb s).out = { s.out with logical := lb } := rfl

/-! ## answerUnesc -/

@[simp] theorem answerUnesc_dec (lb : Option Byte) (err : Bool) (s : State) : (answerUnesc lb err s).dec = s.dec := rfl
@[simp] theorem answerUnesc_pump (lb : Option Byte) (err : Bool) (s : State) : (answerUnesc lb err s).pump = s.pump := rfl
@[simp] theorem answerUnesc_flow (lb : Option Byte) (err : Bool) (s : State) : (answerUnesc lb err s).flow = s.flow := rfl
@[simp] theorem answerUnesc_tlm (lb : Option Byte) (err : Bool) (s : State) : (answerUnesc lb err s).tlm = s.tlm := rfl
@[simp] theorem answerUnesc_stat (lb : Option Byte) (err : Bool) (s : State) : (answerUnesc lb err s).stat = s.stat := rfl
@[simp] theorem answerUnesc_cfg (lb : Option Byte) (err : Bool) (s : State) : (answerUnesc lb err s).cfg = s.cfg := rfl
@[simp] theorem answerUnesc_inbox (lb : Option Byte) (err : Bool) (s : State) : (answerUnesc lb err s).inbox = s.inbox := rfl
@[simp] theorem answerUnesc_tx (lb : Option Byte) (err : Bool) (s : State) : (answerUnesc lb err s).tx = s.tx := rfl
@[simp] theorem answerUnesc_out (lb : Option Byte) (err : Bool) (s : State) : (answerUnesc lb err s).out = { s.out with logical := lb, unescErr := err } := rfl

/-! ## answerCoded -/

@[simp] theorem answerCoded_dec (bs : List Byte) (s : State) : (answerCoded bs s).dec = s.dec := rfl
@[simp] theorem answerCoded_pump (bs : List Byte) (s : State) : (answerCoded bs s).pump = s.pump := rfl
@[simp] theorem answerCoded_flow (bs : List Byte) (s : State) : (answerCoded bs s).flow = s.flow := rfl
@[simp] theorem answerCoded_tlm (bs : List Byte) (s : State) : (answerCoded bs s).tlm = s.tlm := rfl
@[simp] theorem answerCoded_stat (bs : List Byte) (s : State) : (answerCoded bs s).stat = s.stat := rfl
@[simp] theorem answerCoded_cfg (bs : List Byte) (s : State) : (answerCoded bs s).cfg = s.cfg := rfl
@[simp] theorem answerCoded_inbox (bs : List Byte) (s : State) : (answerCoded bs s).inbox = s.inbox := rfl
@[simp] theorem answerCoded_tx (bs : List Byte) (s : State) : (answerCoded bs s).tx = s.tx := rfl
@[simp] theorem answerCoded_out (bs : List Byte) (s : State) : (answerCoded bs s).out = { s.out with coded := bs } := rfl

/-! ## setEsc -/

@[simp] theorem setEsc_dec (e : Bool) (s : State) : (setEsc e s).dec = { s.dec with esc := e } := rfl
@[simp] theorem setEsc_pump (e : Bool) (s : State) : (setEsc e s).pump = s.pump := rfl
@[simp] theorem setEsc_flow (e : Bool) (s : State) : (setEsc e s).flow = s.flow := rfl
@[simp] theorem setEsc_tlm (e : Bool) (s : State) : (setEsc e s).tlm = s.tlm := rfl
@[simp] theorem setEsc_stat (e : Bool) (s : State) : (setEsc e s).stat = s.stat := rfl
@[simp] theorem setEsc_cfg (e : Bool) (s : State) : (setEsc e s).cfg = s.cfg := rfl
@[simp] theorem setEsc_inbox (e : Bool) (s : State) : (setEsc e s).inbox = s.inbox := rfl
@[simp] theorem setEsc_tx (e : Bool) (s : State) : (setEsc e s).tx = s.tx := rfl
@[simp] theorem setEsc_out (e : Bool) (s : State) : (setEsc e s).out = s.out := rfl

/-! ## setPos -/

@[simp] theorem setPos_dec (p : Pos) (s : State) : (setPos p s).dec = { s.dec with p := p } := rfl
@[simp] theorem setPos_pump (p : Pos) (s : State) : (setPos p s).pump = s.pump := rfl
@[simp] theorem setPos_flow (p : Pos) (s : State) : (setPos p s).flow = s.flow := rfl
@[simp] theorem setPos_tlm (p : Pos) (s : State) : (setPos p s).tlm = s.tlm := rfl
@[simp] theorem setPos_stat (p : Pos) (s : State) : (setPos p s).stat = s.stat := rfl
@[simp] theorem setPos_cfg (p : Pos) (s : State) : (setPos p s).cfg = s.cfg := rfl
@[simp] theorem setPos_inbox (p : Pos) (s : State) : (setPos p s).inbox = s.inbox := rfl
@[simp] theorem setPos_tx (p : Pos) (s : State) : (setPos p s).tx = s.tx := rfl
@[simp] theorem setPos_out (p : Pos) (s : State) : (setPos p s).out = s.out := rfl

/-! ## txFrame -/

@[simp] theorem txFrame_dec (type : Byte) (n : Half) (payload : List Byte) (s : State) : (txFrame type n payload s).dec = s.dec := rfl
@[simp] theorem txFrame_pump (type : Byte) (n : Half) (payload : List Byte) (s : State) : (txFrame type n payload s).pump = s.pump := rfl
@[simp] theorem txFrame_flow (type : Byte) (n : Half) (payload : List Byte) (s : State) : (txFrame type n payload s).flow = s.flow := rfl
@[simp] theorem txFrame_tlm (type : Byte) (n : Half) (payload : List Byte) (s : State) : (txFrame type n payload s).tlm = s.tlm := rfl
@[simp] theorem txFrame_stat (type : Byte) (n : Half) (payload : List Byte) (s : State) : (txFrame type n payload s).stat = s.stat := rfl
@[simp] theorem txFrame_cfg (type : Byte) (n : Half) (payload : List Byte) (s : State) : (txFrame type n payload s).cfg = s.cfg := rfl
@[simp] theorem txFrame_inbox (type : Byte) (n : Half) (payload : List Byte) (s : State) : (txFrame type n payload s).inbox = s.inbox := rfl
@[simp] theorem txFrame_tx (type : Byte) (n : Half) (payload : List Byte) (s : State) : (txFrame type n payload s).tx = s.tx ++ frameBytes type n payload := rfl
@[simp] theorem txFrame_out (type : Byte) (n : Half) (payload : List Byte) (s : State) : (txFrame type n payload s).out = { s.out with tx := s.out.tx ++ frameBytes type n payload } := rfl

end Sys2Proof.Machine
end

