-- ==== Sys2Proof/Laws/Bytes.lean ====
section
/-! SUPPORT. Little-endian bytes and the readers of a record. -/

namespace Sys2Proof

@[simp] theorem leBytes_length (n v : Nat) : (leBytes n v).length = n := by
  induction n generalizing v with
  | zero => rfl
  | succ n ih => simp [leBytes, ih]

/-- Writing `n` bytes of a value below `256^n` and reading them back gives the value. -/
theorem leNat_leBytes (n v : Nat) (h : v < 256 ^ n) : leNat (leBytes n v) = v := by
  induction n generalizing v with
  | zero =>
    have : v = 0 := by simpa using h
    simp [leBytes, leNat, this]
  | succ n ih =>
    rw [pow_succ] at h
    have hv : v / 256 < 256 ^ n := by omega
    simp only [leBytes, leNat, ih _ hv, BitVec.toNat_ofNat]
    omega

theorem leNat_leBytes_word (v : Word) : leNat (leBytes 4 v.toNat) = v.toNat :=
  leNat_leBytes 4 _ (by have := v.isLt; omega)

theorem leNat_leBytes_half (v : Half) : leNat (leBytes 2 v.toNat) = v.toNat :=
  leNat_leBytes 2 _ (by have := v.isLt; omega)

theorem takeBytes_append {n : Nat} {xs : List Byte} (r : List Byte) (h : xs.length = n) :
    takeBytes n (xs ++ r) = some (xs, r) := by
  induction xs generalizing n with
  | nil => subst h; simp [takeBytes]
  | cons x xs ih => subst h; simp [takeBytes, ih]

/-- What `takeBytes` answers is a split of its input at `n`. -/
theorem takeBytes_some {n : Nat} {bs xs r : List Byte} (h : takeBytes n bs = some (xs, r)) :
    bs = xs ++ r ∧ xs.length = n := by
  induction n generalizing bs xs r with
  | zero => cases bs <;> simp_all [takeBytes]
  | succ n ih =>
    cases bs with
    | nil => simp [takeBytes] at h
    | cons b bs =>
      simp only [takeBytes] at h
      split at h
      · simp at h
      · next ys r' heq =>
        obtain ⟨rfl, hl⟩ := ih heq
        simp only [Option.some.injEq, Prod.mk.injEq] at h
        obtain ⟨rfl, rfl⟩ := h
        simp [hl]

theorem withBytes_append {n : Nat} {xs : List Byte} (r : List Byte) (k : List Byte → List Byte → Decoded)
    (h : xs.length = n) : withBytes n (xs ++ r) k = k xs r := by
  simp [withBytes, takeBytes_append r h]

@[simp] theorem withByte_cons (b : Byte) (r : List Byte) (k : Byte → List Byte → Decoded) :
    withByte (b :: r) k = k b r := rfl

@[simp] theorem withHalf_leBytes (v : Half) (r : List Byte) (k : Half → List Byte → Decoded) :
    withHalf (leBytes 2 v.toNat ++ r) k = k v r := by
  simp [withHalf, withBytes_append r _ (leBytes_length 2 _), leNat_leBytes_half]

@[simp] theorem withWord_leBytes (v : Word) (r : List Byte) (k : Word → List Byte → Decoded) :
    withWord (leBytes 4 v.toNat ++ r) k = k v r := by
  simp [withWord, withBytes_append r _ (leBytes_length 4 _), leNat_leBytes_word]

/-- The continuation of a reader that answers, answered. -/
theorem withBytes_ok {n : Nat} {bs : List Byte} {k : List Byte → List Byte → Decoded} {x : Instr × List Byte}
    (h : withBytes n bs k = .ok x) : ∃ xs r, bs = xs ++ r ∧ xs.length = n ∧ k xs r = .ok x := by
  unfold withBytes at h
  split at h
  · simp at h
  · next xs r heq => exact ⟨xs, r, (takeBytes_some heq).1, (takeBytes_some heq).2, h⟩

theorem withByte_ok {bs : List Byte} {k : Byte → List Byte → Decoded} {x : Instr × List Byte}
    (h : withByte bs k = .ok x) : ∃ b r, bs = b :: r ∧ k b r = .ok x := by
  cases bs with
  | nil => simp [withByte] at h
  | cons b r => exact ⟨b, r, rfl, h⟩

theorem withHalf_ok {bs : List Byte} {k : Half → List Byte → Decoded} {x : Instr × List Byte}
    (h : withHalf bs k = .ok x) : ∃ v r, r.length + 2 = bs.length ∧ k v r = .ok x := by
  obtain ⟨xs, r, rfl, hl, hk⟩ := withBytes_ok h
  exact ⟨_, r, by simp [hl]; omega, hk⟩

theorem withWord_ok {bs : List Byte} {k : Word → List Byte → Decoded} {x : Instr × List Byte}
    (h : withWord bs k = .ok x) : ∃ v r, r.length + 4 = bs.length ∧ k v r = .ok x := by
  obtain ⟨xs, r, rfl, hl, hk⟩ := withBytes_ok h
  exact ⟨_, r, by simp [hl]; omega, hk⟩

/-- A payload without a violation has its declared length, at most 1024. -/
theorem payloadViolation_none {n : Half} {payload : List Byte} :
    payloadViolation n payload = none ↔ n.toNat ≤ 1024 ∧ payload.length = n.toNat := by
  unfold payloadViolation
  split
  · simp_all
  · split <;> simp_all

end Sys2Proof
end

