-- ==== Sys2Proof/Laws/Memory.lean ====
section
/-! SUPPORT. The payload buffer: read after write, the canonical form, copies, and the fields of a byte sequence. -/

namespace Sys2Proof.Machine

open Sys2Proof

/-- Read after write: the written byte there, every other byte as before. -/
theorem payloadRead_payloadWrite (m : Memory) (a k : Nat) (b : Byte) :
    payloadRead (payloadWrite m a b) k = if k = a then some b else payloadRead m k := by
  induction m with
  | nil => by_cases h : a = k <;> simp [payloadWrite, payloadRead, h, Memory.unlisted, eq_comm]
  | cons x rest ih =>
    obtain ⟨j, c⟩ := x
    simp only [payloadWrite]
    split
    · by_cases h : a = k <;> simp [payloadRead, h, eq_comm]
    · split
      · next h1 h2 => subst h2; by_cases h : a = k <;> simp [payloadRead, h, eq_comm]
      · next h1 h2 =>
        simp only [payloadRead, ih]
        by_cases h : j = k
        · simp [h]; omega
        · simp [h]

theorem risingFrom_weaken {lo lo' : Nat} {m : Memory} (h : Memory.risingFrom lo m = true) (hle : lo' ≤ lo) :
    Memory.risingFrom lo' m = true := by
  cases m with
  | nil => rfl
  | cons x rest =>
    simp only [Memory.risingFrom, Bool.and_eq_true, decide_eq_true_eq] at h ⊢
    exact ⟨⟨by omega, h.1.2⟩, h.2⟩

/-- A write from `lo` on keeps the entries rising from `lo`. -/
theorem risingFrom_payloadWrite {lo a : Nat} {m : Memory} (b : Byte) (h : Memory.risingFrom lo m = true)
    (hlo : lo ≤ a) (ha : a < maxLen) : Memory.risingFrom lo (payloadWrite m a b) = true := by
  induction m generalizing lo with
  | nil => simp_all [payloadWrite, Memory.risingFrom]
  | cons x rest ih =>
    obtain ⟨j, c⟩ := x
    simp only [Memory.risingFrom, Bool.and_eq_true, decide_eq_true_eq] at h
    obtain ⟨⟨h1, h2⟩, h3⟩ := h
    simp only [payloadWrite]
    split
    · next hj => simp only [Memory.risingFrom, Bool.and_eq_true, decide_eq_true_eq]; exact ⟨⟨hlo, ha⟩, ⟨hj, h2⟩, h3⟩
    · split
      · next hj => subst hj; simp only [Memory.risingFrom, Bool.and_eq_true, decide_eq_true_eq]; exact ⟨⟨h1, h2⟩, h3⟩
      · next hj hj' =>
        simp only [Memory.risingFrom, Bool.and_eq_true, decide_eq_true_eq]
        exact ⟨⟨h1, h2⟩, ih h3 (by omega)⟩

/-- Every write inside the buffer keeps the canonical form. -/
theorem payloadWrite_wf {m : Memory} {a : Nat} (b : Byte) (h : Memory.wf m = true) (ha : a < maxLen) :
    Memory.wf (payloadWrite m a b) = true :=
  risingFrom_payloadWrite b h (Nat.zero_le a) ha

/-- The memory right after reset is in canonical form. -/
theorem reset_memory_wf : Memory.wf State.reset.dec.payload = true := rfl

/-- A copy of written bytes inside the buffer is those bytes. -/
theorem payloadCopy_ok {m : Memory} {a : Nat} {bytes : List Byte} (hl : a + bytes.length ≤ maxLen)
    (h : ∀ (k : Nat) (hk : k < bytes.length), payloadRead m (a + k) = some bytes[k]) :
    payloadCopy m a bytes.length = .ok bytes := by
  induction bytes generalizing a with
  | nil => rfl
  | cons b bs ih =>
    have h0 : payloadRead m a = some b := h 0 (by simp)
    have ha : ¬ maxLen ≤ a := by simp at hl ⊢; omega
    have hs : payloadCopy m (a + 1) bs.length = .ok bs := by
      apply ih (by simp at hl ⊢; omega)
      intro k hk
      have := h (k + 1) (by simpa using hk)
      rwa [show a + 1 + k = a + (k + 1) by omega]
    simp only [List.length_cons, payloadCopy, ha, h0, hs, if_false]

/-- What a copy that answers says about the buffer. -/
theorem payloadCopy_spec {m : Memory} {a n : Nat} {bytes : List Byte} (h : payloadCopy m a n = .ok bytes) :
    bytes.length = n ∧ ∀ (k : Nat) (hk : k < bytes.length), payloadRead m (a + k) = some bytes[k] := by
  induction n generalizing a bytes with
  | zero => simp only [payloadCopy, Except.ok.injEq] at h; subst h; simp
  | succ n ih =>
    simp only [payloadCopy] at h
    split at h
    · simp at h
    · split at h
      · simp at h
      · next b hb =>
        split at h
        · simp at h
        · next bs hbs =>
          simp only [Except.ok.injEq] at h
          subst h
          obtain ⟨hl, hr⟩ := ih hbs
          refine ⟨by simp [hl], ?_⟩
          intro k hk
          cases k with
          | zero => exact hb
          | succ k =>
            have := hr k (by simpa using hk)
            rwa [show a + 1 + k = a + (k + 1) by omega] at this

/-- A copy inside the buffer of bytes that are all written answers. -/
theorem payloadCopy_isOk {m : Memory} {a n : Nat} (hl : a + n ≤ maxLen)
    (h : ∀ k, a ≤ k → k < a + n → (payloadRead m k).isSome = true) : ∃ bytes, payloadCopy m a n = .ok bytes := by
  induction n generalizing a with
  | zero => exact ⟨[], rfl⟩
  | succ n ih =>
    obtain ⟨b, hb⟩ := Option.isSome_iff_exists.mp (h a (Nat.le_refl a) (by omega))
    obtain ⟨bs, hbs⟩ := ih (a := a + 1) (by omega) (fun k h1 h2 => h k (by omega) (by omega))
    have ha : ¬ maxLen ≤ a := by omega
    exact ⟨b :: bs, by simp only [payloadCopy, ha, hb, hbs, if_false]⟩

/-- Reading a field of a whole payload: the bytes before it, the field's bytes, the bytes after it. -/
theorem memRead_append (xs ys zs : List Byte) : memRead (xs ++ ys ++ zs) xs.length ys.length = some (leNat ys) := by
  simp [memRead]

/-- The two 32-bit fields of a pump payload written little-endian. -/
theorem field32_pump (a b : Word) :
    field32 (leBytes 4 a.toNat ++ leBytes 4 b.toNat) 0 = some a ∧
    field32 (leBytes 4 a.toNat ++ leBytes 4 b.toNat) 4 = some b := by
  constructor
  · have := memRead_append [] (leBytes 4 a.toNat) (leBytes 4 b.toNat)
    simp only [List.nil_append, List.length_nil, leBytes_length, leNat_leBytes_word] at this
    simp [field32, this]
  · have := memRead_append (leBytes 4 a.toNat) (leBytes 4 b.toNat) []
    simp only [List.append_nil, leBytes_length, leNat_leBytes_word] at this
    simp [field32, this]

/-- An 8-byte payload has both fields. -/
theorem field32_isSome {payload : List Byte} {o : Nat} (h : o + 4 ≤ payload.length) : ∃ a, field32 payload o = some a := by
  simp [field32, memRead, h]

end Sys2Proof.Machine
end

