-- ==== Sys2Proof/Laws/Coder.lean ====
section
/-! SUPPORT. The escape coder: what ESCAPE, UNESC and steps 1 to 3 of R150 do, case by case. -/

namespace Sys2Proof.Machine

open Sys2Proof

/-! ## ESCAPE -/

@[simp] theorem escapeByte_start : escapeByte 0xFE#8 = [0xEE#8, 0x00#8] := rfl
@[simp] theorem escapeByte_esc : escapeByte 0xEE#8 = [0xEE#8, 0x01#8] := rfl
theorem escapeByte_lit {b : Byte} (h1 : b ≠ 0xFE#8) (h2 : b ≠ 0xEE#8) : escapeByte b = [b] := by
  simp [escapeByte, h1, h2]

/-- The three forms of an escaped byte. -/
theorem escapeByte_cases (b : Byte) :
    (b = 0xFE#8 ∧ escapeByte b = [0xEE#8, 0x00#8]) ∨ (b = 0xEE#8 ∧ escapeByte b = [0xEE#8, 0x01#8]) ∨
    (b ≠ 0xFE#8 ∧ b ≠ 0xEE#8 ∧ escapeByte b = [b]) := by
  by_cases h1 : b = 0xFE#8
  · subst h1; exact .inl ⟨rfl, rfl⟩
  · by_cases h2 : b = 0xEE#8
    · subst h2; exact .inr (.inl ⟨rfl, rfl⟩)
    · exact .inr (.inr ⟨h1, h2, escapeByte_lit h1 h2⟩)

/-! ## UNESC -/

theorem unescByte_arm : unescByte false 0xEE#8 = ⟨true, none, false⟩ := rfl
theorem unescByte_lit {w : Byte} (h : w ≠ 0xEE#8) : unescByte false w = ⟨false, some w, false⟩ := by
  simp [unescByte, h]
theorem unescByte_pair0 : unescByte true 0x00#8 = ⟨false, some 0xFE#8, false⟩ := rfl
theorem unescByte_pair1 : unescByte true 0x01#8 = ⟨false, some 0xEE#8, false⟩ := rfl
theorem unescByte_bad {w : Byte} (h0 : w ≠ 0x00#8) (h1 : w ≠ 0x01#8) : unescByte true w = ⟨false, none, true⟩ := by
  simp [unescByte, h0, h1]

/-- UNESC produces `b` from `w` exactly when `w` stands for `b`. -/
theorem unescByte_standsFor {esc : Bool} {w b : Byte} :
    standsFor esc w b ↔ unescByte esc w = ⟨false, some b, false⟩ := by
  cases esc
  · by_cases h : w = 0xEE#8
    · subst h; simp [standsFor, unescByte]
    · simp [standsFor, unescByte_lit h, h, eq_comm (a := w)]
  · by_cases h0 : w = 0x00#8
    · subst h0; simp [standsFor, unescByte_pair0, eq_comm (a := b)]
    · by_cases h1 : w = 0x01#8
      · subst h1; simp [standsFor, unescByte_pair1, eq_comm (a := b)]
      · simp [standsFor, unescByte_bad h0 h1, h0, h1]

/-- UNESC answers a logical byte, arms the escape, or reports an error. -/
theorem unescByte_cases (esc : Bool) (w : Byte) :
    (∃ b, standsFor esc w b ∧ unescByte esc w = ⟨false, some b, false⟩) ∨
    (esc = false ∧ w = 0xEE#8 ∧ unescByte esc w = ⟨true, none, false⟩) ∨
    (esc = true ∧ w ≠ 0x00#8 ∧ w ≠ 0x01#8 ∧ unescByte esc w = ⟨false, none, true⟩) := by
  cases esc
  · by_cases h : w = 0xEE#8
    · subst h; exact .inr (.inl ⟨rfl, rfl, rfl⟩)
    · exact .inl ⟨w, unescByte_standsFor.mpr (unescByte_lit h), unescByte_lit h⟩
  · by_cases h0 : w = 0x00#8
    · subst h0; exact .inl ⟨0xFE#8, unescByte_standsFor.mpr rfl, rfl⟩
    · by_cases h1 : w = 0x01#8
      · subst h1; exact .inl ⟨0xEE#8, unescByte_standsFor.mpr rfl, rfl⟩
      · exact .inr (.inr ⟨rfl, h0, h1, unescByte_bad h0 h1⟩)

/-- A logical byte stands with its raw wire byte as DEC.WAIT wants it. -/
theorem producedFrom_of_standsFor {esc : Bool} {w b : Byte} (h : standsFor esc w b) : producedFrom b w = true := by
  rcases h with ⟨-, hw, rfl⟩ | ⟨-, ⟨rfl, rfl⟩ | ⟨rfl, rfl⟩⟩
  · simp [producedFrom, hw]
  · decide
  · decide

/-! ## Steps 1 to 3 of R150 -/

theorem logicalOf_standsFor {w b : Byte} {s : State} (h : standsFor s.dec.esc w b) : logicalOf w s = some b := by
  simp [logicalOf, unescByte_standsFor.mp h]

/-- A byte that stands for a logical byte, other than a raw start marker, only clears `esc`. -/
theorem receiveSymbol_standsFor {w b : Byte} {s : State} (h : standsFor s.dec.esc w b) (hw : w ≠ 0xFE#8) :
    receiveSymbol w s = setEsc false s := by
  simp [receiveSymbol, resync, hw, unescByte_standsFor.mp h]

/-- A raw start marker outside a pair forces `p` to 0. -/
theorem receiveSymbol_start {s : State} (h : s.dec.esc = false) : receiveSymbol 0xFE#8 s = setEsc false (setPos 0 s) := by
  simp [receiveSymbol, resync, h, unescByte_lit (w := 0xFE#8) (by decide)]

/-- The escape marker outside a pair arms the escape. -/
theorem receiveSymbol_arm {s : State} (h : s.dec.esc = false) : receiveSymbol 0xEE#8 s = setEsc true s := by
  simp [receiveSymbol, resync, h, unescByte_arm]

/-- The escape error (R136, R261). -/
theorem receiveSymbol_bad {w : Byte} {s : State} (h : s.dec.esc = true) (h0 : w ≠ 0x00#8) (h1 : w ≠ 0x01#8) :
    receiveSymbol w s = raise (.escErr w) (s.withDec { s.dec with
      esc := false, p := if s.cfg.strictEsc ∨ w = 0xFE#8 then 0 else s.dec.p }) := by
  by_cases hw : w = 0xFE#8 <;> by_cases hc : s.cfg.strictEsc <;>
    simp [receiveSymbol, resync, escapeError, hw, h, unescByte_bad, h0, h1, hc, setEsc, setPos, raise, State.withDec]

/-- Writing `esc = 0` where it is 0 changes nothing. -/
theorem setEsc_self {s : State} {e : Bool} (h : s.dec.esc = e) : setEsc e s = s := by
  subst h; rfl

end Sys2Proof.Machine
end

