-- ==== Sys2Proof/Laws/Decoder.lean ====
section
/-! SUPPORT. The frame decoder: the position selected by `p` and `len`, and what the dispatch can do. -/

namespace Sys2Proof.Machine

open Sys2Proof

/-! ## The position selected (R102) -/

theorem positionOf_wait {d : Decoder} : positionOf d = some .wait ↔ d.p.toNat = 0 := by
  unfold positionOf; dsimp only; split_ifs <;> simp <;> omega
theorem positionOf_lenlo {d : Decoder} : positionOf d = some .lenlo ↔ d.p.toNat = 1 := by
  unfold positionOf; dsimp only; split_ifs <;> simp <;> omega
theorem positionOf_lenhi {d : Decoder} : positionOf d = some .lenhi ↔ d.p.toNat = 2 := by
  unfold positionOf; dsimp only; split_ifs <;> simp <;> omega
theorem positionOf_type {d : Decoder} : positionOf d = some .type ↔ d.p.toNat = 3 := by
  unfold positionOf; dsimp only; split_ifs <;> simp <;> omega
theorem positionOf_payload {d : Decoder} :
    positionOf d = some .payload ↔ 4 ≤ d.p.toNat ∧ d.p.toNat < 4 + d.len.toNat := by
  unfold positionOf; dsimp only; split_ifs <;> simp <;> omega
theorem positionOf_cklo {d : Decoder} : positionOf d = some .cklo ↔ d.p.toNat = 4 + d.len.toNat := by
  unfold positionOf; dsimp only; split_ifs <;> simp <;> omega
theorem positionOf_ckhi {d : Decoder} : positionOf d = some .ckhi ↔ d.p.toNat = 5 + d.len.toNat := by
  unfold positionOf; dsimp only; split_ifs <;> simp <;> omega
theorem positionOf_none {d : Decoder} : positionOf d = none ↔ 4 ≤ d.p.toNat ∧ 5 + d.len.toNat < d.p.toNat := by
  unfold positionOf; dsimp only; split_ifs <;> simp <;> omega

/-- The position does not depend on `esc`. -/
@[simp] theorem positionOf_esc (d : Decoder) (e : Bool) : positionOf { d with esc := e } = positionOf d := rfl

/-! ## Arithmetic of the registers -/

/-- `DEC.LENLO`'s write: the low byte is `b`, the high byte stays. -/
theorem lenlo_toNat (len : Half) (b : Byte) :
    ((len.extractLsb' 8 8 ++ b : Half)).toNat = len.toNat / 256 * 256 + b.toNat := by
  have := len.isLt
  have := b.isLt
  rw [BitVec.toNat_append, ← Nat.shiftLeft_add_eq_or_of_lt b.isLt, Nat.shiftLeft_eq]
  simp [BitVec.extractLsb'_toNat, Nat.shiftRight_eq_div_pow]
  omega

/-- `DEC.LENHI`'s write: the high byte is `b`, the low byte stays; also the value of a 16-bit pair. -/
theorem pair_toNat (b c : Byte) : ((b ++ c : Half)).toNat = b.toNat * 256 + c.toNat := by
  rw [BitVec.toNat_append, ← Nat.shiftLeft_add_eq_or_of_lt c.isLt, Nat.shiftLeft_eq]

theorem lenhi_toNat (len : Half) (b : Byte) :
    ((b ++ len.extractLsb' 0 8 : Half)).toNat = b.toNat * 256 + len.toNat % 256 := by
  rw [pair_toNat]; simp [BitVec.extractLsb'_toNat]

theorem pos_succ_toNat {p : Pos} (h : p.toNat < 2047) : (p + 1).toNat = p.toNat + 1 := by
  simp [BitVec.toNat_add]; omega

/-- The two bytes of a 16-bit value put together again. -/
theorem bytes_of_half (c : Half) : (c.extractLsb' 8 8 ++ c.extractLsb' 0 8 : Half) = c := by
  apply BitVec.eq_of_toNat_eq
  rw [pair_toNat]
  have := c.isLt
  simp [BitVec.extractLsb'_toNat, Nat.shiftRight_eq_div_pow]
  omega

/-! ## What a dispatch can do -/

/-- Everything DEC.PAYLOAD can do. -/
theorem decPayload_next {b : Byte} {s t : State} (h : decPayload b s = .next t) :
    s.dec.p.toNat - 4 < 1024 ∧
    t = s.withDec { s.dec with
      payload := payloadWrite s.dec.payload (s.dec.p.toNat - 4) b, ck := addCk s.dec.ck b, p := s.dec.p + 1 } := by
  unfold decPayload at h
  dsimp only at h
  split at h
  · next hk => exact ⟨hk, (Host.Outcome.next.inj h).symm⟩
  · cases h

/-- Everything DEC.CKHI can do. -/
theorem decCkhi_next {b : Byte} {s t : State} (h : decCkhi b s = .next t) :
    ((b ++ s.dec.cklo : Half) = s.dec.ck ∧ ∃ bytes, payloadCopy s.dec.payload 0 s.dec.len.toNat = .ok bytes ∧
      t = emitPkt ⟨s.dec.typ, s.dec.len, bytes⟩ (setPos 0 s)) ∨
    ((b ++ s.dec.cklo : Half) ≠ s.dec.ck ∧ t = raise (.ckErr (b ++ s.dec.cklo) s.dec.ck) (setPos 0 s)) := by
  unfold decCkhi at h
  dsimp only at h
  split at h
  · next he =>
    split at h
    · next bytes hb => exact .inl ⟨he, bytes, hb, (Host.Outcome.next.inj h).symm⟩
    · cases h
  · next he => exact .inr ⟨he, (Host.Outcome.next.inj h).symm⟩

/-- Everything DEC.LENHI can do. -/
theorem decLenhi_cases (b : Byte) (s : State) :
    ∃ len : Half, len = b ++ s.dec.len.extractLsb' 0 8 ∧ len.toNat = b.toNat * 256 + s.dec.len.toNat % 256 ∧
    ((len.toNat ≤ 1024 ∧ decLenhi b s = s.withDec { s.dec with len := len, ck := addCk s.dec.ck b, p := 3 }) ∨
     (1024 < len.toNat ∧ decLenhi b s =
        raise (.oversize len) (s.withDec { s.dec with len := len, ck := addCk s.dec.ck b, p := 0 }))) := by
  refine ⟨_, rfl, lenhi_toNat _ _, ?_⟩
  by_cases h : maxLen < ((b ++ s.dec.len.extractLsb' 0 8 : Half)).toNat
  · exact .inr ⟨h, by simp only [decLenhi, h, if_true]⟩
  · exact .inl ⟨Nat.le_of_not_lt h, by simp only [decLenhi, h, if_false]⟩

/-- The dispatch runs the operation of the position it selects. -/
theorem dispatch_cases (b w : Byte) (s : State) :
    (positionOf s.dec = some .wait ∧ dispatch b w s = .next (decWait b w s)) ∨
    (positionOf s.dec = some .lenlo ∧ dispatch b w s = .next (decLenlo b s)) ∨
    (positionOf s.dec = some .lenhi ∧ dispatch b w s = .next (decLenhi b s)) ∨
    (positionOf s.dec = some .type ∧ dispatch b w s = .next (decType b s)) ∨
    (positionOf s.dec = some .payload ∧ dispatch b w s = decPayload b s) ∨
    (positionOf s.dec = some .cklo ∧ dispatch b w s = .next (decCklo b s)) ∨
    (positionOf s.dec = some .ckhi ∧ dispatch b w s = decCkhi b s) ∨
    (positionOf s.dec = none ∧ dispatch b w s = .fault .unreachablePosition) := by
  unfold dispatch
  split <;> simp_all

/-- What the dispatch leaves alone: everything but the decoder, the counters and the output. -/
theorem dispatch_frame {b w : Byte} {s t : State} (h : dispatch b w s = .next t) :
    t.pump = s.pump ∧ t.flow = s.flow ∧ t.tlm = s.tlm ∧ t.cfg = s.cfg ∧ t.inbox = s.inbox ∧ t.tx = s.tx ∧
    t.out.tx = s.out.tx := by
  rcases dispatch_cases b w s with ⟨-, e⟩ | ⟨-, e⟩ | ⟨-, e⟩ | ⟨-, e⟩ | ⟨-, e⟩ | ⟨-, e⟩ | ⟨-, e⟩ | ⟨-, e⟩ <;>
    rw [e] at h
  · cases h; simp [decWait]
  · cases h; simp [decLenlo]
  · cases h
    obtain ⟨len, -, -, ⟨-, e'⟩ | ⟨-, e'⟩⟩ := decLenhi_cases b s <;> simp [e']
  · cases h; simp [decType]
  · obtain ⟨-, rfl⟩ := decPayload_next h; simp
  · cases h; simp [decCklo]
  · rcases decCkhi_next h with ⟨-, bytes, -, rfl⟩ | ⟨-, rfl⟩ <;> simp
  · cases h

/-- Only the last byte of a frame leaves a packet in the output. -/
theorem dispatch_pkt {b w : Byte} {s t : State} (h : dispatch b w s = .next t) (h0 : s.out.pkt = none)
    (hq : positionOf s.dec ≠ some .ckhi) : t.out.pkt = none := by
  rcases dispatch_cases b w s with ⟨-, e⟩ | ⟨-, e⟩ | ⟨-, e⟩ | ⟨-, e⟩ | ⟨-, e⟩ | ⟨-, e⟩ | ⟨hc, e⟩ | ⟨-, e⟩ <;>
    rw [e] at h
  · cases h; simpa [decWait] using h0
  · cases h; simpa [decLenlo] using h0
  · cases h
    obtain ⟨len, -, -, ⟨-, e'⟩ | ⟨-, e'⟩⟩ := decLenhi_cases b s <;> simpa [e'] using h0
  · cases h; simpa [decType] using h0
  · obtain ⟨-, rfl⟩ := decPayload_next h; simpa using h0
  · cases h; simpa [decCklo] using h0
  · exact absurd hc hq
  · cases h

end Sys2Proof.Machine
end

