-- ==== Sys2Proof/Laws/Encoder.lean ====
section
/-! SUPPORT. The checksum and the frame: one more byte, the closed form, the two ways a frame is written. -/

namespace Sys2Proof.Machine

open Sys2Proof

/-- One more covered byte is one more addition. -/
theorem checksum_snoc (xs : List Byte) (b : Byte) : checksum (xs ++ [b]) = addCk (checksum xs) b := by
  simp [checksum, List.foldl_append]

theorem coveredBytes_snoc (type : Byte) (n : Half) (payload : List Byte) (b : Byte) :
    coveredBytes type n (payload ++ [b]) = coveredBytes type n payload ++ [b] := rfl

theorem addCk_toNat (c : Half) (b : Byte) : (addCk c b).toNat = (c.toNat + b.toNat) % 65536 := by
  have := b.isLt
  simp [addCk, BitVec.toNat_add, BitVec.toNat_setWidth]

theorem foldl_addCk_toNat (xs : List Byte) (c : Half) :
    (xs.foldl addCk c).toNat = (c.toNat + (xs.map BitVec.toNat).sum) % 65536 := by
  induction xs generalizing c with
  | nil => have := c.isLt; simp; omega
  | cons x xs ih =>
    simp only [List.foldl_cons, ih, addCk_toNat, List.map_cons, List.sum_cons]
    omega

/-- The accumulator in closed form (R95). -/
theorem checksum_toNat (xs : List Byte) : (checksum xs).toNat = (0xFE + (xs.map BitVec.toNat).sum) % 65536 := by
  simp [checksum, foldl_addCk_toNat]

theorem checksum_eq_checksumSum (xs : List Byte) : checksum xs = checksumSum xs := by
  apply BitVec.eq_of_toNat_eq
  simp [checksum_toNat, checksumSum]

/-- A frame carries its own checksum. -/
theorem frameBytes_eq_frameCarrying (type : Byte) (n : Half) (payload : List Byte) :
    frameBytes type n payload = frameCarrying type n payload (checksum (coveredBytes type n payload)) := rfl

theorem escapeByte_length (b : Byte) : 1 ≤ (escapeByte b).length ∧ (escapeByte b).length ≤ 2 := by
  rcases escapeByte_cases b with ⟨-, h⟩ | ⟨-, h⟩ | ⟨-, -, h⟩ <;> simp [h]

theorem flatMap_escapeByte_length (bs : List Byte) :
    bs.length ≤ (bs.flatMap escapeByte).length ∧ (bs.flatMap escapeByte).length ≤ 2 * bs.length := by
  induction bs with
  | nil => simp
  | cons b bs ih =>
    have := escapeByte_length b
    simp only [List.flatMap_cons, List.length_append, List.length_cons]
    omega

/-- An escaped byte in front of a clean body is clean. -/
theorem cleanBody_escapeByte (b : Byte) (ws : List Byte) : cleanBody (escapeByte b ++ ws) = cleanBody ws := by
  rcases escapeByte_cases b with ⟨-, h⟩ | ⟨-, h⟩ | ⟨h1, h2, h⟩
  · simp [h, cleanBody]
  · simp [h, cleanBody]
  · rw [h, List.singleton_append, cleanBody.eq_def]
    simp [h1, h2]

theorem cleanBody_flatMap (bs ws : List Byte) : cleanBody (bs.flatMap escapeByte ++ ws) = cleanBody ws := by
  induction bs with
  | nil => simp
  | cons b bs ih => simp [List.append_assoc, cleanBody_escapeByte, ih]

end Sys2Proof.Machine
end

