-- ==== Sys2Proof/Laws/Pump.lean ====
section
/-! SUPPORT. Router, pump command, watchdog and ramp: what each can do, said once. -/

namespace Sys2Proof.Machine

open Sys2Proof

/-! ## PWM_CONV -/

theorem clampUnits_le {v : FVal} {u : Nat} (h : clampUnits v = some u) : u ≤ 2 ^ 149 := by
  cases v <;> simp only [clampUnits, reduceCtorEq, Option.some.injEq, oneUnits] at h <;> omega

/-- The placement of a clamped value stays within the span. -/
theorem pwmOffset_le (c : Config) {u : Nat} (h : u ≤ 2 ^ 149) : pwmOffset c u ≤ pwmSpan c := by
  unfold pwmOffset
  split
  · exact Nat.div_le_of_le_mul (by rw [Nat.mul_comm]; exact Nat.mul_le_mul_right _ h)
  · exact (List.length_filter_le _ _).trans (by simp)

/-- Every conversion of a legal configuration is in range (R203 P2). -/
theorem pwmConv_inRange {c : Config} (hc : c.Valid) {x : Word} {r : Half} (h : pwmConv c x = some r) : inPwmRange c r := by
  obtain ⟨h1, -, -, -, -⟩ := hc
  have hmax := c.pwmMax.isLt
  simp only [pwmConv, Option.map_eq_some_iff] at h
  obtain ⟨u, hu, rfl⟩ := h
  have := pwmOffset_le c (clampUnits_le hu)
  unfold pwmSpan at this
  constructor <;> simp only [BitVec.toNat_ofNat] <;> omega

/-! ## PUMPCMD -/

/-- Everything a pump command with its two fields can do. -/
theorem pumpFields_cases (a b now : Word) (s : State) :
    (∃ s0 s1, pwmConv s.cfg a = some s0 ∧ pwmConv s.cfg b = some s1 ∧
      ((¬ (s0 = s.pump.sp0 ∧ s1 = s.pump.sp1) ∧
        pumpFields a b now s = s.withPump { s.pump with sp0 := s0, sp1 := s1, tCmd := now }) ∨
       (s0 = s.pump.sp0 ∧ s1 = s.pump.sp1 ∧ pumpFields a b now s = s))) ∨
    ((pwmConv s.cfg a = none ∨ pwmConv s.cfg b = none) ∧ pumpFields a b now s = raise (.cmdReject a b) s) := by
  unfold pumpFields
  cases ha : pwmConv s.cfg a with
  | none => exact .inr ⟨.inl rfl, rfl⟩
  | some s0 =>
    cases hb : pwmConv s.cfg b with
    | none => exact .inr ⟨.inr rfl, rfl⟩
    | some s1 =>
      refine .inl ⟨s0, s1, rfl, rfl, ?_⟩
      by_cases h : s0 = s.pump.sp0 ∧ s1 = s.pump.sp1
      · right; refine ⟨h.1, h.2, ?_⟩; simp [latchSetpoints, h.1, h.2]
      · left; refine ⟨h, ?_⟩
        have : s0 ≠ s.pump.sp0 ∨ s1 ≠ s.pump.sp1 := by tauto
        simp only [latchSetpoints, this, if_true]

/-- A pump command on a payload of at least 8 bytes runs on its two fields. -/
theorem pumpCommand_fields {P : Packet} (h : 8 ≤ P.payload.length) (now : Word) (s : State) :
    ∃ a b, field32 P.payload 0 = some a ∧ field32 P.payload 4 = some b ∧
      pumpCommand P now s = .next (pumpFields a b now s) := by
  obtain ⟨a, ha⟩ := field32_isSome (payload := P.payload) (o := 0) (by omega)
  obtain ⟨b, hb⟩ := field32_isSome (payload := P.payload) (o := 4) (by omega)
  exact ⟨a, b, ha, hb, by simp [pumpCommand, ha, hb]⟩

/-- What a pump command leaves alone. -/
theorem pumpFields_frame (a b now : Word) (s : State) :
    (pumpFields a b now s).dec = s.dec ∧ (pumpFields a b now s).flow = s.flow ∧
    (pumpFields a b now s).tlm = s.tlm ∧ (pumpFields a b now s).cfg = s.cfg ∧
    (pumpFields a b now s).inbox = s.inbox ∧ (pumpFields a b now s).tx = s.tx ∧
    (pumpFields a b now s).out.tx = s.out.tx ∧ (pumpFields a b now s).out.pkt = s.out.pkt ∧
    (pumpFields a b now s).pump.out0 = s.pump.out0 ∧ (pumpFields a b now s).pump.out1 = s.pump.out1 := by
  rcases pumpFields_cases a b now s with ⟨s0, s1, -, -, ⟨-, e⟩ | ⟨-, -, e⟩⟩ | ⟨-, e⟩ <;> simp [e]

/-! ## ROUTE -/

/-- Everything routing a packet of its declared length can do. -/
theorem routePacket_cases {P : Packet} (h : P.payload.length = P.length.toNat) (now : Word) (s : State) :
    ((P.type, P.length) ∉ s.cfg.routeTable ∧
      routePacket P now s = .next (raise (.routeDrop P.type P.length) s)) ∨
    ((P.type, P.length) ∈ s.cfg.routeTable ∧ P.type = 3#8 ∧ P.length = 8#16 ∧
      ∃ a b, field32 P.payload 0 = some a ∧ field32 P.payload 4 = some b ∧
        pumpCommand P now s = .next (pumpFields a b now s) ∧ routePacket P now s = .next (pumpFields a b now s)) ∨
    ((P.type, P.length) ∈ s.cfg.routeTable ∧ ¬ (P.type = 3#8 ∧ P.length = 8#16) ∧ routePacket P now s = .next s) := by
  by_cases ht : (P.type, P.length) ∈ s.cfg.routeTable
  · by_cases hp : P.type = 3#8 ∧ P.length = 8#16
    · obtain ⟨a, b, ha, hb, e⟩ := pumpCommand_fields (P := P) (by rw [h, hp.2]; decide) now s
      exact .inr (.inl ⟨ht, hp.1, hp.2, a, b, ha, hb, e, by
        rw [routePacket, if_pos ht, if_pos (show P.type = typePump ∧ P.length = pumpLen from hp), e]⟩)
    · exact .inr (.inr ⟨ht, hp, by simp only [routePacket, ht, if_true, typePump, pumpLen, hp, if_false]⟩)
  · exact .inl ⟨ht, by simp only [routePacket, ht, if_false]⟩

/-- What routing leaves alone. -/
theorem routePacket_frame {P : Packet} (h : P.payload.length = P.length.toNat) (now : Word) (s : State) :
    ∃ t, routePacket P now s = .next t ∧ t.dec = s.dec ∧ t.flow = s.flow ∧ t.tlm = s.tlm ∧ t.cfg = s.cfg ∧
      t.inbox = s.inbox ∧ t.tx = s.tx ∧ t.out.tx = s.out.tx ∧ t.out.pkt = s.out.pkt ∧
      t.pump.out0 = s.pump.out0 ∧ t.pump.out1 = s.pump.out1 := by
  rcases routePacket_cases h now s with ⟨-, e⟩ | ⟨-, -, -, a, b, -, -, -, e⟩ | ⟨-, -, e⟩
  · exact ⟨_, e, by simp⟩
  · exact ⟨_, e, pumpFields_frame a b now s⟩
  · exact ⟨_, e, by simp⟩

/-! ## WDOG -/

theorem timerDue_iff {now t : Word} {P : Nat} : timerDue now t P = true ↔ P ≤ (now - t).toNat := by
  exact decide_eq_true_iff

/-- A tripped evaluation. -/
theorem watchdog_trip {now : Word} {s : State} (h : 4000 ≤ (now - s.pump.tCmd).toNat) :
    watchdog now s = (if s.pump.wdg then s else raise (.wdgTrip (now - s.pump.tCmd)) s).withPump
      { s.pump with sp0 := s.cfg.pwmNeutral, sp1 := s.cfg.pwmNeutral, out0 := s.cfg.pwmNeutral,
                    out1 := s.cfg.pwmNeutral, wdg := true } := by
  have : timerDue now s.pump.tCmd 4000 = true := timerDue_iff.mpr h
  cases hw : s.pump.wdg <;> simp [watchdog, this, hw, elapsed]

/-- An evaluation below the time-out. -/
theorem watchdog_armed {now : Word} {s : State} (h : (now - s.pump.tCmd).toNat < 4000) :
    watchdog now s = s.withPump { s.pump with wdg := false } := by
  have : timerDue now s.pump.tCmd 4000 = false := by
    rw [← Bool.not_eq_true, timerDue_iff]; simpa using h
  simp [watchdog, this]

/-- What the watchdog leaves alone. -/
theorem watchdog_frame (now : Word) (s : State) :
    (watchdog now s).dec = s.dec ∧ (watchdog now s).flow = s.flow ∧ (watchdog now s).tlm = s.tlm ∧
    (watchdog now s).cfg = s.cfg ∧ (watchdog now s).inbox = s.inbox ∧ (watchdog now s).tx = s.tx ∧
    (watchdog now s).out.tx = s.out.tx ∧ (watchdog now s).pump.tCmd = s.pump.tCmd ∧
    (watchdog now s).pump.tRamp = s.pump.tRamp := by
  by_cases h : 4000 ≤ (now - s.pump.tCmd).toNat
  · rw [watchdog_trip h]; split <;> simp
  · rw [watchdog_armed (by omega)]; simp

/-! ## RAMP -/

/-- One ramp step in unbounded arithmetic: by the error or by 5, whichever is smaller in magnitude (R215). -/
theorem rampStep_toInt (o sp : Half) :
    ((rampStep o sp).toNat : ℤ) = o.toNat + max (-5) (min 5 ((sp.toNat : ℤ) - o.toNat)) := by
  have h1 := o.isLt
  have h2 := sp.isLt
  unfold rampStep
  simp only [rampMaxStep]
  split
  · simp only [BitVec.toNat_ofNat]; omega
  · split
    · simp only [BitVec.toNat_ofNat]; omega
    · omega

/-- A ramp step stays between the old output and the setpoint. -/
theorem rampStep_between (o sp : Half) :
    min o.toNat sp.toNat ≤ (rampStep o sp).toNat ∧ (rampStep o sp).toNat ≤ max o.toNat sp.toNat := by
  have := rampStep_toInt o sp
  omega

/-- At the setpoint a ramp step does not move. -/
@[simp] theorem rampStep_self (o : Half) : rampStep o o = o := by simp [rampStep]

theorem rampOutputs_due {now : Word} {s : State} (h : 100 ≤ (now - s.pump.tRamp).toNat) :
    rampOutputs now s = s.withPump { s.pump with
      tRamp := now, out0 := rampStep s.pump.out0 s.pump.sp0, out1 := rampStep s.pump.out1 s.pump.sp1 } := by
  have : timerDue now s.pump.tRamp 100 = true := timerDue_iff.mpr h
  simp [rampOutputs, this]

theorem rampOutputs_notDue {now : Word} {s : State} (h : (now - s.pump.tRamp).toNat < 100) : rampOutputs now s = s := by
  have : timerDue now s.pump.tRamp 100 = false := by
    rw [← Bool.not_eq_true, timerDue_iff]; simpa using h
  simp [rampOutputs, this]

/-- What the ramp leaves alone. -/
theorem rampOutputs_frame (now : Word) (s : State) :
    (rampOutputs now s).dec = s.dec ∧ (rampOutputs now s).flow = s.flow ∧ (rampOutputs now s).tlm = s.tlm ∧
    (rampOutputs now s).stat = s.stat ∧ (rampOutputs now s).cfg = s.cfg ∧ (rampOutputs now s).inbox = s.inbox ∧
    (rampOutputs now s).tx = s.tx ∧ (rampOutputs now s).out = s.out ∧ (rampOutputs now s).pump.tCmd = s.pump.tCmd ∧
    (rampOutputs now s).pump.wdg = s.pump.wdg ∧
    (rampOutputs now s).pump.sp0 = s.pump.sp0 ∧ (rampOutputs now s).pump.sp1 = s.pump.sp1 := by
  by_cases h : 100 ≤ (now - s.pump.tRamp).toNat
  · rw [rampOutputs_due h]; simp
  · rw [rampOutputs_notDue (by omega)]; simp

end Sys2Proof.Machine
end

