-- ==== Sys2Proof/Laws/Flow.lean ====
section
/-! SUPPORT. Flow aggregation and telemetry: what each can do, and the DataPacket payload field by field. -/

namespace Sys2Proof.Machine

open Sys2Proof

theorem aggregateFlow_due {now : Word} {s : State} (h : 1000 ≤ (now - s.flow.tFlow).toNat) :
    aggregateFlow now s = s.withFlow
      { cnt := #v[0, 0, 0]
        rate := #v[flowRate s.cfg s.flow.cnt[0] (now - s.flow.tFlow) s.cfg.kFlow[0],
                   flowRate s.cfg s.flow.cnt[1] (now - s.flow.tFlow) s.cfg.kFlow[1],
                   flowRate s.cfg s.flow.cnt[2] (now - s.flow.tFlow) s.cfg.kFlow[2]]
        tFlow := now } := by
  have : timerDue now s.flow.tFlow 1000 = true := timerDue_iff.mpr h
  simp [aggregateFlow, this, elapsed]

theorem aggregateFlow_notDue {now : Word} {s : State} (h : (now - s.flow.tFlow).toNat < 1000) :
    aggregateFlow now s = s := by
  have : timerDue now s.flow.tFlow 1000 = false := by
    rw [← Bool.not_eq_true, timerDue_iff]; simpa using h
  simp [aggregateFlow, this]

/-- What flow aggregation leaves alone. -/
theorem aggregateFlow_frame (now : Word) (s : State) :
    (aggregateFlow now s).dec = s.dec ∧ (aggregateFlow now s).pump = s.pump ∧ (aggregateFlow now s).tlm = s.tlm ∧
    (aggregateFlow now s).stat = s.stat ∧ (aggregateFlow now s).cfg = s.cfg ∧ (aggregateFlow now s).inbox = s.inbox ∧
    (aggregateFlow now s).tx = s.tx ∧ (aggregateFlow now s).out = s.out := by
  by_cases h : 1000 ≤ (now - s.flow.tFlow).toNat
  · rw [aggregateFlow_due h]; simp
  · rw [aggregateFlow_notDue (by omega)]; simp

theorem sendTelemetry_due {now : Word} {s : State} (h : 10 ≤ (now - s.tlm.tTlm).toNat) :
    sendTelemetry now s =
      txFrame 1#8 92#16 (dataPayload now s.tlm s.flow) (s.withTlm { s.tlm with tTlm := now }) := by
  have : timerDue now s.tlm.tTlm 10 = true := timerDue_iff.mpr h
  simp [sendTelemetry, this]

theorem sendTelemetry_notDue {now : Word} {s : State} (h : (now - s.tlm.tTlm).toNat < 10) : sendTelemetry now s = s := by
  have : timerDue now s.tlm.tTlm 10 = false := by
    rw [← Bool.not_eq_true, timerDue_iff]; simpa using h
  simp [sendTelemetry, this]

/-- What telemetry leaves alone. -/
theorem sendTelemetry_frame (now : Word) (s : State) :
    (sendTelemetry now s).dec = s.dec ∧ (sendTelemetry now s).pump = s.pump ∧ (sendTelemetry now s).flow = s.flow ∧
    (sendTelemetry now s).stat = s.stat ∧ (sendTelemetry now s).cfg = s.cfg ∧ (sendTelemetry now s).inbox = s.inbox ∧
    (sendTelemetry now s).out.events = s.out.events ∧ (sendTelemetry now s).out.pkt = s.out.pkt := by
  by_cases h : 10 ≤ (now - s.tlm.tTlm).toNat
  · rw [sendTelemetry_due h]; simp
  · rw [sendTelemetry_notDue (by omega)]; simp

/-! ## The DataPacket payload -/

/-- Fields that follow one another without padding from offset `o` on. -/
def FieldsFrom : Nat → List Field → Prop
  | _, [] => True
  | o, x :: xs => x.offset = o ∧ FieldsFrom (o + x.size) xs

/-- Writing a field right after the bytes already filled. -/
theorem memWrite_fill (xs : List Byte) (n m v : Nat) :
    memWrite (xs ++ List.replicate (n + m) 0#8) xs.length n v = xs ++ leBytes n v ++ List.replicate m 0#8 := by
  simp [memWrite, List.drop_append]

/-- Filling a buffer of zeros with fields that follow one another puts them end to end. -/
theorem foldl_memWrite (fs : List Field) (xs : List Byte) (h : FieldsFrom xs.length fs) :
    fs.foldl (fun D x => memWrite D x.offset x.size x.value) (xs ++ List.replicate (fs.map Field.size).sum 0#8) =
      xs ++ fs.flatMap fun x => leBytes x.size x.value := by
  induction fs generalizing xs with
  | nil => simp
  | cons f fs ih =>
    obtain ⟨h1, h2⟩ := h
    have := ih (xs ++ leBytes f.size f.value) (by simpa using h2)
    simp only [List.map_cons, List.sum_cons, List.foldl_cons, h1, memWrite_fill]
    rw [this, List.flatMap_cons, List.append_assoc]

theorem dataFields_from (now : Word) (t : Telemetry) (f : Flow) : FieldsFrom 0 (dataFields now t f) := by
  simp [dataFields, FieldsFrom]

/-- The DataPacket payload is its fields end to end, in R70's order, without padding. -/
theorem dataPayload_eq (now : Word) (t : Telemetry) (f : Flow) :
    dataPayload now t f = (dataFields now t f).flatMap fun x => leBytes x.size x.value := by
  have := foldl_memWrite (dataFields now t f) [] (dataFields_from now t f)
  simpa [dataPayload, dataFields] using this

theorem dataPayload_length (now : Word) (t : Telemetry) (f : Flow) : (dataPayload now t f).length = 92 := by
  rw [dataPayload_eq]; simp [dataFields]

/-- A field of a payload built end to end reads as its value. -/
theorem memRead_field (before after : List Field) (x : Field) (hv : x.value < 256 ^ x.size) :
    memRead ((before ++ x :: after).flatMap fun y => leBytes y.size y.value) (before.map Field.size).sum x.size =
      some x.value := by
  have h := memRead_append (before.flatMap fun y => leBytes y.size y.value) (leBytes x.size x.value)
    (after.flatMap fun y => leBytes y.size y.value)
  have hl : (before.flatMap fun y => leBytes y.size y.value).length = (before.map Field.size).sum := by
    simp [List.length_flatMap]
  rw [hl, leBytes_length, leNat_leBytes _ _ hv] at h
  simpa [List.append_assoc] using h

/-- A field's offset is the sizes before it. -/
theorem FieldsFrom.offset_eq {o : Nat} {fs : List Field} (h : FieldsFrom o fs) (k : Nat) (hk : k < fs.length) :
    o + ((fs.take k).map Field.size).sum = fs[k].offset := by
  induction fs generalizing o k with
  | nil => simp at hk
  | cons x xs ih =>
    cases k with
    | zero => simpa using h.1.symm
    | succ k =>
      have := ih h.2 k (by simpa using hk)
      simp only [List.take_succ_cons, List.map_cons, List.sum_cons, List.getElem_cons_succ]
      omega

/-- Every value of R70's table fits its field. -/
theorem dataFields_fit (now : Word) (t : Telemetry) (f : Flow) : ∀ x ∈ dataFields now t f, x.value < 256 ^ x.size := by
  have h8 : now.toNat < 256 ^ 8 := by have := now.isLt; omega
  have h4 : ∀ v : Word, v.toNat < 256 ^ 4 := fun v => by have := v.isLt; omega
  simp only [dataFields, List.forall_mem_cons, h8, h4, List.not_mem_nil, false_implies, implies_true, and_self]

/-- Every field of the DataPacket reads back, at its offset, as the register it was filled from (R70, R236). -/
theorem memRead_dataPayload (now : Word) (t : Telemetry) (f : Flow) (k : Nat) (hk : k < (dataFields now t f).length) :
    memRead (dataPayload now t f) (dataFields now t f)[k].offset (dataFields now t f)[k].size =
      some (dataFields now t f)[k].value := by
  have h := memRead_field ((dataFields now t f).take k) ((dataFields now t f).drop (k + 1)) (dataFields now t f)[k]
    (dataFields_fit now t f _ (List.getElem_mem hk))
  rw [List.getElem_cons_drop, List.take_append_drop, ← dataPayload_eq] at h
  rwa [← (dataFields_from now t f).offset_eq k hk, Nat.zero_add]

end Sys2Proof.Machine
end

