-- ==== Sys2Proof/Laws/PerInstr.lean ====
section
/-! SUPPORT. Per instruction: the record of a well-formed operation is not empty and never longer than the longest
record, so `withFetchWord` and the decoder always have the whole of it. -/

namespace Sys2Proof.Laws

open Sys2Proof

/-- The record of a well-formed operation has at least one byte and at most `maxRecordBytes`. -/
def EncodeLength.Statement (i : Instr) : Prop :=
  WellFormed i → 1 ≤ (encode i).length ∧ (encode i).length ≤ maxRecordBytes

theorem EncodeLength.reset (now : Word) : EncodeLength.Statement (.reset now) := fun _ => by simp [encode]

theorem EncodeLength.rxbyte (w : Byte) (now : Word) : EncodeLength.Statement (.rxbyte w now) := fun _ => by simp [encode]

theorem EncodeLength.tick (now : Word) : EncodeLength.Statement (.tick now) := fun _ => by simp [encode]

theorem EncodeLength.pulse (i : Byte) : EncodeLength.Statement (.pulse i) := fun _ => by simp [encode]

theorem EncodeLength.sample (reg : Byte) (v : Word) : EncodeLength.Statement (.sample reg v) := fun _ => by simp [encode]

theorem EncodeLength.print (n : Half) (bytes : List Byte) : EncodeLength.Statement (.print n bytes) := by
  intro h
  have := payloadViolation_none.mp h
  simp [encode] at this ⊢
  omega

theorem EncodeLength.wStart : EncodeLength.Statement .wStart := fun _ => by simp [encode]

theorem EncodeLength.wEsc : EncodeLength.Statement .wEsc := fun _ => by simp [encode]

theorem EncodeLength.wLit (w : Byte) : EncodeLength.Statement (.wLit w) := fun _ => by simp [encode]

theorem EncodeLength.wEsc0 : EncodeLength.Statement .wEsc0 := fun _ => by simp [encode]

theorem EncodeLength.wEsc1 : EncodeLength.Statement .wEsc1 := fun _ => by simp [encode]

theorem EncodeLength.wEscbad (w : Byte) : EncodeLength.Statement (.wEscbad w) := fun _ => by simp [encode]

theorem EncodeLength.decWait (b : Byte) (w : Byte) : EncodeLength.Statement (.decWait b w) := fun _ => by simp [encode]

theorem EncodeLength.decLenlo (b : Byte) : EncodeLength.Statement (.decLenlo b) := fun _ => by simp [encode]

theorem EncodeLength.decLenhi (b : Byte) : EncodeLength.Statement (.decLenhi b) := fun _ => by simp [encode]

theorem EncodeLength.decType (b : Byte) : EncodeLength.Statement (.decType b) := fun _ => by simp [encode]

theorem EncodeLength.decPayload (b : Byte) : EncodeLength.Statement (.decPayload b) := fun _ => by simp [encode]

theorem EncodeLength.decCklo (b : Byte) : EncodeLength.Statement (.decCklo b) := fun _ => by simp [encode]

theorem EncodeLength.decCkhi (b : Byte) : EncodeLength.Statement (.decCkhi b) := fun _ => by simp [encode]

theorem EncodeLength.unesc (w : Byte) : EncodeLength.Statement (.unesc w) := fun _ => by simp [encode]

theorem EncodeLength.route (P : Packet) (now : Word) : EncodeLength.Statement (.route P now) := by
  intro h
  have := payloadViolation_none.mp h
  simp [encode] at this ⊢
  omega

theorem EncodeLength.pumpcmd (P : Packet) (now : Word) : EncodeLength.Statement (.pumpcmd P now) := by
  intro h
  simp only [WellFormed, violation] at h
  split at h
  · next hp =>
    have := payloadViolation_none.mp h
    simp [encode] at this ⊢
    omega
  · cases h

theorem EncodeLength.wdog (now : Word) : EncodeLength.Statement (.wdog now) := fun _ => by simp [encode]

theorem EncodeLength.ramp (now : Word) : EncodeLength.Statement (.ramp now) := fun _ => by simp [encode]

theorem EncodeLength.flowagg (now : Word) : EncodeLength.Statement (.flowagg now) := fun _ => by simp [encode]

theorem EncodeLength.telem (now : Word) : EncodeLength.Statement (.telem now) := fun _ => by simp [encode]

theorem EncodeLength.escape (b : Byte) : EncodeLength.Statement (.escape b) := fun _ => by simp [encode]

theorem EncodeLength.txframe (type : Byte) (n : Half) (payload : List Byte) : EncodeLength.Statement (.txframe type n payload) := by
  intro h
  have := payloadViolation_none.mp h
  simp [encode] at this ⊢
  omega

theorem EncodeLength.pktData (payload : List Byte) (now : Word) : EncodeLength.Statement (.pktData payload now) := by
  intro h
  have := payloadViolation_none.mp h
  simp [encode] at this ⊢
  omega

theorem EncodeLength.pktPrint (n : Half) (payload : List Byte) (now : Word) : EncodeLength.Statement (.pktPrint n payload now) := by
  intro h
  have := payloadViolation_none.mp h
  simp [encode] at this ⊢
  omega

theorem EncodeLength.pktPump (payload : List Byte) (now : Word) : EncodeLength.Statement (.pktPump payload now) := by
  intro h
  have := payloadViolation_none.mp h
  simp [encode] at this ⊢
  omega

end Sys2Proof.Laws
end

