-- ==== Sys2Proof/Laws/Rate.lean ====
section
/-! SUPPORT. The default rate: rounding, the values of the f32 patterns, and which pattern is nearest (R17, R235). -/

namespace Sys2Proof.Machine

open Sys2Proof

/-! ## Rounding to a whole number -/

/-- The rounded quotient is within one half of the quotient. -/
theorem roundHalfEven_bound (n d : Nat) (hd : 0 < d) : 2 * (roundHalfEven n d * d) ≤ 2 * n + d ∧
    2 * n ≤ 2 * (roundHalfEven n d * d) + d := by
  have h1 := Nat.div_add_mod n d
  have h2 := Nat.mod_lt n hd
  unfold roundHalfEven
  dsimp only
  have e1 : (n / d + 1) * d = n / d * d + d := by ring
  have e3 : d * (n / d) = n / d * d := by ring
  have hpar : n / d % 2 = 0 ∨ n / d % 2 = 1 := by omega
  rw [e3] at h1
  split
  · generalize n / d * d = y at *; omega
  · split
    · rw [e1]; generalize n / d * d = y at *; omega
    · rcases hpar with h | h <;> rw [h]
      · simp only [Nat.add_zero]; generalize n / d * d = y at *; omega
      · rw [e1]; generalize n / d * d = y at *; omega

/-- Rounding stays between whole bounds. -/
theorem roundHalfEven_range (n d a b : Nat) (hd : 0 < d) (h1 : a * d ≤ n) (h2 : n ≤ b * d) :
    a ≤ roundHalfEven n d ∧ roundHalfEven n d ≤ b := by
  obtain ⟨x, y⟩ := roundHalfEven_bound n d hd
  have dm := Nat.div_add_mod n d
  have hm := Nat.mod_lt n hd
  have ha : a ≤ n / d := (Nat.le_div_iff_mul_le hd).mpr h1
  have hb : n / d ≤ b := Nat.div_le_of_le_mul (by rw [Nat.mul_comm]; exact h2)
  refine ⟨?_, ?_⟩
  · unfold roundHalfEven; dsimp only; split <;> [exact ha; split <;> omega]
  · by_contra hc
    have : b + 1 ≤ roundHalfEven n d := by omega
    have : (b + 1) * d ≤ roundHalfEven n d * d := Nat.mul_le_mul_right d this
    nlinarith

/-- No whole number is nearer than the rounded quotient, and where another is as near the rounded one is even. -/
theorem roundHalfEven_nearest (n d : Nat) (hd : 0 < d) (j : ℤ) :
    |((roundHalfEven n d : ℕ) : ℤ) * d - n| ≤ |j * d - n| ∧
    (|j * d - n| = |((roundHalfEven n d : ℕ) : ℤ) * d - n| → j = roundHalfEven n d ∨ roundHalfEven n d % 2 = 0) := by
  have h1 := Nat.div_add_mod n d
  have h2 := Nat.mod_lt n hd
  have hp : n / d % 2 = 0 ∨ n / d % 2 = 1 := by omega
  have hn : (n : ℤ) = d * (n / d : ℕ) + (n % d : ℕ) := by exact_mod_cast h1.symm
  obtain ⟨Q, hQ⟩ : ∃ Q, Q = n / d := ⟨_, rfl⟩
  obtain ⟨R, hR⟩ : ∃ R, R = n % d := ⟨_, rfl⟩
  have hm : (2 * R < d ∧ roundHalfEven n d = Q) ∨ (d < 2 * R ∧ roundHalfEven n d = Q + 1) ∨
      (2 * R = d ∧ roundHalfEven n d % 2 = 0 ∧ (roundHalfEven n d = Q ∨ roundHalfEven n d = Q + 1)) := by
    unfold roundHalfEven; dsimp only
    rw [← hQ, ← hR]
    rw [← hQ] at hp
    split
    · left; exact ⟨‹_›, rfl⟩
    · split
      · right; left; exact ⟨‹_›, rfl⟩
      · right; right; omega
  rw [← hQ, ← hR] at hn
  rw [← hR] at h2
  generalize roundHalfEven n d = m at *
  have hdz : (0 : ℤ) < d := by exact_mod_cast hd
  have e : ∀ k : ℤ, k * d - n = (k - Q) * d - R := by intro k; rw [hn]; ring
  rw [e, e]
  simp only [Int.abs_eq_natAbs]
  obtain ⟨i, hi⟩ : ∃ i : ℤ, i = j - Q := ⟨_, rfl⟩
  rw [← hi]
  have hj : j = i + Q := by omega
  have hi0 : i ≤ 0 → R - i * d ≥ R := by intro h; nlinarith
  have key : (i ≤ -1 → i * d ≤ -d) ∧ (2 ≤ i → 2 * (d : ℤ) ≤ i * d) := ⟨fun h => by nlinarith, fun h => by nlinarith⟩
  have cases4 : i ≤ -1 ∨ i = 0 ∨ i = 1 ∨ 2 ≤ i := by omega
  have b1 : (m : ℤ) = Q ∨ (m : ℤ) = Q + 1 := by omega
  rcases b1 with b | b
  · rw [b, show ((Q : ℤ) - Q) * d = 0 by ring]
    rcases cases4 with h | h | h | h
    · have := key.1 h; generalize i * (d : ℤ) = y at *; omega
    · subst h; rw [Int.zero_mul]; omega
    · subst h; rw [Int.one_mul]; omega
    · have := key.2 h; generalize i * (d : ℤ) = y at *; omega
  · rw [b, show ((Q : ℤ) + 1 - Q) * d = d by ring]
    rcases cases4 with h | h | h | h
    · have := key.1 h; generalize i * (d : ℤ) = y at *; omega
    · subst h; rw [Int.zero_mul]; omega
    · subst h; rw [Int.one_mul]; omega
    · have := key.2 h; generalize i * (d : ℤ) = y at *; omega

/-! ## The values of the f32 patterns (R17) -/

/-- R17's formula for a magnitude is `fmag` units of 2^-149. -/
theorem fmag_rat (e f : Nat) : ((fmag e f : ℕ) : ℚ) =
    (if e = 0 then (2 : ℚ) ^ (-126 : ℤ) * ((f : ℚ) / 2 ^ 23) else (2 : ℚ) ^ ((e : ℤ) - 127) * (1 + (f :
        ℚ) / 2 ^ 23)) * 2 ^ 149 := by
  unfold fmag
  split
  · rw [zpow_neg]; norm_num; ring
  · next h =>
    obtain ⟨k, rfl⟩ : ∃ k, e = k + 1 := ⟨e - 1, by omega⟩
    have : (2 : ℚ) ^ (((k + 1 : ℕ) : ℤ) - 127) = 2 ^ k / 2 ^ 126 := by
      rw [show (((k + 1 : ℕ) : ℤ) - 127) = (k : ℤ) - (126 : ℕ) by push_cast; ring, zpow_sub₀ (by norm_num),
          zpow_natCast, zpow_natCast]
    rw [this]; push_cast
    field_simp
    ring

/-- A finite pattern has a value in units of 2^-149. -/
theorem fval_of_finite {x : Word} (h : isFiniteF32 x) : ∃ u : ℤ, fval x = .fin u ∧ (u : ℚ) = fvalRat x * 2 ^ 149 := by
  unfold isFiniteF32 at h
  refine ⟨_, by unfold fval; dsimp only; rw [if_neg h], ?_⟩
  unfold fvalRat
  dsimp only
  have := fmag_rat (BitVec.toNat (BitVec.extractLsb' 23 8 x)) (BitVec.toNat (BitVec.extractLsb' 0 23 x))
  cases hs : x.msb
  · simp only [Bool.false_eq_true, if_false]
    rw [Int.cast_natCast, this]
    split <;> ring
  · simp only [if_true]
    rw [Int.cast_neg, Int.cast_natCast, this]
    split <;> ring

/-- A pattern with a value is finite, and the value is R17's. -/
theorem finite_of_fval {x : Word} {u : ℤ} (h : fval x = .fin u) : isFiniteF32 x ∧ fvalRat x = u / 2 ^ 149 := by
  have hf : isFiniteF32 x := by
    intro he
    unfold fval at h; dsimp only at h; rw [if_pos he] at h
    split at h
    · cases h
    · split at h <;> cases h
  obtain ⟨v, hv, hr⟩ := fval_of_finite hf
  rw [h] at hv; cases hv
  refine ⟨hf, ?_⟩
  rw [hr]; field_simp

/-- The value of the positive normal pattern with significand `m` and `2^s` units between its neighbours. -/
theorem fval_normal  (s m : Nat) (h1 : 2 ^ 23 ≤ m) (h2 : m ≤ 2 ^ 24) (h3 : s * 2 ^ 23 + m < 0x7F800000) :
    fval (BitVec.ofNat 32 (s * 2 ^ 23 + m)) = .fin ((m * 2 ^ s : ℕ) : ℤ) := by
  have hlt : s * 2 ^ 23 + m < 2 ^ 31 := by omega
  set x := BitVec.ofNat 32 (s * 2 ^ 23 + m) with hx
  have hxn : x.toNat = s * 2 ^ 23 + m := by rw [hx, BitVec.toNat_ofNat, Nat.mod_eq_of_lt (by omega)]
  have hmsb : x.msb = false := by rw [BitVec.msb_eq_decide, decide_eq_false_iff_not, hxn]; omega
  have he : (x.extractLsb' 23 8).toNat = (s * 2 ^ 23 + m) / 2 ^ 23 := by
    rw [BitVec.extractLsb'_toNat, hxn, Nat.shiftRight_eq_div_pow, Nat.mod_eq_of_lt (by omega)]
  have hf : (x.extractLsb' 0 23).toNat = m % 2 ^ 23 := by
    rw [BitVec.extractLsb'_toNat, hxn, Nat.shiftRight_zero]; omega
  unfold fval; dsimp only
  rw [he, hf, hmsb, if_neg (by omega)]
  simp only [Bool.false_eq_true, if_false, FVal.fin.injEq, Nat.cast_inj]
  unfold fmag
  rw [if_neg (by omega)]
  rcases Nat.lt_or_ge m (2 ^ 24) with h | h
  · have a : (s * 2 ^ 23 + m) / 2 ^ 23 = s + 1 := by omega
    have b : 2 ^ 23 + m % 2 ^ 23 = m := by omega
    rw [a, b]; simp
  · have hm : m = 2 ^ 24 := by omega
    have a : (s * 2 ^ 23 + m) / 2 ^ 23 = s + 2 := by omega
    have b : 2 ^ 23 + m % 2 ^ 23 = 2 ^ 23 := by omega
    rw [a, b, hm, show s + 2 - 1 = s + 1 from rfl]; ring

/-- The value of a positive subnormal pattern. -/
theorem fval_subnormal (m : Nat) (h1 : m < 2 ^ 23) : fval (BitVec.ofNat 32 m) = .fin (m : ℤ) := by
  set x := BitVec.ofNat 32 m with hx
  have hxn : x.toNat = m := by rw [hx, BitVec.toNat_ofNat, Nat.mod_eq_of_lt (by omega)]
  have hmsb : x.msb = false := by rw [BitVec.msb_eq_decide, decide_eq_false_iff_not, hxn]; omega
  have he : (x.extractLsb' 23 8).toNat = 0 := by
    rw [BitVec.extractLsb'_toNat, hxn, Nat.shiftRight_eq_div_pow]; omega
  have hf : (x.extractLsb' 0 23).toNat = m := by
    rw [BitVec.extractLsb'_toNat, hxn, Nat.shiftRight_zero]; omega
  unfold fval; dsimp only
  rw [he, hf, hmsb, if_neg (by omega)]; simp [fmag]

/-- The value of the pattern `s × 2^23 + m`. -/
theorem fval_pattern (s m : Nat) (h1 : s = 0 ∨ 2 ^ 23 ≤ m) (h2 : m ≤ 2 ^ 24) (h3 : s * 2 ^ 23 + m < 0x7F800000) :
    fval (BitVec.ofNat 32 (s * 2 ^ 23 + m)) = .fin ((m * 2 ^ s : ℕ) : ℤ) := by
  rcases Nat.lt_or_ge m (2 ^ 23) with h | h
  · have : s = 0 := by omega
    subst this; simpa using fval_subnormal m h
  · exact fval_normal  s m h h2 h3

theorem fmag_lo (e f : Nat) (he : e ≠ 0) : 2 ^ 23 * 2 ^ (e - 1) ≤ fmag e f := by
  unfold fmag; rw [if_neg he]; exact Nat.mul_le_mul_right _ (by omega)
theorem fmag_hi (e f : Nat) (he : e ≠ 0) (hf : f < 2 ^ 23) : fmag e f < 2 ^ 23 * 2 ^ e := by
  unfold fmag; rw [if_neg he]
  obtain ⟨k, rfl⟩ : ∃ k, e = k + 1 := ⟨e - 1, by omega⟩
  rw [Nat.add_sub_cancel, pow_succ 2 k]
  have : 0 < 2 ^ k := by positivity
  calc (2 ^ 23 + f) * 2 ^ k < (2 ^ 23 * 2) * 2 ^ k := Nat.mul_lt_mul_of_pos_right (by omega) this
    _ = _ := by ring

/-- A larger exponent field is a larger magnitude. -/
theorem fmag_lt (e f e' f' : Nat) (hf : f < 2 ^ 23) (h : e < e') : fmag e f < fmag e' f' := by
  have lo := fmag_lo e' f' (by omega)
  rcases Nat.eq_zero_or_pos e with rfl | he
  · have : 2 ^ 23 * 1 ≤ 2 ^ 23 * 2 ^ (e' - 1) := Nat.mul_le_mul_left _ Nat.one_le_two_pow
    have h0 : fmag 0 f = f := rfl
    omega
  · have hi := fmag_hi e f (by omega) hf
    have : 2 ^ 23 * 2 ^ e ≤ 2 ^ 23 * 2 ^ (e' - 1) := Nat.mul_le_mul_left _ (Nat.pow_le_pow_right (by norm_num)
        (by omega))
    omega

/-- Different fields are different magnitudes. -/
theorem fmag_inj {e f e' f' : Nat} (hf : f < 2 ^ 23) (hf' : f' < 2 ^ 23) (h : fmag e f = fmag e' f') : e = e' ∧
    f = f' := by
  rcases Nat.lt_trichotomy e e' with g | g | g
  · have := fmag_lt e f e' f' hf g; omega
  · subst g; refine ⟨rfl, ?_⟩
    unfold fmag at h
    split at h
    · exact h
    · have := Nat.eq_of_mul_eq_mul_right (by positivity) h; omega
  · have := fmag_lt e' f' e f hf' g; omega

/-- A pattern is its sign, exponent and fraction fields. -/
theorem word_fields (x : Word) : x.toNat = (if x.msb then 2 ^ 31
    else 0) + (x.extractLsb' 23 8).toNat * 2 ^ 23 + (x.extractLsb' 0 23).toNat := by
  have := x.isLt
  rw [BitVec.extractLsb'_toNat, BitVec.extractLsb'_toNat, Nat.shiftRight_zero, Nat.shiftRight_eq_div_pow,
      BitVec.msb_eq_decide]
  by_cases h : 2 ^ (32 - 1) ≤ x.toNat
  · simp only [h, decide_true, if_true]; omega
  · simp only [h, decide_false, Bool.false_eq_true, if_false]; omega

theorem fval_fields {y : Word} {u : ℤ} (h : fval y = .fin u) :
    u = if y.msb then -(fmag (y.extractLsb' 23 8).toNat (y.extractLsb' 0 23).toNat :
        ℤ) else (fmag (y.extractLsb' 23 8).toNat (y.extractLsb' 0 23).toNat : ℤ) := by
  unfold fval at h; dsimp only at h
  split at h
  · split at h
    · cases h
    · split at h <;> cases h
  · cases h; rfl

/-- Only the two zeros share a value. -/
theorem fval_inj {x y : Word} {u : ℤ} (hx : fval x = .fin u) (hy : fval y = .fin u) (hu : u ≠ 0) : x = y := by
  have a := fval_fields hx
  have b := fval_fields hy
  have fx : (x.extractLsb' 0 23).toNat < 2 ^ 23 := BitVec.isLt _
  have fy : (y.extractLsb' 0 23).toNat < 2 ^ 23 := BitVec.isLt _
  have hs : x.msb = y.msb ∧ fmag (x.extractLsb' 23 8).toNat (x.extractLsb' 0 23).toNat = fmag
      (y.extractLsb' 23 8).toNat (y.extractLsb' 0 23).toNat := by
    cases hx : x.msb <;> cases hy : y.msb <;> simp only [hx, hy, if_true, Bool.false_eq_true, if_false] at a b <;>
        refine ⟨?_, ?_⟩ <;> first | rfl | omega
  obtain ⟨g1, g2⟩ := fmag_inj fx fy hs.2
  apply BitVec.eq_of_toNat_eq
  rw [word_fields x, word_fields y, hs.1, g1, g2]

/-- A finite value is a multiple of `2^s` units or lies below `2^23 × 2^s`. -/
theorem finite_on_grid {y : Word} {u : ℤ} (h : fval y = .fin u) (s : Nat) :
    (∃ j : ℤ, u = j * 2 ^ s) ∨ u < 2 ^ 23 * 2 ^ s := by
  have a := fval_fields h
  have fy : (y.extractLsb' 0 23).toNat < 2 ^ 23 := BitVec.isLt _
  generalize (y.extractLsb' 0 23).toNat = f at *
  generalize (y.extractLsb' 23 8).toNat = e at *
  have key : (∃ j : ℕ, fmag e f = j * 2 ^ s) ∨ fmag e f < 2 ^ 23 * 2 ^ s := by
    rcases Nat.eq_zero_or_pos e with rfl | he
    · right
      have h0 : fmag 0 f = f := rfl
      have : 2 ^ 23 * 1 ≤ 2 ^ 23 * 2 ^ s := Nat.mul_le_mul_left _ Nat.one_le_two_pow
      omega
    · rcases Nat.lt_or_ge s e with g | g
      · left
        refine ⟨(2 ^ 23 + f) * 2 ^ (e - 1 - s), ?_⟩
        unfold fmag; rw [if_neg (by omega), Nat.mul_assoc, ← pow_add]; congr 2; omega
      · right
        exact (fmag_hi e f (by omega) fy).trans_le (Nat.mul_le_mul_left _ (Nat.pow_le_pow_right (by norm_num) g))
  have hp : (0 : ℤ) < 2 ^ 23 * 2 ^ s := by positivity
  rcases key with ⟨j, hj⟩ | hk
  · left
    cases hy : y.msb <;> rw [hy] at a <;> simp only [if_true, Bool.false_eq_true, if_false] at a
    · exact ⟨j, by rw [a, hj]; push_cast; ring⟩
    · exact ⟨-j, by rw [a, hj]; push_cast; ring⟩
  · right
    have hk : (fmag e f : ℤ) < 2 ^ 23 * 2 ^ s := by exact_mod_cast hk
    cases hy : y.msb <;> rw [hy] at a <;> simp only [if_true, Bool.false_eq_true, if_false] at a <;> omega

/-! ## One rate for one rational (R234 Q1) -/

/-- Equal rationals have the same form in lowest terms. -/
theorem lowestTerms_congr {K K' : Ratio} (hn : 0 < K.num) (hd' : 0 < K'.den)
    (h : K'.num * K.den = K.num * K'.den) : lowestTerms K' = lowestTerms K := by
  have hg : 0 < K.num.gcd K.den := Nat.gcd_pos_of_pos_left _ hn
  have hg' : 0 < K'.num.gcd K'.den := Nat.gcd_pos_of_pos_right _ hd'
  have co := Nat.coprime_div_gcd_div_gcd hg
  have co' := Nat.coprime_div_gcd_div_gcd hg'
  have cross : K'.num / K'.num.gcd K'.den * (K.den / K.num.gcd K.den) =
      K.num / K.num.gcd K.den * (K'.den / K'.num.gcd K'.den) := by
    rw [Nat.div_mul_div_comm (Nat.gcd_dvd_left _ _) (Nat.gcd_dvd_right _ _), h,
      Nat.div_mul_div_comm (Nat.gcd_dvd_left _ _) (Nat.gcd_dvd_right _ _), Nat.mul_comm (K'.num.gcd K'.den)]
  unfold lowestTerms
  have e1 : K'.num / K'.num.gcd K'.den = K.num / K.num.gcd K.den :=
    Nat.dvd_antisymm (co'.dvd_of_dvd_mul_right (Dvd.intro _ cross)) (co.dvd_of_dvd_mul_right (Dvd.intro _ cross.symm))
  have hpos : 0 < K.num / K.num.gcd K.den := Nat.div_pos (Nat.gcd_le_left _ hn) hg
  rw [e1] at cross ⊢
  rw [Nat.eq_of_mul_eq_mul_left hpos cross]

/-- Rounding depends on the quotient only. -/
theorem roundHalfEven_mul {k : Nat} (hk : 0 < k) (n d : Nat) : roundHalfEven (k * n) (k * d) = roundHalfEven n d := by
  unfold roundHalfEven
  have e : 2 * (k * (n % d)) = k * (2 * (n % d)) := by ring
  simp only [Nat.mul_div_mul_left _ _ hk, Nat.mul_mod_mul_left, e, Nat.mul_lt_mul_left hk]

/-- The nearest pattern depends on the quotient only. -/
theorem nearestF32_mul {k : Nat} (hk : 0 < k) (n d : Nat) : nearestF32 (k * n) (k * d) = nearestF32 n d := by
  unfold nearestF32
  simp only [Nat.mul_assoc, Nat.mul_div_mul_left _ _ hk, roundHalfEven_mul hk]

/-- The normal range is a condition on the quotient only. -/
theorem normalRange_mul {k : Nat} (hk : 0 < k) (n d : Nat) : normalRange (k * n) (k * d) = normalRange n d := by
  unfold normalRange
  simp only [Nat.mul_assoc, Nat.mul_le_mul_left_iff hk]

/-- The tolerance is a condition on the quotient only. -/
theorem withinTolerance_mul {k : Nat} (hk : 0 < k) (r : Word) (n d : Nat) :
    withinTolerance r (k * n) (k * d) = withinTolerance r n d := by
  unfold withinTolerance
  split
  · next u _ =>
    have e : u * ((k * d : Nat) : Int) - ((k * n * oneUnits : Nat) : Int) =
        (k : Int) * (u * (d : Int) - ((n * oneUnits : Nat) : Int)) := by push_cast; ring
    rw [e, Int.natAbs_mul, Int.natAbs_natCast]
    simp only [Nat.mul_assoc, Nat.mul_le_mul_left_iff hk]
  all_goals rfl

/-- What `flowRate` asks of the exact quotient is the same for two ways to write it. -/
theorem quotient_congr {n d n' d' : Nat} (hd : 0 < d) (hd' : 0 < d') (h : n' * d = n * d') :
    nearestF32 n' d' = nearestF32 n d ∧ normalRange n' d' = normalRange n d ∧
    ∀ r, withinTolerance r n' d' = withinTolerance r n d := by
  have a : d * n' = d' * n := by rw [Nat.mul_comm, h, Nat.mul_comm]
  have b : d * d' = d' * d := Nat.mul_comm _ _
  refine ⟨?_, ?_, fun r => ?_⟩
  · rw [← nearestF32_mul hd n' d', a, b, nearestF32_mul hd']
  · rw [← normalRange_mul hd n' d', a, b, normalRange_mul hd']
  · rw [← withinTolerance_mul hd r n' d', a, b, withinTolerance_mul hd']

/-! ## The nearest pattern (R235) -/

/-- The nearestF32_scale `s` and significand `m` that `nearestF32` takes. -/
theorem nearestF32_scale (n d : Nat) (hd : 0 < d) : ∃ s m : Nat, s = Nat.log2 (n * 2 ^ 149 / d) - 23 ∧
    m = roundHalfEven (n * 2 ^ 149) (d * 2 ^ s) ∧
    (s = 0 ∨ 2 ^ 23 * (d * 2 ^ s) ≤ n * 2 ^ 149) ∧ n * 2 ^ 149 < 2 ^ 24 * (d * 2 ^ s) ∧ (s = 0 ∨ 2 ^ 23 ≤ m) ∧
        m ≤ 2 ^ 24 := by
  refine ⟨_, _, rfl, rfl, ?_⟩
  set N := n * 2 ^ 149
  set L := Nat.log2 (N / d) with hLd
  have hL' := Nat.lt_log2_self (n := N / d)
  have hd2 : 0 < d * 2 ^ (L - 23) := by positivity
  have e1 : L - 23 = 0 ∨ 2 ^ 23 * (d * 2 ^ (L - 23)) ≤ N := by
    rcases Nat.eq_zero_or_pos (L - 23) with h | h
    · exact .inl h
    · right
      have hu0 : N / d ≠ 0 := by intro h0; rw [h0, Nat.log2_zero] at hLd; omega
      have hL := Nat.log2_self_le hu0
      have : 2 ^ L * d ≤ N := (Nat.le_div_iff_mul_le hd).mp hL
      calc 2 ^ 23 * (d * 2 ^ (L - 23)) = 2 ^ (L - 23 + 23) * d := by rw [pow_add]; ring
        _ ≤ N := by rw [show L - 23 + 23 = L by omega]; exact this
  have e2 : N < 2 ^ 24 * (d * 2 ^ (L - 23)) := by
    have h1 : N < 2 ^ (L + 1) * d := (Nat.div_lt_iff_lt_mul hd).mp hL'
    have h2 : 2 ^ (L + 1) ≤ 2 ^ (L - 23 + 24) := Nat.pow_le_pow_right (by norm_num) (by omega)
    calc N < 2 ^ (L + 1) * d := h1
      _ ≤ 2 ^ (L - 23 + 24) * d := Nat.mul_le_mul_right _ h2
      _ = _ := by rw [pow_add]; ring
  refine ⟨e1, e2, ?_, ?_⟩
  · rcases e1 with h | h
    · exact .inl h
    · exact .inr (roundHalfEven_range N _ (2 ^ 23) (2 ^ 24) hd2 h e2.le).1
  · exact (roundHalfEven_range N _ 0 (2 ^ 24) hd2 (by omega) e2.le).2

theorem nearestF32_eq (n d s m : Nat) (hs : s = Nat.log2 (n * 2 ^ 149 / d) - 23) (hm :
    m = roundHalfEven (n * 2 ^ 149) (d * 2 ^ s)) :
    nearestF32 n d = BitVec.ofNat 32 (min (s * 2 ^ 23 + m) 0x7F800000) := by
  subst hs; subst hm; rfl

/-- No finite pattern is nearer to `n / d` than `m × 2^s`, and where another is as near `m` is even. -/
theorem significand_nearest (n d s m : Nat) (hd : 0 < d) (hm : m = roundHalfEven (n * 2 ^ 149) (d * 2 ^ s))
    (h1 : s = 0 ∨ 2 ^ 23 * (d * 2 ^ s) ≤ n * 2 ^ 149) {y : Word} {u : ℤ} (hu : fval y = .fin u) :
    |((m * 2 ^ s : ℕ) : ℤ) * d - (n * 2 ^ 149 : ℕ)| ≤ |u * d - (n * 2 ^ 149 : ℕ)| ∧
    (|u * d - (n * 2 ^ 149 : ℕ)| = |((m * 2 ^ s : ℕ) : ℤ) * d - (n * 2 ^ 149 : ℕ)| →
        u = (m * 2 ^ s : ℕ) ∨ m % 2 = 0) := by
  have hd2 : 0 < d * 2 ^ s := by positivity
  have near := roundHalfEven_nearest (n * 2 ^ 149) (d * 2 ^ s) hd2
  rw [← hm] at near
  have em : ((m * 2 ^ s : ℕ) : ℤ) * d = (m : ℤ) * ((d * 2 ^ s : ℕ) : ℤ) := by push_cast; ring
  rw [em]
  have multiple : ∀ j : ℤ, u = j * 2 ^ s → _ := fun j hj => by
    have eu : u * d = j * ((d * 2 ^ s : ℕ) : ℤ) := by rw [hj]; push_cast; ring
    have := near j
    rw [← eu] at this
    exact (⟨this.1, fun h => (this.2 h).imp (fun e => by rw [hj, e]; push_cast; ring) id⟩ :
      |(m : ℤ) * ((d * 2 ^ s : ℕ) : ℤ) - (n * 2 ^ 149 : ℕ)| ≤ |u * d - (n * 2 ^ 149 : ℕ)| ∧
      (|u * d - (n * 2 ^ 149 : ℕ)| = |(m : ℤ) * ((d * 2 ^ s : ℕ) : ℤ) - (n * 2 ^ 149 : ℕ)| →
          u = (m * 2 ^ s : ℕ) ∨ m % 2 = 0))
  rcases finite_on_grid hu s with ⟨j, hj⟩ | hlt
  · exact multiple j hj
  · rcases h1 with h0 | h1
    · exact multiple u (by rw [h0]; simp)
    · have := (near (2 ^ 23)).1
      have hdz : (0 : ℤ) < d := by exact_mod_cast hd
      have hlt' : u * d < 2 ^ 23 * ((d * 2 ^ s : ℕ) : ℤ) := by
        calc u * d < 2 ^ 23 * 2 ^ s * d := mul_lt_mul_of_pos_right hlt hdz
          _ = _ := by push_cast; ring
      have h1' : 2 ^ 23 * ((d * 2 ^ s : ℕ) : ℤ) ≤ ((n * 2 ^ 149 : ℕ) : ℤ) := by exact_mod_cast h1
      simp only [Int.abs_eq_natAbs] at *
      generalize (m : ℤ) * ((d * 2 ^ s : ℕ) : ℤ) = A at *
      generalize (2 : ℤ) ^ 23 * ((d * 2 ^ s : ℕ) : ℤ) = B at *
      generalize u * (d : ℤ) = C at *
      generalize ((n * 2 ^ 149 : ℕ) : ℤ) = E at *
      omega

/-- The distance of a value from `n / d`, over whole numbers. -/
theorem abs_sub_units (u : ℤ) (n d : Nat) (hd : 0 < d) :
    |(u : ℚ) / 2 ^ 149 - (n : ℚ) / d| = ((|u * d - (n * 2 ^ 149 : ℕ)| : ℤ) : ℚ) / (d * 2 ^ 149) := by
  have hDq : (0 : ℚ) < d := by exact_mod_cast hd
  have e : (u : ℚ) / 2 ^ 149 - (n : ℚ) / d = ((u : ℚ) * d - (n : ℚ) * 2 ^ 149) / ((d : ℚ) * 2 ^ 149) := by field_simp
  have hpp : (0 : ℚ) < d * 2 ^ 149 := by positivity
  rw [e, abs_div, abs_of_pos hpp]; push_cast; rfl

theorem pattern_lt_infinity (m s : Nat) (h1 : m ≤ 2 ^ 24) (h2 : s ≤ 253) (h3 : s = 253 →
    m ≤ 2 ^ 24 - 1) : s * 2 ^ 23 + m < 0x7F800000 := by omega

theorem half_way_up (z N w : Nat) (hw : w = (2 ^ 24 - 1) * z) (hge : (2 ^ 25 - 1) * z ≤ N)
    (n1 : ((2 * (w : ℤ) - N).natAbs : ℤ) ≤ (((2 : ℤ) ^ 24 * ((2 * z : ℕ) : ℤ) - N).natAbs))
    (q : ¬ ((((2 : ℤ) ^ 24 * ((2 * z : ℕ) : ℤ) - N).natAbs : ℤ) = (2 * (w : ℤ) - N).natAbs)) : False := by omega
theorem half_way_far (z N w : Nat) (hz : 0 < z) (h : w + 1 * z ≤ (2 ^ 24 - 1) * z) (hge : (2 ^ 25 - 1) * z ≤ N)
    (n1 : ((2 * (w : ℤ) - N).natAbs : ℤ) ≤ (((2 : ℤ) ^ 24 * ((2 * z : ℕ) : ℤ) - N).natAbs)) : False := by omega

/-- Everything `nearestF32` can answer: below `2^128 − 2^103` (in units,
    over the denominator) the pattern of the rounded
significand `m` at nearestF32_scale `s`, from there on +∞. -/
theorem nearestF32_cases (n d : Nat) (hd : 0 < d) :
    (∃ s m, n * 2 ^ 149 < (2 ^ 25 - 1) * (d * 2 ^ 252) ∧ m = roundHalfEven (n * 2 ^ 149) (d * 2 ^ s) ∧
      (s = 0 ∨ 2 ^ 23 * (d * 2 ^ s) ≤ n * 2 ^ 149) ∧ s = Nat.log2 (n * 2 ^ 149 / d) - 23 ∧
      s * 2 ^ 23 + m < 0x7F800000 ∧ (nearestF32 n d).toNat = s * 2 ^ 23 + m ∧
      fval (nearestF32 n d) = .fin ((m * 2 ^ s : ℕ) : ℤ)) ∨
    ((2 ^ 25 - 1) * (d * 2 ^ 252) ≤ n * 2 ^ 149 ∧ nearestF32 n d = 0x7F800000) := by
  obtain ⟨s, m, hs, hm, b1, b2, b3, b4⟩ := nearestF32_scale n d hd
  have hpat := nearestF32_eq n d s m hs hm
  have hd2 : 0 < d * 2 ^ s := by positivity
  obtain ⟨P, hP⟩ : ∃ P : Nat, P = 2 ^ 252 := ⟨_, rfl⟩
  have hP0 : 0 < P := by rw [hP]; exact Nat.pow_pos (by norm_num)
  rw [← hP]
  rcases Nat.lt_or_ge (n * 2 ^ 149) ((2 ^ 25 - 1) * (d * P)) with hlt | hge
  · left
    have hs253 : s ≤ 253 := by
      by_contra h
      rcases b1 with h0 | b1
      · omega
      have h254 : 4 * P ≤ 2 ^ s := by
        rw [hP]; calc 4 * 2 ^ 252 = 2 ^ 254 := by norm_num
          _ ≤ 2 ^ s := Nat.pow_le_pow_right (by norm_num) (by omega)
      have k : 2 ^ 23 * (d * (4 * P)) ≤ n * 2 ^ 149 := (Nat.mul_le_mul_left _ (Nat.mul_le_mul_left _ h254)).trans b1
      rw [show 2 ^ 23 * (d * (4 * P)) = 2 ^ 25 * (d * P) by ring] at k
      omega
    have hm253 : s = 253 → m ≤ 2 ^ 24 - 1 := by
      intro h
      obtain ⟨x1, x2⟩ := roundHalfEven_bound (n * 2 ^ 149) (d * 2 ^ s) hd2
      have hDs : d * 2 ^ s = 2 * (d * P) := by rw [h, hP]; ring
      have nr := (roundHalfEven_nearest (n * 2 ^ 149) (d * 2 ^ s) hd2 (2 ^ 24 - 1)).1
      rw [← hm] at x1 x2 nr
      by_contra hc
      have hm24 : m = 2 ^ 24 := by omega
      rw [hm24, hDs] at nr
      rw [hm24, hDs] at x1
      simp only [Int.abs_eq_natAbs] at nr
      push_cast at nr
      generalize d * P = z at *
      omega
    have hlt2 : s * 2 ^ 23 + m < 0x7F800000 := pattern_lt_infinity m s b4 hs253 hm253
    rw [Nat.min_eq_left hlt2.le] at hpat
    have hf := fval_pattern s m b3 b4 hlt2
    rw [← hpat] at hf
    have htn : (nearestF32 n d).toNat = s * 2 ^ 23 + m := by rw [hpat, BitVec.toNat_ofNat]; omega
    exact ⟨s, m, hlt, hm, b1, hs, hlt2, htn, hf⟩
  · right
    refine ⟨hge, ?_⟩
    have : 0x7F800000 ≤ s * 2 ^ 23 + m := by
      have h252 : 252 < s := by
        by_contra h
        have : 2 ^ s ≤ P := by rw [hP]; exact Nat.pow_le_pow_right (by norm_num) (by omega)
        have k := Nat.mul_le_mul_left (2 ^ 24) (Nat.mul_le_mul_left d this)
        have : 0 < d * P := by positivity
        generalize d * P = z at *
        omega
      rcases b3 with h | h
      · omega
      · by_cases h253 : s = 253
        · have hDs : d * 2 ^ s = 2 * (d * P) := by rw [h253, hP]; ring
          obtain ⟨n1, n2⟩ := roundHalfEven_nearest (n * 2 ^ 149) (d * 2 ^ s) hd2 (2 ^ 24)
          rw [← hm, hDs] at n1 n2
          have hzp : 0 < d * P := by positivity
          have x := hm
          by_contra hc
          have hm' : m ≤ 2 ^ 24 - 1 := by omega
          rw [hDs] at b2
          have hmul : m * (d * P) ≤ (2 ^ 24 - 1) * (d * P) := Nat.mul_le_mul_right _ hm'
          have ecast : (m : ℤ) * ((2 * (d * P) : ℕ) : ℤ) = 2 * ((m * (d * P) : ℕ) : ℤ) := by push_cast; ring
          rw [ecast] at n1 n2
          obtain ⟨w, hw⟩ : ∃ w, w = m * (d * P) := ⟨_, rfl⟩
          rw [← hw] at hmul n1 n2
          simp only [Int.abs_eq_natAbs] at n1 n2
          by_cases hmm : m = 2 ^ 24 - 1
          · have hwv : w = (2 ^ 24 - 1) * (d * P) := by rw [hw, hmm]
            rcases (Classical.em ((((2 : ℤ) ^ 24 * ((2 * (d * P) : ℕ) : ℤ) - (n * 2 ^ 149 : ℕ)).natAbs :
                ℤ) = (2 * (w : ℤ) - (n * 2 ^ 149 : ℕ)).natAbs)) with q | q
            · rcases n2 q with e | e <;> omega
            · exact half_way_up _ _ _ hwv hge n1 q
          · have : m + 1 ≤ 2 ^ 24 - 1 := by omega
            have h2 := Nat.mul_le_mul_right (d * P) this
            rw [Nat.add_mul, ← hw] at h2
            exact half_way_far _ _ _ hzp h2 hge n1
        · omega
    rw [hpat, Nat.min_eq_right this]; rfl

end Sys2Proof.Machine
end

