-- ==== Sys2Proof/Laws/Receive.lean ====
section
/-! SUPPORT. RXBYTE put together (R150): the byte that stands for a logical byte, the position operation presented
alone, and routing under an emitted packet. -/

namespace Sys2Proof.Machine

open Sys2Proof

/-- The 16-bit comparison of DEC.CKHI in arithmetic. -/
theorem pair_eq_iff (b c : Byte) (k : Half) : b.toNat * 256 + c.toNat = k.toNat ↔ (b ++ c : Half) = k := by
  rw [← pair_toNat]
  exact ⟨BitVec.eq_of_toNat_eq, fun h => by rw [h]⟩

/-- A byte that stands for a logical byte, other than a raw start marker, is dispatched with `esc = 0`. -/
theorem rxbyte_dispatch {w b : Byte} (now : Word) {s : State} (h : standsFor s.dec.esc w b) (hw : w ≠ 0xFE#8) :
    exec (.rxbyte w now) s = andThen (dispatch b w (setEsc false s.begin)) (routeEmitted now) := by
  simp only [exec, execRxbyte, logicalOf_standsFor h]
  rw [receiveSymbol_standsFor (b := b) (by exact h) hw]

/-- A position operation presented alone is the dispatch, where the position is the selected one. -/
theorem exec_positionInstr (q : Position) (b w : Byte) (s : State) :
    exec (positionInstr q b w) s =
      if positionOf s.dec = some q then dispatch b w s.begin else .refused .notSelected := by
  by_cases h : positionOf s.dec = some q
  · have hb : positionOf s.begin.dec = some q := h
    cases q <;> simp [positionInstr, exec, execDecWait, execDecLenlo, execDecLenhi, execDecType, execDecPayload,
      execDecCklo, execDecCkhi, atPosition, h, dispatch]
  · cases q <;> simp [positionInstr, exec, execDecWait, execDecLenlo, execDecLenhi, execDecType, execDecPayload,
      execDecCklo, execDecCkhi, atPosition, h]

/-! ## Routing does not see the emitted packet -/

theorem latchSetpoints_emitPkt (s0 s1 : Half) (now : Word) (Q : Packet) (s : State) :
    latchSetpoints s0 s1 now (emitPkt Q s) = emitPkt Q (latchSetpoints s0 s1 now s) := by
  by_cases h : s0 ≠ s.pump.sp0 ∨ s1 ≠ s.pump.sp1
  · unfold latchSetpoints; rw [if_pos h, if_pos (by exact h)]; rfl
  · unfold latchSetpoints; rw [if_neg h, if_neg (by exact h)]

theorem pumpFields_emitPkt (a b now : Word) (Q : Packet) (s : State) :
    pumpFields a b now (emitPkt Q s) = emitPkt Q (pumpFields a b now s) := by
  unfold pumpFields
  rw [emitPkt_cfg]
  cases pwmConv s.cfg a with
  | none => rfl
  | some s0 =>
    cases pwmConv s.cfg b with
    | none => rfl
    | some s1 => exact latchSetpoints_emitPkt s0 s1 now Q s

theorem routePacket_emitPkt (P Q : Packet) (now : Word) (s : State) :
    routePacket P now (emitPkt Q s) = andThen (routePacket P now s) (fun t => .next (emitPkt Q t)) := by
  unfold routePacket
  by_cases ht : (P.type, P.length) ∈ s.cfg.routeTable
  · rw [if_pos ht, if_pos (by exact ht)]
    by_cases hp : P.type = typePump ∧ P.length = pumpLen
    · rw [if_pos hp, if_pos hp]
      unfold pumpCommand
      cases field32 P.payload 0 with
      | none => rfl
      | some a =>
        cases field32 P.payload 4 with
        | none => rfl
        | some b => exact congrArg Host.Outcome.next (pumpFields_emitPkt a b now Q s)
    · rw [if_neg hp, if_neg hp]; rfl
  · rw [if_neg ht, if_neg (by exact ht)]; rfl

end Sys2Proof.Machine
end

