-- ==== Sys2Proof/Tests/Slice0.lean ====
section
/-! SUPPORT. The model's own tests: ill-formed operands refused, words written from the spec decoded, one step per
vector of `95_test_vectors.md` (its name is in each comment), and a witness for every statement that has hypotheses. -/

namespace Sys2Proof.Tests

open Sys2Proof Sys2Proof.Machine

/-- The next state of an answer. -/
def after (r : Result) : Option State :=
  match r with
  | .next s => some s
  | .fault _ => none
  | .refused _ => none

/-- The block of the vectors (the example configuration), after `RESET @0`. -/
def s0 : State := State.initial Config.example 0

/-- `s0` with the decoder's registers given. -/
def atDec (esc : Bool) (p : Pos) (len ck : Half) (cklo : Byte) (payload : Memory) : State :=
  s0.withDec ⟨esc, p, len, 0, ck, cklo, payload⟩

/-- The pump payload 0.0, 1.0 of S1. -/
def s1Payload : List Byte := [0x00, 0x00, 0x00, 0x00, 0x00, 0x00, 0x80, 0x3F]

/-- The decoder of S1 before its last byte. -/
def s1Last : State :=
  s0.withDec ⟨false, 13, 8, 3, 0x01C8, 0xC8,
    [(0, 0), (1, 0), (2, 0), (3, 0), (4, 0), (5, 0), (6, 0x80), (7, 0x3F)]⟩

/-- A `t_cmd` of 1000 mid-ramp: the start of W1 and W2. -/
def sW : State := s0.withPump { s0.pump with tCmd := 1000, sp0 := 2000, out0 := 1730 }

/-! ## Ill-formed terms, one for each check -/

theorem test_ill_sensor : violation (.pulse 3) = some .sensorRange := by decide
theorem test_ill_sample : violation (.sample 18 0) = some .sampleRange := by decide
theorem test_ill_length_range : violation (.print 1025 []) = some .lengthRange := by decide
theorem test_ill_length_mismatch : violation (.txframe 2 2 [0x48]) = some .lengthMismatch := by decide
theorem test_ill_wire_class : violation (.wLit 0xEE) = some .wireClass := by decide
theorem test_ill_escbad_class : violation (.wEscbad 0x01) = some .wireClass := by decide
theorem test_ill_logical_byte : violation (.decWait 0xFE 0x41) = some .logicalByte := by decide
theorem test_ill_pump_packet : violation (.pumpcmd ⟨1, 8, s1Payload⟩ 0) = some .notPumpPacket := by decide

/-! ## Words written out: event codes of R110, the table's words for W.START and W.ESC, little-endian operands (R62) -/

theorem test_decode_reset : decode [0x00, 0x88, 0x13, 0x00, 0x00] = .ok (.reset 5000, []) := by decide
theorem test_decode_rxbyte : decode [0x01, 0xFE, 0x0A, 0x00, 0x00, 0x00] = .ok (.rxbyte 0xFE 10, []) := by decide
theorem test_decode_tick : decode [0x02, 0x64, 0xFF, 0xFF, 0xFF] = .ok (.tick 0xFFFFFF64, []) := by decide
theorem test_decode_pulse : decode [0x03, 0x02, 0x07] = .ok (.pulse 2, [0x07]) := by decide
theorem test_decode_sample : decode [0x04, 0x06, 0x44, 0x33, 0x22, 0x11] = .ok (.sample 6 0x11223344, []) := by decide
theorem test_decode_print : decode [0x05, 0x02, 0x00, 0x48, 0x69] = .ok (.print 2 [0x48, 0x69], []) := by decide
theorem test_decode_wStart : decode [0xFE] = .ok (.wStart, []) := by decide
theorem test_decode_wEsc : decode [0xEE] = .ok (.wEsc, []) := by decide
theorem test_decode_wLit : decode [0x83, 0x41] = .ok (.wLit 0x41, []) := by decide
theorem test_decode_wEsc0 : decode [0x84] = .ok (.wEsc0, []) := by decide
theorem test_decode_wEsc1 : decode [0x85] = .ok (.wEsc1, []) := by decide
theorem test_decode_wEscbad : decode [0x86, 0x02] = .ok (.wEscbad 0x02, []) := by decide
theorem test_decode_decWait : decode [0x90, 0xFE, 0x00] = .ok (.decWait 0xFE 0x00, []) := by decide
theorem test_decode_decLenlo : decode [0x91, 0x08] = .ok (.decLenlo 0x08, []) := by decide
theorem test_decode_decLenhi : decode [0x92, 0x04] = .ok (.decLenhi 0x04, []) := by decide
theorem test_decode_decType : decode [0x93, 0x03] = .ok (.decType 0x03, []) := by decide
theorem test_decode_decPayload : decode [0x94, 0x3F] = .ok (.decPayload 0x3F, []) := by decide
theorem test_decode_decCklo : decode [0x95, 0xC8] = .ok (.decCklo 0xC8, []) := by decide
theorem test_decode_decCkhi : decode [0x96, 0x01] = .ok (.decCkhi 0x01, []) := by decide
theorem test_decode_unesc : decode [0xA0, 0xEE] = .ok (.unesc 0xEE, []) := by decide
theorem test_decode_route :
    decode [0xA1, 0x07, 0x01, 0x00, 0x01, 0x28, 0x00, 0x00, 0x00] = .ok (.route ⟨7, 1, [0x01]⟩ 40, []) := by decide
theorem test_decode_pumpcmd :
    decode ([0xA2, 0x03, 0x08, 0x00] ++ s1Payload ++ [0x32, 0x00, 0x00, 0x00]) =
      .ok (.pumpcmd ⟨3, 8, s1Payload⟩ 50, []) := by decide
theorem test_decode_wdog : decode [0xA3, 0xA0, 0x0E, 0x00, 0x00] = .ok (.wdog 0xEA0, []) := by decide
theorem test_decode_ramp : decode [0xA4, 0x64, 0x00, 0x00, 0x00] = .ok (.ramp 100, []) := by decide
theorem test_decode_flowagg : decode [0xA5, 0xE8, 0x03, 0x00, 0x00] = .ok (.flowagg 1000, []) := by decide
theorem test_decode_telem : decode [0xA6, 0x0A, 0x00, 0x00, 0x00] = .ok (.telem 10, []) := by decide
theorem test_decode_escape : decode [0xA7, 0xFE] = .ok (.escape 0xFE, []) := by decide
theorem test_decode_txframe : decode [0xA8, 0x02, 0x01, 0x00, 0xEE] = .ok (.txframe 2 1 [0xEE], []) := by decide
theorem test_decode_pktData :
    decode (0xB1 :: (List.replicate 92 0xEE ++ [0x01, 0x00, 0x00, 0x00])) =
      .ok (.pktData (List.replicate 92 0xEE) 1, []) := by decide
theorem test_decode_pktPrint :
    decode [0xB2, 0x00, 0x00, 0x0A, 0x00, 0x00, 0x00] = .ok (.pktPrint 0 [] 10, []) := by decide
theorem test_decode_pktPump :
    decode (0xB3 :: (s1Payload ++ [0x32, 0x00, 0x00, 0x00])) = .ok (.pktPump s1Payload 50, []) := by decide
theorem test_decode_unused_event : decode [0x06] = .error (.unusedEventCode 6) := by decide
theorem test_decode_truncated : decode [0x02, 0x00] = .error .truncated := by decide

/-! ## Table words: an event's operands are zero, the code's bits above bit 3 are not read -/

theorem test_table_reset : decodeTableWord 8 0x00 = some (.reset 0) := by decide
theorem test_table_sample : decodeTableWord 8 0x14 = some (.sample 0 0) := by decide
theorem test_table_print : decodeTableWord 8 0x25 = some (.print 0 []) := by decide
theorem test_table_wStart : decodeTableWord 8 0xFE = some .wStart := by decide
theorem test_fetch_word : (after (step (s0.withFetchWord 8 0x03))).map (fun t => t.flow.cnt) = some #v[1, 0, 0] := by
  decide

/-! ## Wire symbols and the coder (families E and U) -/

/-- E7 -/
theorem test_escape_start : (after (exec (.escape 0xFE) s0)).map (fun t => t.out.coded) = some [0xEE, 0x00] := by decide
/-- E6 -/
theorem test_escape_lit : (after (exec (.escape 0xFD) s0)).map (fun t => t.out.coded) = some [0xFD] := by decide
/-- U2, first byte -/
theorem test_unesc_arm :
    (after (exec (.unesc 0xEE) s0)).map (fun t => (t.dec.esc, t.out.logical)) = some (true, none) := by decide
/-- U7, second byte -/
theorem test_unesc_bad :
    (after (exec (.unesc 0xEE) (atDec true 4 1 0 0 []))).map (fun t => (t.dec.esc, t.out.logical, t.out.unescErr)) =
      some (false, none, true) := by decide
/-- R92, the resync of W.START -/
theorem test_wStart :
    (after (exec .wStart (atDec false 3 8 0 0 []))).map (fun t => (t.dec.p, t.out.logical)) = some (0, some 0xFE) := by
  decide
/-- R92 -/
theorem test_wEsc : (after (exec .wEsc s0)).map (fun t => (t.dec.esc, t.out.logical)) = some (true, none) := by decide
/-- U5 -/
theorem test_wLit : (after (exec (.wLit 0x01) s0)).map (fun t => t.out.logical) = some (some 0x01) := by decide
/-- U2 -/
theorem test_wEsc0 :
    (after (exec .wEsc0 (atDec true 0 0 0 0 []))).map (fun t => (t.dec.esc, t.out.logical)) =
      some (false, some 0xFE) := by decide
/-- U3 -/
theorem test_wEsc1 :
    (after (exec .wEsc1 (atDec true 0 0 0 0 []))).map (fun t => (t.dec.esc, t.out.logical)) =
      some (false, some 0xEE) := by decide
/-- X14: 0xFE after an escape marker -/
theorem test_wEscbad :
    (after (exec (.wEscbad 0xFE) (atDec true 3 2 0 0 []))).map (fun t => (t.dec.p, t.dec.esc, t.stat.nEscErr)) =
      some (0, false, 1) := by decide

/-! ## The decoder (S1 and family X) -/

/-- X13: a start marker by escape does not start a frame -/
theorem test_decWait_escaped :
    (after (exec (.decWait 0xFE 0x00) s0)).map (fun t => (t.dec.p, t.dec.ck)) = some (0, 0x00FE) := by decide
/-- S1 -/
theorem test_decWait_start :
    (after (exec (.decWait 0xFE 0xFE) s0)).map (fun t => (t.dec.p, t.dec.ck)) = some (1, 0x00FE) := by decide
/-- X6: `len` goes 0x0401 to 0x0400 -/
theorem test_decLenlo :
    (after (exec (.decLenlo 0x00) (atDec false 1 0x0401 0x00FE 0 []))).map (fun t => (t.dec.p, t.dec.len)) =
      some (2, 0x0400) := by decide
/-- X6: 1025 is over-size -/
theorem test_decLenhi_oversize :
    (after (exec (.decLenhi 0x04) (atDec false 2 0x0001 0x00FF 0 []))).map
        (fun t => (t.dec.p, t.dec.ck, t.out.events)) = some (0, 0x0103, [.oversize 0x0401]) := by decide
/-- X5: 1024 is not -/
theorem test_decLenhi_largest :
    (after (exec (.decLenhi 0x04) (atDec false 2 0x0000 0x00FE 0 []))).map (fun t => (t.dec.p, t.dec.ck)) =
      some (3, 0x0102) := by decide
/-- X5 -/
theorem test_decType :
    (after (exec (.decType 0x02) (atDec false 3 0x0400 0x0102 0 []))).map (fun t => (t.dec.p, t.dec.ck, t.dec.typ)) =
      some (4, 0x0104, 0x02) := by decide
/-- S1, the seventh payload byte -/
theorem test_decPayload :
    (after (exec (.decPayload 0x80) (atDec false 10 8 0x0109 0 []))).map
        (fun t => (t.dec.p, t.dec.ck, t.dec.payload)) = some (11, 0x0189, [(6, 0x80)]) := by decide
/-- S1 -/
theorem test_decCklo :
    (after (exec (.decCklo 0xC8) (atDec false 12 8 0x01C8 0 []))).map (fun t => (t.dec.p, t.dec.ck, t.dec.cklo)) =
      some (13, 0x01C8, 0xC8) := by decide
/-- S1 -/
theorem test_decCkhi_emits :
    (after (exec (.decCkhi 0x01) s1Last)).map (fun t => (t.dec.p, t.out.pkt)) = some (0, some ⟨3, 8, s1Payload⟩) := by
  decide
/-- X9 -/
theorem test_decCkhi_discards :
    (after (exec (.decCkhi 0x00) s1Last)).map (fun t => (t.dec.p, t.out.pkt, t.stat.nCkErr)) =
      some (0, none, 1) := by decide
/-- S1: the last byte routes the packet in the same operation -/
theorem test_rxbyte_completes :
    (after (exec (.rxbyte 0x01 50) s1Last)).map (fun t => (t.pump.sp0, t.pump.sp1, t.pump.tCmd, t.pump.out0)) =
      some (1000, 2000, 50, 1500) := by decide
/-- X12: a second start marker resyncs without an event -/
theorem test_rxbyte_resync :
    (after (exec (.rxbyte 0xFE 0) (atDec false 3 8 0x0106 0 []))).map (fun t => (t.dec.p, t.dec.ck, t.out.events)) =
      some (1, 0x00FE, []) := by decide

/-! ## The encoder (family T) -/

/-- T6: an escaped type byte and an escaped payload byte -/
theorem test_txframe_escaped :
    (after (exec (.txframe 0xFE 1 [0xEE]) s0)).map (fun t => t.out.tx) =
      some [0xFE, 0x01, 0x00, 0xEE, 0x00, 0xEE, 0x01, 0xEB, 0x02] := by decide
/-- T1 -/
theorem test_txframe_pump :
    (after (exec (.txframe 3 8 s1Payload) s0)).map (fun t => t.tx) =
      some [0xFE, 0x08, 0x00, 0x03, 0x00, 0x00, 0x00, 0x00, 0x00, 0x00, 0x80, 0x3F, 0xC8, 0x01] := by decide
/-- L8 -/
theorem test_print :
    (after (exec (.print 2 [0x48, 0x69]) s0)).map (fun t => t.tx) =
      some [0xFE, 0x02, 0x00, 0x02, 0x48, 0x69, 0xB3, 0x01] := by decide

/-! ## Router and pump (families K, C, W, M) -/

/-- K2: a type-3 packet of the wrong length -/
theorem test_route_drop :
    (after (exec (.route ⟨3, 4, [0x00, 0x00, 0x00, 0x3F]⟩ 40) s0)).map (fun t => (t.stat.nRouteDrop, t.pump)) =
      some (1, s0.pump) := by decide
/-- C30 -/
theorem test_pktPump :
    (after (exec (.pktPump s1Payload 2000) s0)).map (fun t => (t.pump.sp0, t.pump.sp1, t.pump.tCmd)) =
      some (1000, 2000, 2000) := by decide
/-- K4 -/
theorem test_pktData :
    (after (exec (.pktData (List.replicate 92 0xEE) 1) s0)).map (fun t => t.out.events) =
      some [.routeDrop 1 92] := by decide
/-- X1 -/
theorem test_pktPrint :
    (after (exec (.pktPrint 0 [] 1) s0)).map (fun t => t.out.events) = some [.routeDrop 2 0] := by decide
/-- C34: a NaN field rejects the packet whole -/
theorem test_pumpcmd_nan :
    (after (exec (.pumpcmd ⟨3, 8, [0x00, 0x00, 0xC0, 0x7F, 0x00, 0x00, 0x00, 0x3F]⟩ 100) s0)).map
        (fun t => (t.pump, t.stat.nCmdReject)) = some (s0.pump, 1) := by decide
/-- C33: an unchanged command does not refresh the stamp -/
theorem test_pumpcmd_unchanged :
    (after (exec (.pumpcmd ⟨3, 8, [0x00, 0x00, 0x00, 0x3F, 0x00, 0x00, 0x00, 0x3F]⟩ 300) s0)).map
        (fun t => t.pump.tCmd) = some 0 := by decide
/-- C6, C10, C12, C13, C15, C17, C18, C19, C21 -/
theorem test_pwmConv :
    ([0x3F333333, 0x3F051EB8, 0x3EFFFFFF, 0x3F800001, 0xBDCCCCCD, 0x00000001, 0x7F800000, 0xFF800000, 0x7F800001].map
      (pwmConv Config.example)) =
    [some 1699, some 1519, some 1499, some 2000, some 1000, some 1000, some 2000, some 1000, none] := by decide
/-- W1 -/
theorem test_wdog_armed : (after (exec (.wdog 4999) sW)).map (fun t => t.pump) = some sW.pump := by decide
/-- W2: mid-ramp, in one step -/
theorem test_wdog_trips :
    (after (exec (.wdog 5000) sW)).map (fun t => (t.pump.sp0, t.pump.out0, t.pump.wdg, t.stat.nWdgTrip)) =
      some (1500, 1500, true, 1) := by decide
/-- M10: one step however late -/
theorem test_ramp_late :
    (after (exec (.ramp 430) (s0.withPump { s0.pump with sp0 := 1600, out0 := 1505, tRamp := 100 }))).map
        (fun t => (t.pump.out0, t.pump.tRamp)) = some (1510, 430) := by decide
/-- M3, M4, M5, M8, M9 -/
theorem test_rampStep :
    [rampStep 1500 1505, rampStep 1500 1506, rampStep 1500 1493, rampStep 1998 2000, rampStep 1003 1000] =
      [1505, 1505, 1495, 2000, 1000] := by decide

/-! ## Flow, telemetry, samples (families F and L) -/

/-- F2 -/
theorem test_pulse_wraps :
    (after (exec (.pulse 0) (s0.withFlow { s0.flow with cnt := #v[0xFFFFFFFF, 7, 9] }))).map (fun t => t.flow.cnt) =
      some #v[0, 7, 9] := by decide
/-- F4 -/
theorem test_flowagg :
    (after (exec (.flowagg 1000) (s0.withFlow { s0.flow with cnt := #v[10, 0, 0] }))).map
        (fun t => (t.flow.cnt, t.flow.rate, t.flow.tFlow)) = some (#v[0, 0, 0], #v[0x3FAAAAAB, 0, 0], 1000) := by
  decide +kernel
/-- F3 -/
theorem test_flowagg_early :
    (after (exec (.flowagg 999) (s0.withFlow { s0.flow with cnt := #v[10, 0, 0] }))).map (fun t => t.flow.cnt) =
      some #v[10, 0, 0] := by decide
/-- F5, F7, F11, F12, F13 -/
theorem test_flowRate :
    [flowRate Config.example 10 1350 ⟨15, 2⟩, flowRate Config.example 1 1000 ⟨15, 2⟩,
     flowRate Config.example 450 1003 ⟨15, 2⟩, flowRate Config.example 1 4000000 ⟨15, 2⟩,
     flowRate Config.example 0xFFFFFFFF 1000 ⟨15, 2⟩] =
    [0x3F7CD6EA, 0x3E088889, 0x426F483B, 0x380BCF65, 0x4E088889] := by decide
/-- L2 -/
theorem test_telem :
    (after (exec (.telem 10) s0)).map (fun t => t.tx) =
      some ([0xFE, 0x5C, 0x00, 0x01, 0x0A] ++ List.replicate 91 0x00 ++ [0x65, 0x01]) := by decide +kernel
/-- L4, L5, L6: the offsets of R70 -/
theorem test_dataPayload :
    let D := dataPayload 0 ⟨0, #v[0, 0, 0xFFFFFF9C, 0, 0, 0], #v[0x11223344, 0, 0], #v[0, 0, 0, 0, 0, 0, 0, 0, 0xEE]⟩ s0.flow
    ((D.drop 16).take 4, (D.drop 32).take 4, (D.drop 76).take 4) =
      ([0x9C, 0xFF, 0xFF, 0xFF], [0x44, 0x33, 0x22, 0x11], [0xEE, 0, 0, 0]) := by decide
/-- L6 -/
theorem test_sample_tank : (after (exec (.sample 17 5) s0)).map (fun t => t.tlm.accelTank[8]) = some 5 := by decide
/-- L7 -/
theorem test_sample_refused : exec (.sample 18 5) s0 = .refused (.illFormed .sampleRange) := rfl

/-! ## Reset and tick (family Q) -/

/-- Q1 -/
theorem test_reset :
    (after (exec (.reset 5000) (atDec true 9 8 3 4 [(0, 1)]))).map
        (fun t => (t.dec.p, t.dec.esc, t.pump.tCmd, t.tlm.tTlm)) = some (0, false, 5000, 5000) := by decide
/-- Q5: the watchdog runs before the ramp -/
theorem test_tick_order :
    (after (exec (.tick 4000) (s0.withPump { s0.pump with tRamp := 3900, sp0 := 1600, out0 := 1550 }))).map
        (fun t => (t.pump.sp0, t.pump.out0, t.pump.tRamp, t.out.events)) =
      some (1500, 1500, 4000, [.wdgTrip 4000]) := by decide
/-- Q4 -/
theorem test_tick_nothing_due : (after (exec (.tick 0) s0)).map (fun t => t.tx) = some [] := by decide

/-! ## Witnesses: concrete operands and states that meet all hypotheses of a statement, each clause at its bounds -/

/-- A legal configuration: the example one. -/
theorem witness_config : Config.example.Valid := by simp [Config.Valid, Config.example]

/-- A frame in progress, one of one payload byte arrived. -/
def sMid : State := atDec false 5 1 (0x00FE + 0x01 + 0x41) 0 [(0, 0x41)]

theorem witness_invariant : BlockInv sMid where
  cfg := witness_config
  memory := by decide
  position := by unfold PositionInv; decide
  payload := by unfold PayloadInv; decide
  checksum := by unfold ChecksumInv; decide
  pump := by simp [PumpInv, inPwmRange, sMid, atDec, s0, State.initial, State.withDec, Pump.reset, Config.example]

theorem witness_RecordRoundTrip : WellFormed (.print 2 [0x48, 0x69]) ∧ WellFormed (.sample 17 5) ∧
    WellFormed (.pulse 2) ∧ WellFormed (.print 1024 (List.replicate 1024 0)) :=
  ⟨by decide, by decide, by decide, by decide +kernel⟩
theorem witness_DecodedOperationsAreWellFormed : decode [0x03, 0x02, 0x07] = .ok (.pulse 2, [0x07]) := by decide
theorem witness_UnusedEventCodesRejected :
    ((0x06 : Byte).toNat < 128 ∧ 6 ≤ (0x06 : Byte).toNat % 16) ∧
    ((0x7F : Byte).toNat < 128 ∧ 6 ≤ (0x7F : Byte).toNat % 16) := by decide
theorem witness_StepRunsTheDecodedOperation :
    decode (s0.withInbox [0x03, 0x02]).inbox = .ok (.pulse 2, []) ∧ s0.inbox = [] ∧
    (s0.withInbox [0x06]).inbox ≠ [] ∧ decode (s0.withInbox [0x06]).inbox = .error (.unusedEventCode 6) := by decide
theorem witness_WireSymbolsOutsideAPair : s0.dec.esc = false ∧ (0x41 : Byte) ≠ 0xFE ∧ (0x41 : Byte) ≠ 0xEE := by decide
theorem witness_WireSymbolsClosingAPair : (atDec true 4 1 0 0 []).dec.esc = true := by decide
theorem witness_EscapeErrorKeepsThePosition :
    (atDec true 4 1 0 0 []).dec.esc = true ∧ (0x02 : Byte) ≠ 0x00 ∧ (0x02 : Byte) ≠ 0x01 ∧
    (0xFE : Byte) ≠ 0x00 ∧ (0xFE : Byte) ≠ 0x01 := by decide
theorem witness_DecWaitSeedsTheChecksum : s0.dec.p = 0 := by decide
theorem witness_DecLenloWritesLowByte : (atDec false 1 0x0401 0x00FE 0 []).dec.p = 1 := by decide
/-- 1024 for the first clause, 1025 for the second. -/
theorem witness_DecLenhiTestsTheLength :
    ((atDec false 2 0x0000 0 0 []).dec.p = 2 ∧ (1024 : Half).toNat = (0x04 : Byte).toNat * 256 + 0 % 256 ∧
      (1024 : Half).toNat ≤ 1024) ∧
    ((atDec false 2 0x0001 0 0 []).dec.p = 2 ∧ (1025 : Half).toNat = (0x04 : Byte).toNat * 256 + 1 % 256 ∧
      1024 < (1025 : Half).toNat) := by decide
theorem witness_DecTypeLatchesTheType : (atDec false 3 8 0 0 []).dec.p = 3 := by decide
/-- The first and the last index of the buffer. -/
theorem witness_DecPayloadStoresOneByte :
    (let d := (atDec false 4 1 0 0 []).dec; 4 ≤ d.p.toNat ∧ d.p.toNat < 4 + d.len.toNat ∧ d.len.toNat ≤ 1024) ∧
    (let d := (atDec false 1027 1024 0 0 []).dec; 4 ≤ d.p.toNat ∧ d.p.toNat < 4 + d.len.toNat ∧ d.len.toNat ≤ 1024) := by
  decide
theorem witness_DecCkloHoldsTheByte :
    (let d := (atDec false 12 8 0 0 []).dec; d.p.toNat = 4 + d.len.toNat) ∧
    (let d := (atDec false 4 0 0 0 []).dec; d.p.toNat = 4 + d.len.toNat) := by decide
/-- S1 for the first clause, X9 for the second. -/
theorem witness_DecCkhiEmitsOrDiscards :
    s1Last.dec.p.toNat = 5 + s1Last.dec.len.toNat ∧
    (0x01 : Byte).toNat * 256 + s1Last.dec.cklo.toNat = s1Last.dec.ck.toNat ∧ s1Last.dec.len.toNat ≤ 1024 ∧
    s1Payload.length = s1Last.dec.len.toNat ∧
    (∀ (k : Nat) (h : k < s1Payload.length), payloadRead s1Last.dec.payload k = some s1Payload[k]) ∧
    (0x00 : Byte).toNat * 256 + s1Last.dec.cklo.toNat ≠ s1Last.dec.ck.toNat := by decide
theorem witness_PositionOperationsNeedTheirPosition : positionOf s0.dec ≠ some .payload := by decide
theorem witness_RxMarkersOutsideAPair : (atDec false 9 8 0 0 []).dec.esc = false := by decide
/-- A payload position by an escape pair, and the last position with a wrong checksum. -/
theorem witness_RxRunsThePositionOperation :
    (standsFor (atDec true 4 1 0 0 []).dec.esc 0x00 0xFE ∧ (0x00 : Byte) ≠ 0xFE ∧
      positionOf (atDec true 4 1 0 0 []).dec = some .payload ∧ Position.payload ≠ .ckhi) ∧
    (standsFor s1Last.dec.esc 0x00 0x00 ∧ positionOf s1Last.dec = some .ckhi ∧
      (0x00 : Byte).toNat * 256 + s1Last.dec.cklo.toNat ≠ s1Last.dec.ck.toNat) := by
  unfold standsFor; decide
theorem witness_RxRoutesTheCompletedPacket :
    standsFor s1Last.dec.esc 0x01 0x01 ∧ (0x01 : Byte) ≠ 0xFE ∧ s1Last.dec.p.toNat = 5 + s1Last.dec.len.toNat ∧
    s1Last.dec.len.toNat ≤ 1024 ∧ (0x01 : Byte).toNat * 256 + s1Last.dec.cklo.toNat = s1Last.dec.ck.toNat ∧
    s1Payload.length = s1Last.dec.len.toNat ∧
    (∀ (k : Nat) (h : k < s1Payload.length), payloadRead s1Last.dec.payload k = some s1Payload[k]) := by
  unfold standsFor; decide
/-- The last hypothesis of the same statement, with the packet of S1. -/
theorem witness_RxRoutesTheCompletedPacket_routed :
    (after (exec (.route ⟨s1Last.dec.typ, s1Last.dec.len, s1Payload⟩ 50)
      { s1Last with dec := { s1Last.dec with esc := false, p := 0 } })).isSome = true := by decide
/-- A clause each: past the last position, past the buffer, a byte never written. -/
theorem witness_DecoderFaultsByName :
    standsFor s0.dec.esc 0x41 0x41 ∧ (0x41 : Byte) ≠ 0xFE ∧
    (let d := (atDec false 6 0 0 0 []).dec; 5 + d.len.toNat < d.p.toNat ∧ 4 ≤ d.p.toNat) ∧
    (let d := (atDec false 1028 1025 0 0 []).dec; 1028 ≤ d.p.toNat ∧ d.p.toNat < 4 + d.len.toNat) ∧
    (let d := (atDec false 6 1 0x4100 0 []).dec; d.p.toNat = 5 + d.len.toNat ∧ d.len.toNat ≤ 1024 ∧
      (0x41 : Byte).toNat * 256 + d.cklo.toNat = d.ck.toNat ∧ 0 < d.len.toNat ∧ payloadRead d.payload 0 = none) := by
  unfold standsFor; decide
theorem witness_FrameRoundTrip :
    (atDec false 9 8 0 0 []).dec.esc = false ∧ (8 : Half).toNat ≤ 1024 ∧ s1Payload.length = (8 : Half).toNat ∧
    (1024 : Half).toNat ≤ 1024 ∧ (List.replicate 1024 (0 : Byte)).length = (1024 : Half).toNat :=
  ⟨rfl, by decide, by decide, by decide, by decide +kernel⟩
/-- X8. -/
theorem witness_WrongChecksumIsDiscarded :
    s0.dec.esc = false ∧ (8 : Half).toNat ≤ 1024 ∧ s1Payload.length = (8 : Half).toNat ∧
    (0x01C9 : Half) ≠ checksumSum (coveredBytes 3 8 s1Payload) := by decide
theorem witness_StartAfterEscapeLosesTheFrame : s0.dec.esc = false := by decide
theorem witness_ChecksumSeesOneByte : (0x3F : Byte) ≠ 0x3E := by decide
theorem witness_RxCompletesWithAVerifiedPacket : BlockInv sMid := witness_invariant
/-- The last hypothesis of the same statement: a packet comes out (the checksum of `sMid` is 0x0140). -/
theorem witness_RxCompletesWithAVerifiedPacket_packet :
    (after (exec (.rxbyte 0x01 0) (sMid.withDec { sMid.dec with p := 6, cklo := 0x40 }))).map (fun t => t.out.pkt) =
      some (some ⟨0, 1, [0x41]⟩) := by decide
theorem witness_TxframeAppendsOneFrame :
    ((0 : Half).toNat ≤ 1024 ∧ ([] : List Byte).length = (0 : Half).toNat) ∧
    ((1024 : Half).toNat ≤ 1024 ∧ (List.replicate 1024 (0 : Byte)).length = (1024 : Half).toNat) :=
  ⟨by decide, by decide, by decide +kernel⟩
theorem witness_LongPayloadsRefused : 1024 < (1025 : Half).toNat := by decide
theorem witness_FramesAreClean : s1Payload.length = (8 : Half).toNat := by decide
theorem witness_RouteMatchesExactly :
    ((4 : Half).toNat ≤ 1024 ∧ [0x00, 0x00, 0x00, (0x3F : Byte)].length = (4 : Half).toNat ∧
      ((3 : Byte), (4 : Half)) ∉ s0.cfg.routeTable) ∧
    ((8 : Half).toNat ≤ 1024 ∧ s1Payload.length = (8 : Half).toNat ∧ ((3 : Byte), (8 : Half)) ∈ s0.cfg.routeTable) := by
  decide
/-- A host's table (R196). -/
theorem witness_OtherRoutesLeaveTheBlock :
    (92 : Half).toNat ≤ 1024 ∧ (List.replicate 92 (0 : Byte)).length = (92 : Half).toNat ∧
    ((1 : Byte), (92 : Half)) ∈
      ({ s0 with cfg := { Config.example with routeTable := [(1, 92)] } } : State).cfg.routeTable ∧
    ¬ ((1 : Byte) = 3 ∧ (92 : Half) = 8) := by decide
theorem witness_PacketTypesOnTheDevice :
    s0.cfg.routeTable = [(3, 8)] ∧ (List.replicate 92 (0 : Byte)).length = (92 : Half).toNat ∧
    s1Payload.length = (8 : Half).toNat ∧ ([] : List Byte).length = (0 : Half).toNat ∧ (0 : Half).toNat ≤ 1024 := by
  decide
/-- Converted and changed (C30), converted and unchanged (C33), not converted (C34). -/
theorem witness_PumpCommandLatchesChanges :
    (pwmConv s0.cfg 0x00000000 = some 1000 ∧ pwmConv s0.cfg 0x3F800000 = some 2000 ∧
      ¬ (1000 = s0.pump.sp0 ∧ 2000 = s0.pump.sp1)) ∧
    (pwmConv s0.cfg 0x3F000000 = some 1500 ∧ 1500 = s0.pump.sp0 ∧ 1500 = s0.pump.sp1) ∧
    pwmConv s0.cfg 0x7FC00000 = none := by decide
theorem witness_PwmConversionIsExactFloor :
    Config.example.Valid ∧ Config.example.pwmConv = .exactFloor ∧ isFiniteF32 0x3F333333 ∧ isNanF32 0x7F800001 :=
  ⟨witness_config, rfl, by unfold isFiniteF32; decide, by unfold isNanF32; decide⟩
/-- C18 and C19, and R235 at the thresholds of IEEE rounding: half of the smallest subnormal, and half a unit above the
largest finite number. -/
theorem test_infinities_and_rate_ends :
    pwmConv Config.example 0x7F800000 = some 2000 ∧ pwmConv Config.example 0xFF800000 = some 1000 ∧
    nearestF32 1 (2 ^ 150) = 0 ∧ nearestF32 3 (2 ^ 151) = 1 ∧
    nearestF32 (2 ^ 128 - 2 ^ 103) 1 = 0x7F800000 ∧ nearestF32 (2 ^ 128 - 2 ^ 103 - 1) 1 = 0x7F7FFFFF := by decide +kernel
theorem witness_fvalRat_le : fvalRat 0x00000000 ≤ fvalRat 0x3F800000 := by
  have e0 : ((0x00000000 : Word).extractLsb' 23 8).toNat = 0 := by decide
  have f0 : ((0x00000000 : Word).extractLsb' 0 23).toNat = 0 := by decide
  have e1 : ((0x3F800000 : Word).extractLsb' 23 8).toNat = 127 := by decide
  have f1 : ((0x3F800000 : Word).extractLsb' 0 23).toNat = 0 := by decide
  have s1 : (0x3F800000 : Word).msb = false := by decide
  simp only [fvalRat, e0, f0, e1, f1, s1]
  norm_num
theorem witness_PwmConversionIsAdmissible :
    Config.example.Valid ∧ isFiniteF32 0x00000000 ∧ isFiniteF32 0x3F800000 ∧
    fvalRat 0x00000000 ≤ fvalRat 0x3F800000 ∧
    pwmConv Config.example 0x00000000 = some 1000 ∧ pwmConv Config.example 0x3F800000 = some 2000 :=
  ⟨witness_config, by unfold isFiniteF32; decide, by unfold isFiniteF32; decide, witness_fvalRat_le, by decide, by decide⟩
/-- W2 and W1: 4000 and 3999. -/
theorem witness_WatchdogForcesNeutral :
    4000 ≤ ((5000 : Word) - sW.pump.tCmd).toNat ∧ ((4999 : Word) - sW.pump.tCmd).toNat < 4000 := by decide
theorem witness_RampMovesByAtMostFive :
    100 ≤ ((100 : Word) - s0.pump.tRamp).toNat ∧ ((99 : Word) - s0.pump.tRamp).toNat < 100 := by decide
theorem witness_RampConverges : (1000 : Half).toNat ≤ (2000 : Half).toNat := by decide
theorem witness_TickAfterSilenceIsNeutral : 4000 ≤ ((5000 : Word) - sW.pump.tCmd).toNat := by decide
theorem witness_OnlyTimedOperationsMoveOutputs :
    ∃ t, exec (.wdog 5000) sW = .next t ∧ t.pump.out0 ≠ sW.pump.out0 := ⟨_, rfl, by decide⟩
theorem witness_PulseCountsOne : (2 : Byte).toNat < 3 ∧ 3 ≤ (3 : Byte).toNat := by decide
theorem witness_FlowaggDrainsTheWindow :
    1000 ≤ ((1000 : Word) - s0.flow.tFlow).toNat ∧ ((999 : Word) - s0.flow.tFlow).toNat < 1000 := by decide
/-- F7: q = 2/15. -/
theorem witness_FlowRateIsWithinTolerance :
    1000 ≤ (1000 : Word).toNat ∧ 0 < (⟨15, 2⟩ : Ratio).num ∧ 0 < (⟨15, 2⟩ : Ratio).den ∧ 0 < (1 : Word).toNat ∧
    (2 : ℚ) ^ (-126 : ℤ) ≤ (1000 * (1 : Word).toNat * (⟨15, 2⟩ : Ratio).den) / ((1000 : Word).toNat * (⟨15, 2⟩ : Ratio).num) ∧
    ((1000 * (1 : Word).toNat * (⟨15, 2⟩ : Ratio).den) / ((1000 : Word).toNat * (⟨15, 2⟩ : Ratio).num) : ℚ) ≤
      (2 ^ 24 - 1) * 2 ^ 104 ∧ Config.example.flowRate = .nearestEven :=
  ⟨by decide, by decide, by decide, by decide,
    by norm_num [show (1 : Word).toNat = 1 from rfl, show (1000 : Word).toNat = 1000 from rfl],
    by norm_num [show (1 : Word).toNat = 1 from rfl, show (1000 : Word).toNat = 1000 from rfl], rfl⟩
theorem witness_TelemSendsTheRegisters :
    10 ≤ ((10 : Word) - s0.tlm.tTlm).toNat ∧ ((9 : Word) - s0.tlm.tTlm).toNat < 10 := by decide
/-- The bounds of the four ranges. -/
theorem witness_SampleWritesOneRegister :
    (5 : Byte).toNat < 6 ∧ (6 ≤ (6 : Byte).toNat ∧ (6 : Byte).toNat - 6 < 3) ∧
    (6 ≤ (8 : Byte).toNat ∧ (8 : Byte).toNat - 6 < 3) ∧ (9 ≤ (9 : Byte).toNat ∧ (9 : Byte).toNat - 9 < 9) ∧
    (9 ≤ (17 : Byte).toNat ∧ (17 : Byte).toNat - 9 < 9) ∧ 18 ≤ (18 : Byte).toNat := by decide
theorem witness_PrintSendsOneFrame :
    ((2 : Half).toNat ≤ 1024 ∧ [(0x48 : Byte), 0x69].length = (2 : Half).toNat) ∧
    ((1024 : Half).toNat ≤ 1024 ∧ (List.replicate 1024 (0 : Byte)).length = (1024 : Half).toNat) :=
  ⟨by decide, by decide, by decide +kernel⟩
theorem witness_TickIsIdempotent : ∃ t, exec (.tick 4000) sW = .next t := ⟨_, rfl⟩
theorem witness_EventsInRangeComplete :
    BlockInv sMid ∧ (Instr.pulse 2).isEvent = true ∧ WellFormed (.pulse 2) := ⟨witness_invariant, rfl, by decide⟩
theorem witness_InvariantHoldsAfterReset : Config.example.Valid := witness_config
theorem witness_EveryStepKeepsTheInvariant :
    BlockInv (sMid.withInbox [0x01, 0x40, 0, 0, 0, 0]) ∧
    (after (step (sMid.withInbox [0x01, 0x40, 0, 0, 0, 0]))).map (fun t => t.dec.p) = some 6 := by
  obtain ⟨a, b, c, d, e, f⟩ := witness_invariant
  exact ⟨⟨a, b, c, d, e, f⟩, by decide⟩
theorem witness_NoFaultUnderTheInvariant : BlockInv sMid := witness_invariant
theorem witness_ConfigurationFixedAndStreamGrows : ∃ t, exec (.print 2 [0x48, 0x69]) s0 = .next t := ⟨_, rfl⟩
theorem witness_ReceiveAndTransmitAreIndependent :
    (∃ t, exec (.rxbyte 0x41 0) s0 = .next t) ∧ (∃ t, exec (.telem 10) s0 = .next t) ∧
    (∃ t, exec (.print 2 [0x48, 0x69]) s0 = .next t) := ⟨⟨_, rfl⟩, ⟨_, rfl⟩, ⟨_, rfl⟩⟩
/-- Two ways to write 15/2. -/
theorem witness_FlowRateIsWithinTolerance_sameRational :
    0 < (⟨30, 4⟩ : Ratio).num ∧ 0 < (⟨30, 4⟩ : Ratio).den ∧
    (⟨30, 4⟩ : Ratio).num * (⟨15, 2⟩ : Ratio).den = (⟨15, 2⟩ : Ratio).num * (⟨30, 4⟩ : Ratio).den := by decide
/-- The three ranges under the default, each at its boundary: just below `2^128 - 2^103`, that value, and `2^-150`. -/
theorem witness_FlowRateIsWithinTolerance_default :
    Config.example.flowRate = .nearestEven ∧ 1000 ≤ (1000 : Word).toNat ∧
    0 < (⟨1, 2 ^ 128 - 2 ^ 103 - 1⟩ : Ratio).den ∧ 0 < (⟨2 ^ 150, 1⟩ : Ratio).num ∧
    (1000 * (1 : Word).toNat * (⟨1, 2 ^ 128 - 2 ^ 103 - 1⟩ : Ratio).den : ℚ) / ((1000 : Word).toNat * 1) <
      2 ^ 128 - 2 ^ 103 ∧
    2 ^ 128 - 2 ^ 103 ≤
      (1000 * (1 : Word).toNat * (⟨1, 2 ^ 128 - 2 ^ 103⟩ : Ratio).den : ℚ) / ((1000 : Word).toNat * 1) ∧
    (1000 * (1 : Word).toNat * 1 : ℚ) / ((1000 : Word).toNat * (⟨2 ^ 150, 1⟩ : Ratio).num) ≤ (2 : ℚ) ^ (-150 : ℤ) := by
  have h1 : (1 : Word).toNat = 1 := rfl
  have h1000 : (1000 : Word).toNat = 1000 := rfl
  refine ⟨rfl, by decide, by decide, by decide, ?_, ?_, ?_⟩ <;> simp only [h1, h1000] <;> norm_num
/-- R260's table: an `EscErr` and a `WdgTrip` set the bits of codes 1 and 6 (the positions: entry 24). -/
theorem test_eventBits :
    eventBits { Output.empty with events := [.escErr 0x02, .wdgTrip 4000] } = 0b100001#6 := by decide

end Sys2Proof.Tests
end

section
/-! The event output: which bit of `eventBits` an event sets (R15, R54, R260; entry 24). -/

namespace Sys2Proof.Proofs

open Sys2Proof Sys2Proof.Machine

/-- R260: the codes run from 1 to 6, so that bit `code - 1` is one of the six. -/
theorem eventCode_range (e : Event) : 1 ≤ eventCode e ∧ eventCode e ≤ 6 := by
  cases e <;> simp [eventCode]

/-- The mask that one event contributes holds its own bit and no other. -/
theorem eventMask_getLsbD (e : Event) (k : Nat) :
    (1#6 <<< (eventCode e - 1)).getLsbD k = decide (eventCode e = k + 1) := by
  obtain ⟨hlo, hhi⟩ := eventCode_range e
  rw [BitVec.getLsbD_shiftLeft, BitVec.getLsbD_one, Bool.eq_iff_iff]
  simp only [Bool.and_eq_true, Bool.not_eq_true', decide_eq_true_eq, decide_eq_false_iff_not]
  omega

/-- Collecting masks keeps the bits already set, so the collected bits speak of every event of the list. -/
theorem foldl_eventMask_getLsbD (es : List Event) (bits : BitVec 6) (k : Nat) :
    (es.foldl (fun bits e => bits ||| (1#6 <<< (eventCode e - 1))) bits).getLsbD k =
      (bits.getLsbD k || es.any fun e => decide (eventCode e = k + 1)) := by
  induction es generalizing bits with
  | nil => simp
  | cons e es ih => rw [List.foldl_cons, ih, BitVec.getLsbD_or, eventMask_getLsbD, List.any_cons, Bool.or_assoc]

/-- Bit `k` of the event output: whether an event of code `k + 1` stands in the output. -/
@[simp] theorem eventBits_getLsbD (o : Output) (k : Nat) :
    (eventBits o).getLsbD k = o.events.any fun e => decide (eventCode e = k + 1) := by
  simp [eventBits, foldl_eventMask_getLsbD]

/-- Settles O60: the codes are `eventCode`'s own cases, and both statements about bits are `eventBits_getLsbD`, the
second one after the event that `raise` appends to the output. -/
theorem eventBitsFollowTheCodes : Obligations.EventBitsFollowTheCodes := by
  refine ⟨fun _ => rfl, fun _ => rfl, fun _ _ => rfl, fun _ _ => rfl, fun _ _ => rfl, fun _ => rfl, ?_, ?_⟩
  · intro o k
    simp
  · intro e s k
    rw [eventBits_getLsbD, eventBits_getLsbD, raise_out, List.any_append, List.any_cons, List.any_nil, Bool.or_false]

end Sys2Proof.Proofs
end

section
/-! The default PWM conversion as an exact floor (R17, R202, D7). -/

namespace Sys2Proof.Proofs

open Sys2Proof Sys2Proof.Machine

/-- A NaN pattern has no value (R17). -/
theorem fval_of_isNanF32 {x : Word} (h : isNanF32 x) : fval x = .nan := by
  obtain ⟨he, hf⟩ := h
  rw [fval, if_pos he, if_pos hf]

/-- Clamping in units of 2^-149 is clamping the value itself. -/
theorem clampedUnits_rat {u : ℤ} {v : ℚ} (h : (u : ℚ) = v * 2 ^ 149) :
    ((min u.toNat (2 ^ 149) : ℕ) : ℚ) = max 0 (min 1 v) * 2 ^ 149 := by
  have htoNat : ((u.toNat : ℕ) : ℚ) = max (u : ℚ) 0 := by
    rw [← Int.cast_natCast, Int.toNat_eq_max, Int.cast_max, Int.cast_zero]
  rw [max_min_distrib_left, min_mul_of_nonneg _ _ (by positivity), max_mul_of_nonneg _ _ (by positivity),
    max_mul_of_nonneg _ _ (by positivity), ← h, Nat.cast_min, htoNat, min_comm, max_comm]
  norm_num

/-- R202 in whole units: the default conversion of a value that is clamped to `u` units. The sum does not wrap, since
the offset stays within the span. -/
theorem pwmConv_exactFloor {c : Config} (hc : c.Valid) (hconv : c.pwmConv = .exactFloor) {x : Word} {u : Nat}
    (hu : clampUnits (fval x) = some u) :
    ∃ r, pwmConv c x = some r ∧ r.toNat = c.pwmMin.toNat + pwmSpan c * u / 2 ^ 149 := by
  obtain ⟨hlt, -⟩ := hc
  have hle := pwmOffset_le c (clampUnits_le hu)
  have hoff : pwmOffset c u = pwmSpan c * u / 2 ^ 149 := by simp [pwmOffset, hconv]
  have hmax := c.pwmMax.isLt
  refine ⟨_, by rw [pwmConv, hu, Option.map_some], ?_⟩
  rw [← hoff, BitVec.toNat_ofNat, Nat.mod_eq_of_lt]
  unfold pwmSpan at hle
  omega

/-- R202 for a finite pattern: the floor of the exact product of span and clamped value. -/
theorem pwmConv_finite {c : Config} (hc : c.Valid) (hconv : c.pwmConv = .exactFloor) {x : Word} (hx : isFiniteF32 x) :
    ∃ r, pwmConv c x = some r ∧ (r.toNat : ℤ) = c.pwmMin.toNat +
      ⌊((c.pwmMax.toNat : ℚ) - c.pwmMin.toNat) * max 0 (min 1 (fvalRat x))⌋ := by
  obtain ⟨u, hval, hunits⟩ := fval_of_finite hx
  have hclamp : clampUnits (fval x) = some (min u.toNat (2 ^ 149)) := by simp [hval, clampUnits]
  obtain ⟨r, hr, hnat⟩ := pwmConv_exactFloor hc hconv hclamp
  have hspan : ((pwmSpan c : ℕ) : ℚ) = c.pwmMax.toNat - c.pwmMin.toNat := Nat.cast_sub hc.1.le
  have hproduct : ((c.pwmMax.toNat : ℚ) - c.pwmMin.toNat) * max 0 (min 1 (fvalRat x)) =
      ((pwmSpan c * min u.toNat (2 ^ 149) : ℕ) : ℚ) / ((2 ^ 149 : ℕ) : ℚ) := by
    rw [Nat.cast_mul, clampedUnits_rat hunits, hspan]
    field_simp
    norm_num
  refine ⟨r, hr, ?_⟩
  rw [hproduct, Rat.floor_natCast_div_natCast, hnat]
  push_cast
  rfl

/-- A value clamped to 1 converts to `PWM_MAX`. -/
theorem pwmConv_of_clampUnits_one {c : Config} (hc : c.Valid) (hconv : c.pwmConv = .exactFloor) {x : Word}
    (hu : clampUnits (fval x) = some (2 ^ 149)) : pwmConv c x = some c.pwmMax := by
  obtain ⟨r, hr, hnat⟩ := pwmConv_exactFloor hc hconv hu
  rw [Nat.mul_div_cancel _ (by positivity), pwmSpan, Nat.add_sub_of_le hc.1.le] at hnat
  rw [hr, BitVec.eq_of_toNat_eq hnat]

/-- A value clamped to 0 converts to `PWM_MIN`. -/
theorem pwmConv_of_clampUnits_zero {c : Config} (hc : c.Valid) (hconv : c.pwmConv = .exactFloor) {x : Word}
    (hu : clampUnits (fval x) = some 0) : pwmConv c x = some c.pwmMin := by
  obtain ⟨r, hr, hnat⟩ := pwmConv_exactFloor hc hconv hu
  rw [Nat.mul_zero, Nat.zero_div, Nat.add_zero] at hnat
  rw [hr, BitVec.eq_of_toNat_eq hnat]

/-- Settles O37, one lemma per class of pattern: finite, +∞ (clamped to 1), −∞ (clamped to 0), NaN. -/
theorem pwmConversionIsExactFloor : Obligations.PwmConversionIsExactFloor := by
  intro c x hc hconv
  refine ⟨pwmConv_finite hc hconv, ?_, ?_, ?_⟩
  · rintro rfl
    exact pwmConv_of_clampUnits_one hc hconv (by rw [show fval 0x7F800000 = .posInf by decide]; rfl)
  · rintro rfl
    exact pwmConv_of_clampUnits_zero hc hconv (by rw [show fval 0xFF800000 = .negInf by decide]; rfl)
  · intro hnan
    rw [pwmConv, fval_of_isNanF32 hnan, clampUnits, Option.map_none]

end Sys2Proof.Proofs
end

section
/-! What one operation can do, said once (R103, R150, R195, R250): the kinds of answer `exec` gives, and inversion lemmas
for receiving a wire byte, dispatching a logical byte and routing a packet. -/

namespace Sys2Proof.Proofs

open Sys2Proof Sys2Proof.Machine

/-! ## Answers in sequence -/

theorem andThen_next_iff {r : Result} {k : State → Result} {t : State} :
    andThen r k = .next t ↔ ∃ u, r = .next u ∧ k u = .next t := by
  cases r <;> simp [andThen]

/-! ## Receiving a wire byte (steps 1 to 3 of R150) -/

theorem logicalOf_eq_some_iff {w b : Byte} {s : State} : logicalOf w s = some b ↔ standsFor s.dec.esc w b := by
  refine ⟨fun h => ?_, logicalOf_standsFor⟩
  rcases unescByte_cases s.dec.esc w with ⟨c, hc, e⟩ | ⟨-, -, e⟩ | ⟨-, -, -, e⟩ <;> rw [logicalOf, e] at h
  · rwa [← Option.some.inj h]
  · cases h
  · cases h

/-- A raw start marker stands for itself only, and only outside a pair. -/
theorem standsFor_start {esc : Bool} {b : Byte} (h : standsFor esc 0xFE#8 b) : esc = false ∧ b = 0xFE#8 := by
  simpa [standsFor] using h

/-- A wire byte that stands for a logical byte clears `esc`, and a raw start marker also forces `p` to 0. -/
theorem receiveSymbol_of_standsFor {w b : Byte} {s : State} (h : standsFor s.dec.esc w b) :
    receiveSymbol w s = s.withDec { s.dec with esc := false, p := if w = 0xFE#8 then 0 else s.dec.p } := by
  by_cases hw : w = 0xFE#8
  · subst hw
    rw [receiveSymbol_start (standsFor_start h).1]
    rfl
  · rw [receiveSymbol_standsFor h hw, if_neg hw]
    rfl

/-- Everything receiving a wire byte can do: `esc` takes some value, `p` stays or becomes 0, and `EscErr` may be raised. -/
theorem receiveSymbol_cases (w : Byte) (s : State) : ∃ e p, (p = s.dec.p ∨ p = 0) ∧
    (receiveSymbol w s = s.withDec { s.dec with esc := e, p := p } ∨
      receiveSymbol w s = raise (.escErr w) (s.withDec { s.dec with esc := e, p := p })) := by
  rcases unescByte_cases s.dec.esc w with ⟨b, hb, -⟩ | ⟨he, rfl, -⟩ | ⟨he, h0, h1, -⟩
  · exact ⟨_, _, (ite_eq_or_eq _ _ _).symm, .inl (receiveSymbol_of_standsFor hb)⟩
  · exact ⟨true, s.dec.p, .inl rfl, .inl (receiveSymbol_arm he)⟩
  · exact ⟨_, _, (ite_eq_or_eq _ _ _).symm, .inr (receiveSymbol_bad he h0 h1)⟩

/-- What receiving a wire byte leaves alone: everything but `esc`, `p`, the counters and the events. -/
theorem receiveSymbol_frame (w : Byte) (s : State) :
    (receiveSymbol w s).pump = s.pump ∧ (receiveSymbol w s).cfg = s.cfg ∧ (receiveSymbol w s).inbox = s.inbox ∧
    (receiveSymbol w s).tx = s.tx ∧ (receiveSymbol w s).out.tx = s.out.tx ∧
    (receiveSymbol w s).out.pkt = s.out.pkt := by
  obtain ⟨e, p, -, h | h⟩ := receiveSymbol_cases w s <;> simp [h]

/-- Receiving a wire byte raises at most one event. -/
theorem receiveSymbol_events (w : Byte) (s : State) :
    (receiveSymbol w s).out.events.length ≤ s.out.events.length + 1 := by
  obtain ⟨e, p, -, h | h⟩ := receiveSymbol_cases w s <;> simp [h]

/-! ## Dispatching a logical byte (step 4 of R150) -/

/-- What a dispatch leaves in the output: nothing new, one event, or the packet of a frame whose checksum was verified. -/
theorem dispatch_output {b w : Byte} {s u : State} (h : dispatch b w s = .next u) :
    u.out = s.out ∨ (∃ e, u.out = (raise e s).out) ∨
    (positionOf s.dec = some .ckhi ∧ (b ++ s.dec.cklo : Half) = s.dec.ck ∧
      ∃ bytes, payloadCopy s.dec.payload 0 s.dec.len.toNat = .ok bytes ∧
        u = emitPkt ⟨s.dec.typ, s.dec.len, bytes⟩ (setPos 0 s)) := by
  rcases dispatch_cases b w s with ⟨-, e⟩ | ⟨-, e⟩ | ⟨-, e⟩ | ⟨-, e⟩ | ⟨-, e⟩ | ⟨-, e⟩ | ⟨hq, e⟩ | ⟨-, e⟩ <;>
    rw [e] at h
  · cases h; exact .inl rfl
  · cases h; exact .inl rfl
  · cases h
    obtain ⟨len, -, -, ⟨-, e'⟩ | ⟨-, e'⟩⟩ := decLenhi_cases b s <;> rw [e']
    · exact .inl rfl
    · exact .inr (.inl ⟨.oversize len, rfl⟩)
  · cases h; exact .inl rfl
  · obtain ⟨-, rfl⟩ := decPayload_next h; exact .inl rfl
  · cases h; exact .inl rfl
  · rcases decCkhi_next h with ⟨hck, bytes, hbytes, rfl⟩ | ⟨-, rfl⟩
    · exact .inr (.inr ⟨hq, hck, bytes, hbytes, rfl⟩)
    · exact .inr (.inl ⟨_, rfl⟩)
  · cases h

/-! ## Routing a packet (step 5 of R150) -/

/-- What routing a packet or running a pump command leaves: the state as it was, one event, or new setpoints. -/
inductive Routed (s : State) : State → Prop
  | unchanged : Routed s s
  | raised (e : Event) : Routed s (raise e s)
  | latched (a b now : Word) (s0 s1 : Half) (h0 : pwmConv s.cfg a = some s0) (h1 : pwmConv s.cfg b = some s1) :
      Routed s (s.withPump { s.pump with sp0 := s0, sp1 := s1, tCmd := now })

theorem pumpFields_routed (a b now : Word) (s : State) : Routed s (pumpFields a b now s) := by
  rcases pumpFields_cases a b now s with ⟨s0, s1, h0, h1, ⟨-, e⟩ | ⟨-, -, e⟩⟩ | ⟨-, e⟩ <;> rw [e]
  · exact .latched a b now s0 s1 h0 h1
  · exact .unchanged
  · exact .raised _

theorem pumpCommand_routed {P : Packet} {now : Word} {s t : State} (h : pumpCommand P now s = .next t) :
    Routed s t := by
  unfold pumpCommand at h
  split at h
  · cases h; exact pumpFields_routed _ _ _ _
  · cases h

theorem routePacket_routed {P : Packet} {now : Word} {s t : State} (h : routePacket P now s = .next t) :
    Routed s t := by
  unfold routePacket at h
  split at h
  · split at h
    · exact pumpCommand_routed h
    · cases h; exact .unchanged
  · cases h; exact .raised _

theorem routeEmitted_of_none {now : Word} {u : State} (h : u.out.pkt = none) : routeEmitted now u = .next u := by
  simp only [routeEmitted, h]

theorem routeEmitted_of_some {now : Word} {u : State} {P : Packet} (h : u.out.pkt = some P) :
    routeEmitted now u = routePacket P now u := by
  simp only [routeEmitted, h]

theorem routeEmitted_routed {now : Word} {u t : State} (h : routeEmitted now u = .next t) : Routed u t := by
  cases hpkt : u.out.pkt with
  | none => rw [routeEmitted_of_none hpkt] at h; cases h; exact .unchanged
  | some P => rw [routeEmitted_of_some hpkt] at h; exact routePacket_routed h

/-- What routing leaves alone: everything but the setpoints, their stamp, the counters and the events. -/
theorem Routed.frame {s t : State} (h : Routed s t) :
    t.dec = s.dec ∧ t.cfg = s.cfg ∧ t.inbox = s.inbox ∧ t.tx = s.tx ∧ t.out.tx = s.out.tx ∧
    t.out.pkt = s.out.pkt ∧ t.pump.out0 = s.pump.out0 ∧ t.pump.out1 = s.pump.out1 := by
  cases h <;> simp

/-- Routing raises at most one event. -/
theorem Routed.events_length_le {s t : State} (h : Routed s t) :
    t.out.events.length ≤ s.out.events.length + 1 := by
  cases h <;> simp

/-! ## RXBYTE (R150) -/

theorem rxbyte_of_silent {w : Byte} {s : State} (now : Word) (h : logicalOf w s = none) :
    exec (.rxbyte w now) s = .next (receiveSymbol w s.begin) := by
  simp only [exec, execRxbyte, h]

theorem rxbyte_of_logical {w b : Byte} {s : State} (now : Word) (h : logicalOf w s = some b) :
    exec (.rxbyte w now) s = andThen (dispatch b w (receiveSymbol w s.begin)) (routeEmitted now) := by
  simp only [exec, execRxbyte, h]

/-- Everything RXBYTE can leave: the state after steps 1 to 3 of R150, or what dispatching the logical byte and routing
a completed packet make of it. -/
theorem rxbyte_next {w : Byte} {now : Word} {s t : State} (h : exec (.rxbyte w now) s = .next t) :
    t = receiveSymbol w s.begin ∨
    ∃ b u, standsFor s.dec.esc w b ∧ dispatch b w (receiveSymbol w s.begin) = .next u ∧ Routed u t := by
  cases hb : logicalOf w s with
  | none => rw [rxbyte_of_silent now hb] at h; cases h; exact .inl rfl
  | some b =>
    rw [rxbyte_of_logical now hb, andThen_next_iff] at h
    obtain ⟨u, hu, ht⟩ := h
    exact .inr ⟨b, u, logicalOf_eq_some_iff.mp hb, hu, routeEmitted_routed ht⟩

/-! ## Every operation -/

/-- The kinds of answer: `Answers s i r` says in which of these ways operation `i` answers `r` in the state `s`. -/
inductive Answers (s : State) : Instr → Result → Prop
  | refused (i : Instr) (x : Refusal) : Answers s i (.refused x)
  | reset (now : Word) : Answers s (.reset now) (.next { s.begin with
      dec := .reset, pump := .reset s.cfg now, flow := .reset now, tlm := .reset now, stat := .zero })
  | rxbyte (w : Byte) (now : Word) : Answers s (.rxbyte w now) (exec (.rxbyte w now) s)
  | tick (now : Word) : Answers s (.tick now)
      (.next (sendTelemetry now (aggregateFlow now (rampOutputs now (watchdog now s.begin)))))
  | wdog (now : Word) : Answers s (.wdog now) (.next (watchdog now s.begin))
  | ramp (now : Word) : Answers s (.ramp now) (.next (rampOutputs now s.begin))
  | flowagg (now : Word) : Answers s (.flowagg now) (.next (aggregateFlow now s.begin))
  | telem (now : Word) : Answers s (.telem now) (.next (sendTelemetry now s.begin))
  | pulse (i : Byte) (f : Flow) : Answers s (.pulse i) (.next (s.begin.withFlow f))
  | sample (reg : Byte) (v : Word) (m : Telemetry) : Answers s (.sample reg v) (.next (s.begin.withTlm m))
  | escape (b : Byte) : Answers s (.escape b) (.next (answerCoded (escapeByte b) s.begin))
  | unesc (w : Byte) (lb : Option Byte) (err e : Bool) :
      Answers s (.unesc w) (.next (answerUnesc lb err (setEsc e s.begin)))
  | frame (i : Instr) (type : Byte) (n : Half) (payload : List Byte) :
      Answers s i (.next (txFrame type n payload s.begin))
  | wireClass (i : Instr) (w : Byte) (lb : Option Byte) :
      Answers s i (.next (answerLogical lb (receiveSymbol w s.begin)))
  | position (q : Position) (b w : Byte) (hq : positionOf s.dec = some q) :
      Answers s (positionInstr q b w) (dispatch b w s.begin)
  | routed (i : Instr) (t : State) (h : Routed s.begin t) : Answers s i (.next t)

theorem wireSymbol_answers (i : Instr) (c : WireClass) (w : Byte) (s : State) : Answers s i (wireSymbol c w s) := by
  unfold wireSymbol
  split
  · exact .wireClass i w _
  · exact .refused i _

theorem positionInstr_answers (q : Position) (b w : Byte) (s : State) :
    Answers s (positionInstr q b w) (exec (positionInstr q b w) s) := by
  rw [exec_positionInstr]
  split
  · next hq => exact .position q b w hq
  · exact .refused _ _

/-- A packet value is routed to the end: its payload has the fields of a pump command when it is one. -/
theorem receivePacket_answers (i : Instr) (P : Packet) (now : Word) (s : State) :
    Answers s i (receivePacket P now s) := by
  unfold receivePacket
  split
  · next hv =>
    obtain ⟨t, ht, -⟩ := routePacket_frame (payloadViolation_none.mp hv).2 now s.begin
    rw [ht]
    exact .routed i t (routePacket_routed ht)
  · exact .refused i _

theorem execPumpcmd_answers (P : Packet) (now : Word) (s : State) :
    Answers s (.pumpcmd P now) (execPumpcmd P now s) := by
  unfold execPumpcmd
  split
  · next hv =>
    have hlen : P.payload.length = 8 := by
      simp only [violation] at hv
      split at hv
      · next hp => rw [(payloadViolation_none.mp hv).2, hp.2]; rfl
      · cases hv
    obtain ⟨a, b, -, -, e⟩ := pumpCommand_fields hlen.ge now s.begin
    rw [e]
    exact .routed _ _ (pumpFields_routed a b now s.begin)
  · exact .refused _ _

/-- Every operation answers in one of the kinds. -/
theorem exec_answers (i : Instr) (s : State) : ∃ r, exec i s = r ∧ Answers s i r := by
  refine ⟨_, rfl, ?_⟩
  cases i with
  | reset now => exact .reset now
  | rxbyte w now => exact .rxbyte w now
  | tick now => exact .tick now
  | pulse k =>
    simp only [exec, execPulse]
    split
    · exact .pulse k _
    · exact .refused _ _
  | sample reg v =>
    simp only [exec, execSample]
    split
    · exact .sample reg v _
    · exact .refused _ _
  | print n bytes =>
    simp only [exec, execPrint]
    split
    · exact .frame _ _ n bytes
    · exact .refused _ _
  | wStart | wEsc | wLit | wEsc0 | wEsc1 | wEscbad => exact wireSymbol_answers _ _ _ s
  | decWait b w => exact positionInstr_answers .wait b w s
  | decLenlo b => exact positionInstr_answers .lenlo b 0 s
  | decLenhi b => exact positionInstr_answers .lenhi b 0 s
  | decType b => exact positionInstr_answers .type b 0 s
  | decPayload b => exact positionInstr_answers .payload b 0 s
  | decCklo b => exact positionInstr_answers .cklo b 0 s
  | decCkhi b => exact positionInstr_answers .ckhi b 0 s
  | unesc w => exact .unesc w _ _ _
  | pumpcmd P now => exact execPumpcmd_answers P now s
  | route | pktData | pktPrint | pktPump => exact receivePacket_answers _ _ _ s
  | wdog now => exact .wdog now
  | ramp now => exact .ramp now
  | flowagg now => exact .flowagg now
  | telem now => exact .telem now
  | escape b => exact .escape b
  | txframe t n payload =>
    simp only [exec, execTxframe]
    split
    · exact .frame _ t n payload
    · exact .refused _ _

end Sys2Proof.Proofs
end

section
/-! The block's invariant (R25, R27, R28, R35, R95): the decoder's part kept by every position operation, the pump
controller's part by routing, watchdog and ramp, and the whole by every operation and every step. -/

namespace Sys2Proof.Proofs

open Sys2Proof Sys2Proof.Machine

/-! ## The decoder's part -/

/-- The clauses of `BlockInv` about the decoder. -/
structure DecoderInv (d : Decoder) : Prop where
  memory : Memory.wf d.payload = true
  position : PositionInv d
  payload : PayloadInv d
  checksum : ChecksumInv d

theorem blockInv_iff {s : State} : BlockInv s ↔ s.cfg.Valid ∧ DecoderInv s.dec ∧ PumpInv s.cfg s.pump :=
  ⟨fun h => ⟨h.cfg, ⟨h.memory, h.position, h.payload, h.checksum⟩, h.pump⟩,
    fun ⟨hc, hd, hp⟩ => ⟨hc, hd.memory, hd.position, hd.payload, hd.checksum, hp⟩⟩

/-- No clause reads `esc`. -/
theorem DecoderInv.withEsc {d : Decoder} (h : DecoderInv d) (e : Bool) : DecoderInv { d with esc := e } :=
  ⟨h.memory, h.position, h.payload, h.checksum⟩

/-- R28: from DEC.TYPE on the length is legal. -/
theorem DecoderInv.len_le {d : Decoder} (h : DecoderInv d) (hp : 3 ≤ d.p.toNat) : d.len.toNat ≤ 1024 := by
  obtain ⟨hrange, hthree⟩ := h.position
  rcases hrange with hle | ⟨-, -, hlen⟩
  · exact hthree (by omega)
  · exact hlen

/-- R28: `p` does not pass the second checksum byte. -/
theorem DecoderInv.pos_le {d : Decoder} (h : DecoderInv d) (hp : 4 ≤ d.p.toNat) : d.p.toNat ≤ 5 + d.len.toNat := by
  obtain ⟨hrange, -⟩ := h.position
  omega

/-- R25, R95: past the type `ck` covers the header and the payload bytes that have arrived. -/
theorem DecoderInv.ck_eq {d : Decoder} (h : DecoderInv d) (hp : 4 ≤ d.p.toNat) :
    d.ck = Machine.checksum (coveredBytes d.typ d.len (arrivedPayload d)) := by
  obtain ⟨-, -, -, hcovered⟩ := h.checksum
  exact hcovered hp

/-- Before the first payload byte none has arrived. -/
theorem payloadCount_header {d : Decoder} (hp : d.p.toNat ≤ 4) : payloadCount d = 0 := by
  simp [payloadCount, Nat.sub_eq_zero_of_le hp]

theorem arrivedPayload_header {d : Decoder} (hp : d.p.toNat ≤ 4) : arrivedPayload d = [] := by
  simp [arrivedPayload, payloadCount_header hp]

/-- Up to the first payload byte the clauses are about the length and `ck` alone. -/
theorem DecoderInv.of_header {d : Decoder} (hm : Memory.wf d.payload = true) (hp : d.p.toNat ≤ 4)
    (hlen : 3 ≤ d.p.toNat → d.len.toNat ≤ maxLen) (hck : ChecksumInv d) : DecoderInv d where
  memory := hm
  position := ⟨by omega, fun h => hlen h.ge⟩
  payload := fun k hk => by rw [payloadCount_header hp] at hk; omega
  checksum := hck

/-- A decoder that waits for a start marker meets every clause. -/
theorem DecoderInv.of_waiting {d : Decoder} (hm : Memory.wf d.payload = true) (hp : d.p = 0) : DecoderInv d :=
  .of_header hm (by simp [hp]) (by simp [hp]) (by simp [ChecksumInv, hp])

/-! ## The position operations -/

theorem half_low (b c : Byte) : (b ++ c : Half).extractLsb' 0 8 = c := by
  apply BitVec.eq_of_toNat_eq
  rw [BitVec.extractLsb'_toNat, pair_toNat]
  have := c.isLt
  omega

theorem half_high (b c : Byte) : (b ++ c : Half).extractLsb' 8 8 = b := by
  apply BitVec.eq_of_toNat_eq
  rw [BitVec.extractLsb'_toNat, pair_toNat, Nat.shiftRight_eq_div_pow]
  have := b.isLt
  have := c.isLt
  omega

/-- DEC.WAIT: the frame's checksum starts from the marker itself, so a raw marker must be its own logical byte. -/
theorem decWait_decoderInv {b w : Byte} {s : State} (hs : DecoderInv s.dec) (hp : s.dec.p.toNat = 0)
    (hb : w = 0xFE#8 → b = 0xFE#8) : DecoderInv (decWait b w s).dec := by
  have hp0 : s.dec.p = 0 := BitVec.eq_of_toNat_eq hp
  by_cases hw : w = 0xFE#8
  · exact .of_header hs.memory (by simp [decWait, hw]) (by simp [decWait, hw])
      (by simp [ChecksumInv, decWait, hw, hb hw, checksum])
  · exact .of_waiting hs.memory (by simp [decWait, hw, hp0])

theorem decLenlo_decoderInv {b : Byte} {s : State} (hs : DecoderInv s.dec) (hp : s.dec.p.toNat = 1) :
    DecoderInv (decLenlo b s).dec := by
  obtain ⟨hchecksum, -⟩ := hs.checksum
  have hck := hchecksum hp
  exact .of_header hs.memory (by simp [decLenlo]) (by simp [decLenlo])
    (by simp [ChecksumInv, decLenlo, half_low, hck, checksum])

theorem decLenhi_decoderInv {b : Byte} {s : State} (hs : DecoderInv s.dec) (hp : s.dec.p.toNat = 2) :
    DecoderInv (decLenhi b s).dec := by
  obtain ⟨-, hchecksum, -⟩ := hs.checksum
  have hck := hchecksum hp
  obtain ⟨len, rfl, -, ⟨hlen, e⟩ | ⟨-, e⟩⟩ := decLenhi_cases b s <;> rw [e]
  · exact .of_header hs.memory (by simp) (fun _ => hlen)
      (by simp [ChecksumInv, half_low, half_high, hck, checksum])
  · exact .of_waiting hs.memory rfl

theorem decType_decoderInv {b : Byte} {s : State} (hs : DecoderInv s.dec) (hp : s.dec.p.toNat = 3) :
    DecoderInv (decType b s).dec := by
  obtain ⟨-, -, hchecksum, -⟩ := hs.checksum
  have hck := hchecksum hp
  have harrived : arrivedPayload (decType b s).dec = [] := arrivedPayload_header (by simp [decType])
  refine .of_header hs.memory (by simp [decType]) (fun _ => hs.len_le hp.ge) ?_
  rw [ChecksumInv, harrived]
  simp [decType, coveredBytes, hck, checksum]

/-- The decoder after DEC.PAYLOAD (R156). -/
def storeByte (b : Byte) (d : Decoder) : Decoder :=
  { d with payload := payloadWrite d.payload (d.p.toNat - 4) b, ck := addCk d.ck b, p := d.p + 1 }

theorem storeByte_payloadCount {b : Byte} {d : Decoder} (h4 : 4 ≤ d.p.toNat) (hlt : d.p.toNat < 4 + d.len.toNat)
    (hlen : d.len.toNat ≤ 1024) : payloadCount d = d.p.toNat - 4 ∧ payloadCount (storeByte b d) = d.p.toNat - 4 + 1 := by
  have hp : (d.p + 1).toNat = d.p.toNat + 1 := pos_succ_toNat (by omega)
  simp only [payloadCount, storeByte, hp]
  omega

/-- Storing a byte appends it to the bytes that have arrived. -/
theorem storeByte_arrivedPayload {b : Byte} {d : Decoder} (h4 : 4 ≤ d.p.toNat) (hlt : d.p.toNat < 4 + d.len.toNat)
    (hlen : d.len.toNat ≤ 1024) : arrivedPayload (storeByte b d) = arrivedPayload d ++ [b] := by
  obtain ⟨hold, hnew⟩ := storeByte_payloadCount (b := b) h4 hlt hlen
  have hkept : ∀ k ∈ List.range (d.p.toNat - 4),
      (payloadRead (storeByte b d).payload k).getD 0 = (payloadRead d.payload k).getD 0 := by
    intro k hk
    rw [storeByte, payloadRead_payloadWrite, if_neg (List.mem_range.mp hk).ne]
  rw [arrivedPayload, hnew, List.range_succ, List.map_append, List.map_congr_left hkept, arrivedPayload, hold]
  simp [storeByte, payloadRead_payloadWrite]

theorem storeByte_decoderInv {b : Byte} {d : Decoder} (hd : DecoderInv d) (h4 : 4 ≤ d.p.toNat)
    (hlt : d.p.toNat < 4 + d.len.toNat) : DecoderInv (storeByte b d) := by
  have hlen := hd.len_le (by omega)
  obtain ⟨hold, hnew⟩ := storeByte_payloadCount (b := b) h4 hlt hlen
  have hp : (storeByte b d).p.toNat = d.p.toNat + 1 := pos_succ_toNat (by omega)
  refine ⟨payloadWrite_wf b hd.memory (by simp only [maxLen]; omega), ⟨.inr ?_, ?_⟩, ?_, ?_, ?_, ?_, fun _ => ?_⟩
  · rw [hp]
    exact ⟨by omega, by simp only [storeByte]; omega, hlen⟩
  · omega
  · intro k hk
    rw [storeByte, payloadRead_payloadWrite]
    split
    · rfl
    · exact hd.payload k (by omega)
  · omega
  · omega
  · omega
  · rw [storeByte_arrivedPayload h4 hlt hlen, coveredBytes_snoc, checksum_snoc]
    exact congrArg (addCk · b) (hd.ck_eq h4)

/-- DEC.CKLO comes after the last payload byte: no more payload byte arrives with it. -/
theorem decCklo_decoderInv {b : Byte} {s : State} (hs : DecoderInv s.dec)
    (hp : s.dec.p.toNat = 4 + s.dec.len.toNat) : DecoderInv (decCklo b s).dec := by
  have hlen := hs.len_le (by omega)
  have hp' : (decCklo b s).dec.p.toNat = s.dec.p.toNat + 1 := pos_succ_toNat (by omega)
  have hcount : payloadCount (decCklo b s).dec = payloadCount s.dec := by
    simp only [payloadCount, hp', show (decCklo b s).dec.len = s.dec.len from rfl]
    omega
  have harrived : arrivedPayload (decCklo b s).dec = arrivedPayload s.dec := by
    simp only [arrivedPayload, hcount, show (decCklo b s).dec.payload = s.dec.payload from rfl]
  refine ⟨hs.memory, ⟨.inr ?_, ?_⟩, ?_, ?_, ?_, ?_, fun _ => ?_⟩
  · rw [hp']
    exact ⟨by omega, by simp only [decCklo, State.withDec_dec]; omega, hlen⟩
  · omega
  · intro k hk
    exact hs.payload k (hcount ▸ hk)
  · omega
  · omega
  · omega
  · rw [harrived]
    exact hs.ck_eq (by omega)

/-- Every dispatch keeps the decoder's part, where a raw start marker at DEC.WAIT is its own logical byte. -/
theorem dispatch_decoderInv {b w : Byte} {s u : State} (hs : DecoderInv s.dec)
    (hb : positionOf s.dec = some .wait → w = 0xFE#8 → b = 0xFE#8) (h : dispatch b w s = .next u) :
    DecoderInv u.dec := by
  rcases dispatch_cases b w s with ⟨hq, e⟩ | ⟨hq, e⟩ | ⟨hq, e⟩ | ⟨hq, e⟩ | ⟨hq, e⟩ | ⟨hq, e⟩ | ⟨-, e⟩ | ⟨-, e⟩ <;>
    rw [e] at h
  · cases h; exact decWait_decoderInv hs (positionOf_wait.mp hq) (hb hq)
  · cases h; exact decLenlo_decoderInv hs (positionOf_lenlo.mp hq)
  · cases h; exact decLenhi_decoderInv hs (positionOf_lenhi.mp hq)
  · cases h; exact decType_decoderInv hs (positionOf_type.mp hq)
  · obtain ⟨-, rfl⟩ := decPayload_next h
    obtain ⟨h4, hlt⟩ := positionOf_payload.mp hq
    exact storeByte_decoderInv hs h4 hlt
  · cases h; exact decCklo_decoderInv hs (positionOf_cklo.mp hq)
  · rcases decCkhi_next h with ⟨-, bytes, -, rfl⟩ | ⟨-, rfl⟩
    · exact .of_waiting hs.memory rfl
    · exact .of_waiting hs.memory rfl
  · cases h

theorem receiveSymbol_decoderInv {s : State} (hs : DecoderInv s.dec) (w : Byte) :
    DecoderInv (receiveSymbol w s).dec := by
  have hsame (e : Bool) (p : Pos) (hp : p = s.dec.p ∨ p = 0) : DecoderInv { s.dec with esc := e, p := p } := by
    rcases hp with rfl | rfl
    · exact hs.withEsc e
    · exact .of_waiting hs.memory rfl
  obtain ⟨e, p, hp, h | h⟩ := receiveSymbol_cases w s <;> rw [h]
  · exact hsame e p hp
  · exact hsame e p hp

/-! ## The pump controller's part -/

theorem Routed.pumpInv {s t : State} (h : Routed s t) (hc : s.cfg.Valid) (hs : PumpInv s.cfg s.pump) :
    PumpInv t.cfg t.pump := by
  cases h with
  | unchanged => exact hs
  | raised e => exact hs
  | latched a b now s0 s1 h0 h1 =>
    obtain ⟨-, -, hout0, hout1⟩ := hs
    exact ⟨pwmConv_inRange hc h0, pwmConv_inRange hc h1, hout0, hout1⟩

theorem neutral_inRange {c : Config} (hc : c.Valid) : inPwmRange c c.pwmNeutral := by
  obtain ⟨-, hmin, hmax, -, -⟩ := hc
  exact ⟨hmin, hmax⟩

theorem watchdog_pumpInv (now : Word) {s : State} (hc : s.cfg.Valid) (hs : PumpInv s.cfg s.pump) :
    PumpInv (watchdog now s).cfg (watchdog now s).pump := by
  obtain ⟨-, -, -, hcfg, -⟩ := watchdog_frame now s
  rw [hcfg]
  by_cases h : 4000 ≤ (now - s.pump.tCmd).toNat
  · rw [watchdog_trip h]
    have hn := neutral_inRange hc
    exact ⟨hn, hn, hn, hn⟩
  · rw [watchdog_armed (by omega)]
    exact hs

/-- A ramp step from a value in range toward a value in range stays in range. -/
theorem rampStep_inRange {c : Config} {o sp : Half} (ho : inPwmRange c o) (hsp : inPwmRange c sp) :
    inPwmRange c (rampStep o sp) := by
  have := rampStep_between o sp
  unfold inPwmRange at *
  omega

theorem rampOutputs_pumpInv (now : Word) {s : State} (hs : PumpInv s.cfg s.pump) :
    PumpInv (rampOutputs now s).cfg (rampOutputs now s).pump := by
  obtain ⟨hsp0, hsp1, hout0, hout1⟩ := hs
  by_cases h : 100 ≤ (now - s.pump.tRamp).toNat
  · rw [rampOutputs_due h]
    exact ⟨hsp0, hsp1, rampStep_inRange hout0 hsp0, rampStep_inRange hout1 hsp1⟩
  · rw [rampOutputs_notDue (by omega)]
    exact ⟨hsp0, hsp1, hout0, hout1⟩

/-! ## The whole invariant -/

/-- The invariant is about the configuration, the decoder and the pump controller only. -/
theorem blockInv_of_frame {s t : State} (hs : BlockInv s) (hcfg : t.cfg = s.cfg) (hdec : t.dec = s.dec)
    (hpump : t.pump = s.pump) : BlockInv t := by
  rw [blockInv_iff] at hs ⊢
  rwa [hcfg, hdec, hpump]

theorem blockInv_of_decoder {s t : State} (hs : BlockInv s) (hcfg : t.cfg = s.cfg) (hpump : t.pump = s.pump)
    (hdec : DecoderInv t.dec) : BlockInv t := by
  rw [blockInv_iff] at hs ⊢
  obtain ⟨hc, -, hp⟩ := hs
  rw [hcfg, hpump]
  exact ⟨hc, hdec, hp⟩

theorem blockInv_of_pump {s t : State} (hs : BlockInv s) (hcfg : t.cfg = s.cfg) (hdec : t.dec = s.dec)
    (hpump : PumpInv t.cfg t.pump) : BlockInv t := by
  rw [blockInv_iff] at hs ⊢
  obtain ⟨hc, hd, -⟩ := hs
  rw [hdec]
  exact ⟨hcfg ▸ hc, hd, hpump⟩

theorem blockInv_begin {s : State} (hs : BlockInv s) : BlockInv s.begin :=
  blockInv_of_frame hs rfl rfl rfl

theorem decoderInv_of_blockInv {s : State} (hs : BlockInv s) : DecoderInv s.dec := by
  obtain ⟨-, hd, -⟩ := blockInv_iff.mp hs
  exact hd

/-- The decoder and the pump controller right after reset, under any legal configuration. -/
theorem blockInv_of_reset {s : State} {now : Word} (hc : s.cfg.Valid) (hdec : s.dec = .reset)
    (hpump : s.pump = .reset s.cfg now) : BlockInv s := by
  have hn := neutral_inRange hc
  rw [blockInv_iff, hdec, hpump]
  exact ⟨hc, .of_waiting rfl rfl, hn, hn, hn, hn⟩

theorem receiveSymbol_blockInv {s : State} (hs : BlockInv s) (w : Byte) : BlockInv (receiveSymbol w s) := by
  obtain ⟨hpump, hcfg, -⟩ := receiveSymbol_frame w s
  exact blockInv_of_decoder hs hcfg hpump (receiveSymbol_decoderInv (decoderInv_of_blockInv hs) w)

theorem dispatch_blockInv {b w : Byte} {s u : State} (hs : BlockInv s)
    (hb : positionOf s.dec = some .wait → w = 0xFE#8 → b = 0xFE#8) (h : dispatch b w s = .next u) : BlockInv u := by
  obtain ⟨hpump, -, -, hcfg, -⟩ := dispatch_frame h
  exact blockInv_of_decoder hs hcfg hpump (dispatch_decoderInv (decoderInv_of_blockInv hs) hb h)

theorem Routed.blockInv {s t : State} (h : Routed s t) (hs : BlockInv s) : BlockInv t := by
  obtain ⟨hdec, hcfg, -⟩ := h.frame
  exact blockInv_of_pump hs hcfg hdec (h.pumpInv hs.cfg hs.pump)

theorem watchdog_blockInv (now : Word) {s : State} (hs : BlockInv s) : BlockInv (watchdog now s) := by
  obtain ⟨hdec, -, -, hcfg, -⟩ := watchdog_frame now s
  exact blockInv_of_pump hs hcfg hdec (watchdog_pumpInv now hs.cfg hs.pump)

theorem rampOutputs_blockInv (now : Word) {s : State} (hs : BlockInv s) : BlockInv (rampOutputs now s) := by
  obtain ⟨hdec, -, -, -, hcfg, -⟩ := rampOutputs_frame now s
  exact blockInv_of_pump hs hcfg hdec (rampOutputs_pumpInv now hs.pump)

theorem aggregateFlow_blockInv (now : Word) {s : State} (hs : BlockInv s) : BlockInv (aggregateFlow now s) := by
  obtain ⟨hdec, hpump, -, -, hcfg, -⟩ := aggregateFlow_frame now s
  exact blockInv_of_frame hs hcfg hdec hpump

theorem sendTelemetry_blockInv (now : Word) {s : State} (hs : BlockInv s) : BlockInv (sendTelemetry now s) := by
  obtain ⟨hdec, hpump, -, -, hcfg, -⟩ := sendTelemetry_frame now s
  exact blockInv_of_frame hs hcfg hdec hpump

theorem rxbyte_blockInv {w : Byte} {now : Word} {s t : State} (hs : BlockInv s)
    (h : exec (.rxbyte w now) s = .next t) : BlockInv t := by
  have hreceived : BlockInv (receiveSymbol w s.begin) := receiveSymbol_blockInv (blockInv_begin hs) w
  rcases rxbyte_next h with rfl | ⟨b, u, hb, hu, ht⟩
  · exact hreceived
  · refine ht.blockInv (dispatch_blockInv hreceived (fun _ hw => ?_) hu)
    subst hw
    exact (standsFor_start hb).2

/-- A well-formed DEC.WAIT gives a raw start marker as its own logical byte (R152). -/
theorem decWait_start_of_wellFormed {b : Byte} (h : WellFormed (.decWait b 0xFE#8)) : b = 0xFE#8 := by
  have hproduced : producedFrom b 0xFE#8 = true := by
    simp only [WellFormed, violation] at h
    split at h
    · next hp => exact hp
    · cases h
  simpa [producedFrom, eq_comm] using hproduced

/-- Every operation with operands in their domain keeps the invariant. -/
theorem exec_blockInv {i : Instr} {s t : State} (hs : BlockInv s) (hi : WellFormed i) (h : exec i s = .next t) :
    BlockInv t := by
  have hbegin := blockInv_begin hs
  obtain ⟨r, hr, ha⟩ := exec_answers i s
  rw [hr] at h
  cases ha with
  | refused => cases h
  | reset now => cases h; exact blockInv_of_reset hs.cfg rfl rfl
  | rxbyte w now => exact rxbyte_blockInv hs h
  | tick now =>
    cases h
    exact sendTelemetry_blockInv now (aggregateFlow_blockInv now (rampOutputs_blockInv now (watchdog_blockInv now hbegin)))
  | wdog now => cases h; exact watchdog_blockInv now hbegin
  | ramp now => cases h; exact rampOutputs_blockInv now hbegin
  | flowagg now => cases h; exact aggregateFlow_blockInv now hbegin
  | telem now => cases h; exact sendTelemetry_blockInv now hbegin
  | pulse | sample | escape | frame => cases h; exact blockInv_of_frame hs rfl rfl rfl
  | unesc w lb err e => cases h; exact blockInv_of_decoder hbegin rfl rfl ((decoderInv_of_blockInv hs).withEsc e)
  | wireClass _ w lb => cases h; exact blockInv_of_frame (receiveSymbol_blockInv hbegin w) rfl rfl rfl
  | position q b w hq =>
    refine dispatch_blockInv hbegin (fun hwait hw => ?_) h
    obtain rfl : q = .wait := Option.some.inj (hq.symm.trans hwait)
    subst hw
    exact decWait_start_of_wellFormed hi
  | routed _ t' ht => cases h; exact ht.blockInv hbegin

/-- Whatever the decoder accepts has every operand in its domain. -/
theorem wellFormed_of_decode {bs rest : List Byte} {i : Instr} (h : decode bs = .ok (i, rest)) : WellFormed i := by
  unfold decode at h
  split at h
  · cases h
  · split at h
    · cases h
    · split at h
      · next hv => cases h; exact hv
      · cases h

/-- An operation that is fetched has been decoded from the pending bytes. -/
theorem wellFormed_of_fetch {s : State} {i : Instr} {rest : List Byte} (h : fetch s = .operation i rest) :
    WellFormed i := by
  unfold fetch at h
  split at h
  · cases h
  · split at h
    · next hd => cases h; exact wellFormed_of_decode hd
    · cases h

/-- Settles O55: a step is idle, or runs an operation that the decoder has checked (`exec_blockInv`). -/
theorem everyStepKeepsTheInvariant : Obligations.EveryStepKeepsTheInvariant := by
  intro s t hs h
  unfold step at h
  split at h
  · cases h; exact hs
  · next i rest hf =>
    have hpending : BlockInv (s.withInbox rest) := blockInv_of_frame hs rfl rfl rfl
    exact exec_blockInv hpending (wellFormed_of_fetch hf) h
  · cases h

/-- Settles O54: the initial states and the state after reset have the decoder and the pump controller of a reset. -/
theorem invariantHoldsAfterReset : Obligations.InvariantHoldsAfterReset := by
  have hinitial (c : Config) (now : Word) (hc : c.Valid) : BlockInv (State.initial c now) :=
    blockInv_of_reset hc rfl rfl
  exact ⟨hinitial, hinitial Config.example 0 (by simp [Config.Valid, Config.example])⟩

end Sys2Proof.Proofs
end

section
/-! When an operation completes (R102, R163, R250, R271): the decoder's faults outside R27 and R28, none of them under
the invariant, and what RXBYTE can emit. -/

namespace Sys2Proof.Proofs

open Sys2Proof Sys2Proof.Machine

/-! ## The faults of the decoder -/

theorem dispatch_payload {b w : Byte} {s : State} (hq : positionOf s.dec = some .payload) :
    dispatch b w s = decPayload b s := by
  simp only [dispatch, hq]

theorem dispatch_ckhi {b w : Byte} {s : State} (hq : positionOf s.dec = some .ckhi) :
    dispatch b w s = decCkhi b s := by
  simp only [dispatch, hq]

theorem dispatch_unreachable {b w : Byte} {s : State} (hq : positionOf s.dec = none) :
    dispatch b w s = .fault .unreachablePosition := by
  simp only [dispatch, hq]

/-- A copy inside the buffer stops at a byte that nothing has written. -/
theorem payloadCopy_unwritten {m : Memory} {a n k : Nat} (hl : a + n ≤ maxLen) (hak : a ≤ k) (hkn : k < a + n)
    (hk : payloadRead m k = none) : payloadCopy m a n = .error .unwrittenPayload := by
  induction n generalizing a with
  | zero => omega
  | succ n ih =>
    have ha : ¬ maxLen ≤ a := by omega
    cases hread : payloadRead m a with
    | none => simp only [payloadCopy, ha, hread, if_false]
    | some c =>
      have hne : a ≠ k := by rintro rfl; rw [hk] at hread; cases hread
      have hrest := ih (a := a + 1) (by omega) (by omega) (by omega)
      simp only [payloadCopy, ha, hread, hrest, if_false]

theorem decPayload_fault {b : Byte} {s : State} (hp : 1028 ≤ s.dec.p.toNat) :
    decPayload b s = .fault .payloadIndex := by
  have hk : ¬ s.dec.p.toNat - 4 < maxLen := by simp only [maxLen]; omega
  simp only [decPayload, hk, if_false]

theorem decCkhi_fault {b : Byte} {s : State} {k : Nat} (hlen : s.dec.len.toNat ≤ 1024)
    (hck : (b ++ s.dec.cklo : Half) = s.dec.ck) (hk : k < s.dec.len.toNat)
    (hread : payloadRead s.dec.payload k = none) : decCkhi b s = .fault .unwrittenPayload := by
  have hcopy : payloadCopy s.dec.payload 0 s.dec.len.toNat = .error .unwrittenPayload :=
    payloadCopy_unwritten (by simpa using hlen) (Nat.zero_le k) (by omega) hread
  simp only [decCkhi, hck, hcopy, if_true]

/-- Settles O24: a byte that stands for a logical byte reaches the dispatch with `p`, `len`, `ck` and the buffer as they
are, and the selected position faults. -/
theorem decoderFaultsByName : Obligations.DecoderFaultsByName := by
  intro w b now s hb hw
  have hfault {f : Fault} (h : dispatch b w (setEsc false s.begin) = .fault f) :
      exec (.rxbyte w now) s = .fault f := by
    rw [rxbyte_dispatch now hb hw, h]
    rfl
  refine ⟨fun hpast h4 => hfault ?_, fun hp hlt => hfault ?_, fun k hp hlen hck hk hread => hfault ?_⟩
  · exact dispatch_unreachable (positionOf_none.mpr ⟨h4, hpast⟩)
  · have h4 : 4 ≤ s.dec.p.toNat := by omega
    rw [dispatch_payload (by exact positionOf_payload.mpr ⟨h4, hlt⟩)]
    exact decPayload_fault hp
  · rw [dispatch_ckhi (by exact positionOf_ckhi.mpr hp)]
    exact decCkhi_fault hlen ((pair_eq_iff _ _ _).mp hck) hk hread

/-! ## Completion under the invariant -/

/-- At DEC.CKHI the length is legal and every payload byte has arrived, so the copy answers exactly those bytes. -/
theorem payloadCopy_arrived {d : Decoder} (hd : DecoderInv d) (hp : d.p.toNat = 5 + d.len.toNat) :
    d.len.toNat ≤ 1024 ∧ payloadCopy d.payload 0 d.len.toNat = .ok (arrivedPayload d) := by
  have hlen := hd.len_le (by omega)
  have hcount : payloadCount d = d.len.toNat := by simp only [payloadCount]; omega
  have hlength : (arrivedPayload d).length = d.len.toNat := by simp [arrivedPayload, hcount]
  refine ⟨hlen, ?_⟩
  rw [← hlength]
  refine payloadCopy_ok (by simpa [hlength] using hlen) fun k hk => ?_
  obtain ⟨c, hc⟩ := Option.isSome_iff_exists.mp (hd.payload k (by omega))
  simp [arrivedPayload, hc]

/-- Under the invariant a position is selected, the payload index is in the buffer and the copy's bytes are written. -/
theorem dispatch_completes {s : State} (hs : DecoderInv s.dec) (b w : Byte) : ∃ u, dispatch b w s = .next u := by
  rcases dispatch_cases b w s with ⟨-, e⟩ | ⟨-, e⟩ | ⟨-, e⟩ | ⟨-, e⟩ | ⟨hq, e⟩ | ⟨-, e⟩ | ⟨hq, e⟩ | ⟨hq, -⟩
  · exact ⟨_, e⟩
  · exact ⟨_, e⟩
  · exact ⟨_, e⟩
  · exact ⟨_, e⟩
  · have hk : s.dec.p.toNat - 4 < maxLen := by
      obtain ⟨h4, hlt⟩ := positionOf_payload.mp hq
      have hlen := hs.len_le (by omega)
      simp only [maxLen]
      omega
    rw [e]
    simp only [decPayload, hk, if_true]
    exact ⟨_, rfl⟩
  · exact ⟨_, e⟩
  · obtain ⟨-, hcopy⟩ := payloadCopy_arrived hs (positionOf_ckhi.mp hq)
    rw [e]
    simp only [decCkhi, hcopy]
    split
    · exact ⟨_, rfl⟩
    · exact ⟨_, rfl⟩
  · obtain ⟨h4, hpast⟩ := positionOf_none.mp hq
    have hle := hs.pos_le h4
    omega

/-- Routing after a dispatch completes: an emitted packet has its declared length, and a packet comes without an event,
so that the dispatch and the routing raise at most one. -/
theorem routeEmitted_completes {b w : Byte} {s u : State} (h : dispatch b w s = .next u) (h0 : s.out = Output.empty)
    (now : Word) : ∃ t, routeEmitted now u = .next t ∧ t.out.events.length ≤ 1 := by
  rcases dispatch_output h with hout | ⟨e, hout⟩ | ⟨-, -, bytes, hcopy, rfl⟩
  · exact ⟨u, routeEmitted_of_none (by rw [hout, h0]; rfl), by simp [hout, h0, Output.empty]⟩
  · exact ⟨u, routeEmitted_of_none (by rw [hout, raise_out, h0]; rfl), by simp [hout, h0, Output.empty]⟩
  · obtain ⟨hlength, -⟩ := payloadCopy_spec hcopy
    rw [routeEmitted_of_some rfl]
    obtain ⟨t, ht, -⟩ := routePacket_frame (P := ⟨s.dec.typ, s.dec.len, bytes⟩) hlength now
      (emitPkt ⟨s.dec.typ, s.dec.len, bytes⟩ (setPos 0 s))
    exact ⟨t, ht, by simpa [h0, Output.empty] using (routePacket_routed ht).events_length_le⟩

/-- RXBYTE on a byte that stands for a logical byte, under the invariant: the dispatch completes and the clock plays a
part in the routing only. -/
theorem rxbyte_eq_routeEmitted {w b : Byte} {s : State} (hs : BlockInv s) (hb : standsFor s.dec.esc w b) :
    ∃ u, dispatch b w (receiveSymbol w s.begin) = .next u ∧ ∀ now, exec (.rxbyte w now) s = routeEmitted now u := by
  obtain ⟨u, hu⟩ := dispatch_completes
    (receiveSymbol_decoderInv (decoderInv_of_blockInv (blockInv_begin hs)) w) b w
  exact ⟨u, hu, fun now => by rw [rxbyte_of_logical now (logicalOf_standsFor hb), hu]; rfl⟩

theorem receiveSymbol_out_of_standsFor {w b : Byte} {s : State} (hb : standsFor s.dec.esc w b) :
    (receiveSymbol w s.begin).out = Output.empty := by
  rw [receiveSymbol_of_standsFor (b := b) (by exact hb)]
  rfl

/-- Under the invariant RXBYTE completes and raises at most one event. -/
theorem rxbyte_completes {s : State} (hs : BlockInv s) (w : Byte) (now : Word) :
    ∃ t, exec (.rxbyte w now) s = .next t ∧ t.out.events.length ≤ 1 := by
  cases hlogical : logicalOf w s with
  | none => exact ⟨_, rxbyte_of_silent now hlogical, receiveSymbol_events w s.begin⟩
  | some b =>
    have hb := logicalOf_eq_some_iff.mp hlogical
    obtain ⟨u, hu, hexec⟩ := rxbyte_eq_routeEmitted hs hb
    rw [hexec now]
    exact routeEmitted_completes hu (receiveSymbol_out_of_standsFor hb) now

/-- What RXBYTE leaves in the decoder does not depend on the clock. -/
theorem rxbyte_dec_eq {w : Byte} {now now' : Word} {s t t' : State} (hs : BlockInv s)
    (h : exec (.rxbyte w now) s = .next t) (h' : exec (.rxbyte w now') s = .next t') : t'.dec = t.dec := by
  cases hlogical : logicalOf w s with
  | none =>
    rw [rxbyte_of_silent _ hlogical] at h h'
    cases h
    cases h'
    rfl
  | some b =>
    obtain ⟨u, -, hexec⟩ := rxbyte_eq_routeEmitted hs (logicalOf_eq_some_iff.mp hlogical)
    rw [hexec] at h h'
    obtain ⟨hdec, -⟩ := (routeEmitted_routed h).frame
    obtain ⟨hdec', -⟩ := (routeEmitted_routed h').frame
    rw [hdec, hdec']

/-- A packet that a dispatch emits under the invariant is legal, and the received checksum is the one of its bytes. -/
theorem dispatch_emits_verified {b w : Byte} {s u : State} {P : Packet} (hs : DecoderInv s.dec)
    (h : dispatch b w s = .next u) (h0 : s.out.pkt = none) (hP : u.out.pkt = some P) :
    P.length.toNat ≤ 1024 ∧ P.payload.length = P.length.toNat ∧
      (b ++ s.dec.cklo : Half) = checksumSum (coveredBytes P.type P.length P.payload) := by
  rcases dispatch_output h with hout | ⟨e, hout⟩ | ⟨hq, hck, bytes, hcopy, rfl⟩
  · rw [hout, h0] at hP; cases hP
  · rw [hout, raise_out, h0] at hP; cases hP
  · obtain rfl : ⟨s.dec.typ, s.dec.len, bytes⟩ = P := Option.some.inj hP
    have hp := positionOf_ckhi.mp hq
    obtain ⟨hlen, harrived⟩ := payloadCopy_arrived hs hp
    obtain rfl : bytes = arrivedPayload s.dec := Except.ok.inj (hcopy.symm.trans harrived)
    obtain ⟨hlength, -⟩ := payloadCopy_spec hcopy
    refine ⟨hlen, hlength, ?_⟩
    rw [hck, ← checksum_eq_checksumSum]
    exact hs.ck_eq (by omega)

theorem rxbyte_emits_verified {w : Byte} {now : Word} {s t : State} {P : Packet} (hs : BlockInv s)
    (h : exec (.rxbyte w now) s = .next t) (hP : t.out.pkt = some P) :
    P.length.toNat ≤ 1024 ∧ P.payload.length = P.length.toNat ∧
      ∃ b, standsFor s.dec.esc w b ∧ (b ++ s.dec.cklo : Half) = checksumSum (coveredBytes P.type P.length P.payload) := by
  have hreceived := receiveSymbol_decoderInv (decoderInv_of_blockInv (blockInv_begin hs)) w
  obtain ⟨-, -, -, -, -, hpkt⟩ := receiveSymbol_frame w s.begin
  rcases rxbyte_next h with rfl | ⟨b, u, hb, hu, ht⟩
  · rw [hpkt] at hP; cases hP
  · obtain ⟨-, -, -, -, -, hpktRouted, -⟩ := ht.frame
    obtain ⟨hlen, hlength, hck⟩ := dispatch_emits_verified hreceived hu hpkt (hpktRouted ▸ hP)
    rw [receiveSymbol_of_standsFor (b := b) (by exact hb)] at hck
    exact ⟨hlen, hlength, b, hb, hck⟩

/-- Settles O29, clause by clause. -/
theorem rxCompletesWithAVerifiedPacket : Obligations.RxCompletesWithAVerifiedPacket := by
  intro w now s hs
  obtain ⟨t, ht, hevents⟩ := rxbyte_completes hs w now
  exact ⟨t, ht, hevents, fun _ _ ht' => rxbyte_dec_eq hs ht ht', fun _ hP => rxbyte_emits_verified hs ht hP⟩

/-- Settles O56: only RXBYTE and the position operations reach the decoder's faults, and under the invariant both
complete. -/
theorem noFaultUnderTheInvariant : Obligations.NoFaultUnderTheInvariant := by
  intro i s f hs h
  obtain ⟨r, hr, ha⟩ := exec_answers i s
  rw [hr] at h
  cases ha with
  | rxbyte w now =>
    obtain ⟨t, ht, -⟩ := rxbyte_completes hs w now
    rw [ht] at h
    cases h
  | position q b w =>
    obtain ⟨u, hu⟩ := dispatch_completes (decoderInv_of_blockInv (blockInv_begin hs)) b w
    rw [hu] at h
    cases h
  | _ => cases h

/-! ## External events -/

theorem wellFormed_pulse {k : Byte} : WellFormed (.pulse k) ↔ k.toNat < 3 := by
  simp [WellFormed, violation]

theorem wellFormed_sample {reg : Byte} {v : Word} : WellFormed (.sample reg v) ↔ reg.toNat < 18 := by
  simp [WellFormed, violation]

/-- The registers that SAMPLE can write are numbered 0 to 17 (R111). -/
theorem writeSample_isSome {reg : Nat} (h : reg < 18) (v : Word) (m : Telemetry) : ∃ m', writeSample reg v m = some m' := by
  unfold writeSample
  split
  · exact ⟨_, rfl⟩
  · split
    · exact ⟨_, rfl⟩
    · rw [dif_pos (by omega)]
      exact ⟨_, rfl⟩

/-- Settles O53, event by event: only RXBYTE needs the invariant, and only PULSE, SAMPLE and PRINT have operands that can
be out of range. -/
theorem eventsInRangeComplete : Obligations.EventsInRangeComplete := by
  intro i s hs hevent hi
  cases i with
  | reset now => exact ⟨_, rfl⟩
  | rxbyte w now =>
    obtain ⟨t, ht, -⟩ := rxbyte_completes hs w now
    exact ⟨t, ht⟩
  | tick now => exact ⟨_, rfl⟩
  | pulse k =>
    simp only [exec, execPulse, dif_pos (wellFormed_pulse.mp hi)]
    exact ⟨_, rfl⟩
  | sample reg v =>
    obtain ⟨m, hm⟩ := writeSample_isSome (wellFormed_sample.mp hi) v s.tlm
    simp only [exec, execSample, hm]
    exact ⟨_, rfl⟩
  | print n bytes =>
    have hv : payloadViolation n bytes = none := hi
    simp only [exec, execPrint, hv]
    exact ⟨_, rfl⟩
  | _ => cases hevent

/-- Settles O50: the reset values, register by register. -/
theorem resetWritesEveryRegister : Obligations.ResetWritesEveryRegister := by
  intro now s
  exact ⟨_, rfl, rfl, rfl, rfl, rfl, rfl, rfl, rfl, rfl, rfl, rfl, rfl, rfl, rfl, rfl⟩

end Sys2Proof.Proofs
end

section
/-! What no operation touches: the outputs outside RESET, TICK, WDOG and RAMP (R31, R306), the configuration, the pending
events and the bytes already sent (R51, R52, R80). -/

namespace Sys2Proof.Proofs

open Sys2Proof Sys2Proof.Machine

/-! ## The outputs -/

/-- Settles O43: the other kinds of answer leave both outputs, RXBYTE and the position operations by their frames. -/
theorem onlyTimedOperationsMoveOutputs : Obligations.OnlyTimedOperationsMoveOutputs := by
  intro i s t h hmoved
  obtain ⟨r, hr, ha⟩ := exec_answers i s
  rw [hr] at h
  cases ha with
  | reset now => exact .inl ⟨now, rfl⟩
  | tick now => exact .inr (.inl ⟨now, rfl⟩)
  | wdog now => exact .inr (.inr (.inl ⟨now, rfl⟩))
  | ramp now => exact .inr (.inr (.inr ⟨now, rfl⟩))
  | refused => cases h
  | rxbyte w now =>
    obtain ⟨hpump, -⟩ := receiveSymbol_frame w s.begin
    rcases rxbyte_next h with rfl | ⟨b, u, -, hu, ht⟩
    · simp [hpump] at hmoved
    · obtain ⟨hpump', -⟩ := dispatch_frame hu
      obtain ⟨-, -, -, -, -, -, hout0, hout1⟩ := ht.frame
      simp [hout0, hout1, hpump', hpump] at hmoved
  | flowagg now =>
    cases h
    obtain ⟨-, hpump, -⟩ := aggregateFlow_frame now s.begin
    simp [hpump] at hmoved
  | telem now =>
    cases h
    obtain ⟨-, hpump, -⟩ := sendTelemetry_frame now s.begin
    simp [hpump] at hmoved
  | pulse | sample | escape | unesc | frame => cases h; simp at hmoved
  | wireClass _ w lb =>
    cases h
    obtain ⟨hpump, -⟩ := receiveSymbol_frame w s.begin
    simp [hpump] at hmoved
  | position q b w =>
    obtain ⟨hpump, -⟩ := dispatch_frame h
    simp [hpump] at hmoved
  | routed _ t' ht =>
    cases h
    obtain ⟨-, -, -, -, -, -, hout0, hout1⟩ := ht.frame
    simp [hout0, hout1] at hmoved

/-! ## The configuration, the pending events and the TX stream -/

/-- From `s` to `t` the configuration and the pending events stay, and the same bytes are appended to the TX stream and
to the output's TX bytes. -/
def Extends (s t : State) : Prop :=
  t.cfg = s.cfg ∧ t.inbox = s.inbox ∧ ∃ bs, t.tx = s.tx ++ bs ∧ t.out.tx = s.out.tx ++ bs

theorem Extends.of_quiet {s t : State} (hcfg : t.cfg = s.cfg) (hinbox : t.inbox = s.inbox) (htx : t.tx = s.tx)
    (hout : t.out.tx = s.out.tx) : Extends s t :=
  ⟨hcfg, hinbox, [], by rw [htx, List.append_nil], by rw [hout, List.append_nil]⟩

theorem Extends.trans {s t u : State} (hst : Extends s t) (htu : Extends t u) : Extends s u := by
  obtain ⟨hcfg, hinbox, bs, htx, hout⟩ := hst
  obtain ⟨hcfg', hinbox', bs', htx', hout'⟩ := htu
  exact ⟨hcfg'.trans hcfg, hinbox'.trans hinbox, bs ++ bs', by rw [htx', htx, List.append_assoc],
    by rw [hout', hout, List.append_assoc]⟩

theorem txFrame_extends (type : Byte) (n : Half) (payload : List Byte) (s : State) :
    Extends s (txFrame type n payload s) :=
  ⟨rfl, rfl, frameBytes type n payload, rfl, rfl⟩

theorem receiveSymbol_extends (w : Byte) (s : State) : Extends s (receiveSymbol w s) := by
  obtain ⟨-, hcfg, hinbox, htx, hout, -⟩ := receiveSymbol_frame w s
  exact .of_quiet hcfg hinbox htx hout

theorem dispatch_extends {b w : Byte} {s u : State} (h : dispatch b w s = .next u) : Extends s u := by
  obtain ⟨-, -, -, hcfg, hinbox, htx, hout⟩ := dispatch_frame h
  exact .of_quiet hcfg hinbox htx hout

theorem Routed.extends {s t : State} (h : Routed s t) : Extends s t := by
  obtain ⟨-, hcfg, hinbox, htx, hout, -⟩ := h.frame
  exact .of_quiet hcfg hinbox htx hout

theorem watchdog_extends (now : Word) (s : State) : Extends s (watchdog now s) := by
  obtain ⟨-, -, -, hcfg, hinbox, htx, hout, -⟩ := watchdog_frame now s
  exact .of_quiet hcfg hinbox htx hout

theorem rampOutputs_extends (now : Word) (s : State) : Extends s (rampOutputs now s) := by
  obtain ⟨-, -, -, -, hcfg, hinbox, htx, hout, -⟩ := rampOutputs_frame now s
  exact .of_quiet hcfg hinbox htx (by rw [hout])

theorem aggregateFlow_extends (now : Word) (s : State) : Extends s (aggregateFlow now s) := by
  obtain ⟨-, -, -, -, hcfg, hinbox, htx, hout⟩ := aggregateFlow_frame now s
  exact .of_quiet hcfg hinbox htx (by rw [hout])

theorem sendTelemetry_extends (now : Word) (s : State) : Extends s (sendTelemetry now s) := by
  by_cases h : 10 ≤ (now - s.tlm.tTlm).toNat
  · rw [sendTelemetry_due h]
    exact txFrame_extends _ _ _ (s.withTlm _)
  · rw [sendTelemetry_notDue (by omega)]
    exact .of_quiet rfl rfl rfl rfl

/-- Every operation, from the start of the operation on. -/
theorem exec_extends {i : Instr} {s t : State} (h : exec i s = .next t) : Extends s.begin t := by
  obtain ⟨r, hr, ha⟩ := exec_answers i s
  rw [hr] at h
  cases ha with
  | refused => cases h
  | rxbyte w now =>
    have hreceived := receiveSymbol_extends w s.begin
    rcases rxbyte_next h with rfl | ⟨b, u, -, hu, ht⟩
    · exact hreceived
    · exact (hreceived.trans (dispatch_extends hu)).trans ht.extends
  | tick now =>
    cases h
    exact ((watchdog_extends now _).trans (rampOutputs_extends now _)).trans
      ((aggregateFlow_extends now _).trans (sendTelemetry_extends now _))
  | wdog now => cases h; exact watchdog_extends now _
  | ramp now => cases h; exact rampOutputs_extends now _
  | flowagg now => cases h; exact aggregateFlow_extends now _
  | telem now => cases h; exact sendTelemetry_extends now _
  | frame _ type n payload => cases h; exact txFrame_extends type n payload _
  | reset | pulse | sample | escape | unesc => cases h; exact .of_quiet rfl rfl rfl rfl
  | wireClass _ w lb => cases h; exact (receiveSymbol_extends w _).trans (.of_quiet rfl rfl rfl rfl)
  | position q b w => exact dispatch_extends h
  | routed _ t' ht => cases h; exact ht.extends

/-- Settles O57: an operation starts with an empty output, so its output's TX bytes are all that it appended. -/
theorem configurationFixedAndStreamGrows : Obligations.ConfigurationFixedAndStreamGrows := by
  intro i s t h
  obtain ⟨hcfg, hinbox, bs, htx, hout⟩ := exec_extends h
  have hbs : t.out.tx = bs := hout
  exact ⟨hcfg, hinbox, by rw [htx, hbs]; rfl⟩

end Sys2Proof.Proofs
end

section
/-! No operation reads a counter or the last operation's output (R50, R267). -/

namespace Sys2Proof.Proofs

open Sys2Proof Sys2Proof.Machine

/-! ## Erasing the counters -/

/-- What erasing the counters leaves alone. -/
theorem eraseCounters_frame (s : State) :
    s.eraseCounters.dec = s.dec ∧ s.eraseCounters.pump = s.pump ∧ s.eraseCounters.flow = s.flow ∧
    s.eraseCounters.tlm = s.tlm ∧ s.eraseCounters.cfg = s.cfg ∧ s.eraseCounters.out = s.out :=
  ⟨rfl, rfl, rfl, rfl, rfl, rfl⟩

/-! ## Parts of an operation that do not read the counters -/

/-- A part of an operation that does the same, the counters apart, when it starts with the counters erased. -/
def CounterBlind (f : State → State) : Prop := ∀ s, (f s).eraseCounters = (f s.eraseCounters).eraseCounters

/-- The same of a part that can stop. -/
def AnswersCounterBlind (f : State → Result) : Prop :=
  ∀ s, Result.eraseCounters (f s) = Result.eraseCounters (f s.eraseCounters)

theorem CounterBlind.comp {f g : State → State} (hg : CounterBlind g) (hf : CounterBlind f) :
    CounterBlind fun s => g (f s) := fun s =>
  calc (g (f s)).eraseCounters = (g (f s).eraseCounters).eraseCounters := hg _
    _ = (g (f s.eraseCounters).eraseCounters).eraseCounters := by rw [hf s]
    _ = (g (f s.eraseCounters)).eraseCounters := (hg _).symm

theorem CounterBlind.next {f : State → State} (hf : CounterBlind f) : AnswersCounterBlind fun s => .next (f s) :=
  fun s => congrArg Host.Outcome.next (hf s)

theorem AnswersCounterBlind.comp {f : State → Result} {g : State → State} (hf : AnswersCounterBlind f)
    (hg : CounterBlind g) : AnswersCounterBlind fun s => f (g s) := fun s =>
  calc Result.eraseCounters (f (g s)) = Result.eraseCounters (f (g s).eraseCounters) := hf _
    _ = Result.eraseCounters (f (g s.eraseCounters).eraseCounters) := by rw [hg s]
    _ = Result.eraseCounters (f (g s.eraseCounters)) := (hf _).symm

/-- Going on with a part that does not read the counters, they may as well be erased in between. -/
theorem eraseCounters_andThen {k : State → Result} (hk : AnswersCounterBlind k) (r : Result) :
    Result.eraseCounters (andThen r k) = Result.eraseCounters (andThen (Result.eraseCounters r) k) := by
  cases r with
  | next t => exact hk t
  | fault | refused => rfl

theorem AnswersCounterBlind.andThen {f k : State → Result} (hf : AnswersCounterBlind f) (hk : AnswersCounterBlind k) :
    AnswersCounterBlind fun s => andThen (f s) k := by
  intro s
  rw [eraseCounters_andThen hk, hf s, ← eraseCounters_andThen hk]

/-! ## The parts -/

theorem begin_counterBlind : CounterBlind State.begin := fun _ => rfl

theorem answerLogical_counterBlind (lb : Option Byte) : CounterBlind (answerLogical lb) := fun _ => rfl

/-- Receiving a wire byte, in the three cases of UNESC. -/
theorem receiveSymbol_counterBlind (w : Byte) : CounterBlind (receiveSymbol w) := by
  intro s
  rcases unescByte_cases s.dec.esc w with ⟨b, hb, -⟩ | ⟨he, rfl, -⟩ | ⟨he, h0, h1, -⟩
  · rw [receiveSymbol_of_standsFor hb, receiveSymbol_of_standsFor (s := s.eraseCounters) hb]
    rfl
  · rw [receiveSymbol_arm he, receiveSymbol_arm (s := s.eraseCounters) he]
    rfl
  · rw [receiveSymbol_bad he h0 h1, receiveSymbol_bad (s := s.eraseCounters) he h0 h1]
    rfl

theorem decLenhi_counterBlind (b : Byte) : CounterBlind (decLenhi b) := by
  intro s
  simp only [decLenhi, eraseCounters_frame]
  split <;> rfl

theorem decPayload_counterBlind (b : Byte) : AnswersCounterBlind (decPayload b) := by
  intro s
  simp only [decPayload, eraseCounters_frame]
  split <;> rfl

theorem decCkhi_counterBlind (b : Byte) : AnswersCounterBlind (decCkhi b) := by
  intro s
  simp only [decCkhi, eraseCounters_frame]
  split
  · split <;> rfl
  · rfl

theorem dispatch_counterBlind (b w : Byte) : AnswersCounterBlind (dispatch b w) := by
  intro s
  simp only [dispatch, eraseCounters_frame]
  cases positionOf s.dec with
  | none => rfl
  | some q =>
    cases q with
    | wait | lenlo | type | cklo => rfl
    | lenhi => exact (decLenhi_counterBlind b).next s
    | payload => exact decPayload_counterBlind b s
    | ckhi => exact decCkhi_counterBlind b s

theorem latchSetpoints_counterBlind (s0 s1 : Half) (now : Word) : CounterBlind (latchSetpoints s0 s1 now) := by
  intro s
  simp only [latchSetpoints, eraseCounters_frame]
  split <;> rfl

theorem pumpFields_counterBlind (a b now : Word) : CounterBlind (pumpFields a b now) := by
  intro s
  simp only [pumpFields, eraseCounters_frame]
  split
  · exact latchSetpoints_counterBlind _ _ now s
  · rfl
  · rfl

theorem pumpCommand_counterBlind (P : Packet) (now : Word) : AnswersCounterBlind (pumpCommand P now) := by
  intro s
  unfold pumpCommand
  split
  · exact (pumpFields_counterBlind _ _ now).next s
  · rfl

theorem routePacket_counterBlind (P : Packet) (now : Word) : AnswersCounterBlind (routePacket P now) := by
  intro s
  simp only [routePacket, eraseCounters_frame]
  split
  · split
    · exact pumpCommand_counterBlind P now s
    · rfl
  · rfl

theorem routeEmitted_counterBlind (now : Word) : AnswersCounterBlind (routeEmitted now) := by
  intro s
  simp only [routeEmitted, eraseCounters_frame]
  split
  · rfl
  · exact routePacket_counterBlind _ now s

theorem watchdog_counterBlind (now : Word) : CounterBlind (watchdog now) := by
  intro s
  by_cases h : 4000 ≤ (now - s.pump.tCmd).toNat
  · rw [watchdog_trip h, watchdog_trip (s := s.eraseCounters) h]
    cases hw : s.pump.wdg <;> simp [State.eraseCounters, raise, State.withPump, hw]
  · rw [watchdog_armed (by omega), watchdog_armed (s := s.eraseCounters) (Nat.lt_of_not_le h)]
    rfl

theorem rampOutputs_counterBlind (now : Word) : CounterBlind (rampOutputs now) := by
  intro s
  simp only [rampOutputs, eraseCounters_frame]
  split <;> rfl

theorem aggregateFlow_counterBlind (now : Word) : CounterBlind (aggregateFlow now) := by
  intro s
  simp only [aggregateFlow, eraseCounters_frame]
  split <;> rfl

theorem sendTelemetry_counterBlind (now : Word) : CounterBlind (sendTelemetry now) := by
  intro s
  simp only [sendTelemetry, eraseCounters_frame]
  split <;> rfl

/-! ## The operations -/

theorem wireSymbol_counterBlind (c : WireClass) (w : Byte) : AnswersCounterBlind (wireSymbol c w) := by
  intro s
  simp only [wireSymbol, eraseCounters_frame]
  split
  · exact ((answerLogical_counterBlind (logicalOf w s)).comp
      ((receiveSymbol_counterBlind w).comp begin_counterBlind)).next s
  · rfl

theorem positionInstr_counterBlind (q : Position) (b w : Byte) : AnswersCounterBlind (exec (positionInstr q b w)) := by
  intro s
  simp only [exec_positionInstr, eraseCounters_frame]
  split
  · exact dispatch_counterBlind b w s.begin
  · rfl

theorem receivePacket_counterBlind (P : Packet) (now : Word) : AnswersCounterBlind (receivePacket P now) := by
  intro s
  unfold receivePacket
  split
  · exact routePacket_counterBlind P now s.begin
  · rfl

theorem execPumpcmd_counterBlind (P : Packet) (now : Word) : AnswersCounterBlind (execPumpcmd P now) := by
  intro s
  unfold execPumpcmd
  split
  · exact pumpCommand_counterBlind P now s.begin
  · rfl

theorem rxbyte_counterBlind (w : Byte) (now : Word) : AnswersCounterBlind (exec (.rxbyte w now)) := by
  intro s
  cases h : logicalOf w s with
  | none =>
    rw [rxbyte_of_silent now h, rxbyte_of_silent (s := s.eraseCounters) now h]
    exact (receiveSymbol_counterBlind w).next s.begin
  | some b =>
    rw [rxbyte_of_logical now h, rxbyte_of_logical (s := s.eraseCounters) now h]
    exact (((dispatch_counterBlind b w).comp (receiveSymbol_counterBlind w)).andThen
      (routeEmitted_counterBlind now)) s.begin

theorem tick_counterBlind (now : Word) : AnswersCounterBlind (exec (.tick now)) :=
  CounterBlind.next <| (sendTelemetry_counterBlind now).comp <| (aggregateFlow_counterBlind now).comp <|
    (rampOutputs_counterBlind now).comp <| (watchdog_counterBlind now).comp begin_counterBlind

theorem exec_counterBlind (i : Instr) : AnswersCounterBlind (exec i) := by
  cases i with
  | reset | unesc | escape => exact fun _ => rfl
  | rxbyte w now => exact rxbyte_counterBlind w now
  | tick now => exact tick_counterBlind now
  | pulse k =>
    intro s
    simp only [exec, execPulse]
    split <;> rfl
  | sample reg v =>
    intro s
    simp only [exec, execSample, eraseCounters_frame]
    split <;> rfl
  | print n bytes =>
    intro s
    simp only [exec, execPrint]
    split <;> rfl
  | txframe t n payload =>
    intro s
    simp only [exec, execTxframe]
    split <;> rfl
  | wStart | wEsc | wLit | wEsc0 | wEsc1 | wEscbad => exact wireSymbol_counterBlind _ _
  | decWait b w => exact positionInstr_counterBlind .wait b w
  | decLenlo b => exact positionInstr_counterBlind .lenlo b 0
  | decLenhi b => exact positionInstr_counterBlind .lenhi b 0
  | decType b => exact positionInstr_counterBlind .type b 0
  | decPayload b => exact positionInstr_counterBlind .payload b 0
  | decCklo b => exact positionInstr_counterBlind .cklo b 0
  | decCkhi b => exact positionInstr_counterBlind .ckhi b 0
  | route | pktData | pktPrint | pktPump => exact receivePacket_counterBlind _ _
  | pumpcmd P now => exact execPumpcmd_counterBlind P now
  | wdog now => exact ((watchdog_counterBlind now).comp begin_counterBlind).next
  | ramp now => exact ((rampOutputs_counterBlind now).comp begin_counterBlind).next
  | flowagg now => exact ((aggregateFlow_counterBlind now).comp begin_counterBlind).next
  | telem now => exact ((sendTelemetry_counterBlind now).comp begin_counterBlind).next

/-- Every operation starts with an empty output: it does not read the last one. -/
theorem exec_begin (i : Instr) (s : State) : exec i s.begin = exec i s := by
  cases i <;> rfl

/-- Settles O58: with the last output dropped and the counters erased the two starting states are the same. -/
theorem countersAreNeverRead : Obligations.CountersAreNeverRead := by
  intro i s c o
  have hstart : State.eraseCounters (State.begin { s with stat := c, out := o }) = s.begin.eraseCounters := rfl
  rw [← exec_begin i { s with stat := c, out := o }, ← exec_begin i s, exec_counterBlind i _, hstart,
    ← exec_counterBlind i _]

end Sys2Proof.Proofs
end

section
/-! The telemetry packet (R70, R236): where R70's table puts each register, and the frame TELEM sends. -/

namespace Sys2Proof.Proofs

open Sys2Proof Sys2Proof.Machine

/-! ## The rows of R70's table -/

/-- A row of R70's table is what the payload holds at the row's offset. -/
theorem memRead_dataPayload_of_row {now : Word} {t : Telemetry} {f : Flow} {i offset size value : Nat}
    (h : (dataFields now t f)[i]? = some ⟨offset, size, value⟩) :
    memRead (dataPayload now t f) offset size = some value := by
  obtain ⟨hi, hrow⟩ := List.getElem?_eq_some_iff.mp h
  simpa only [hrow] using memRead_dataPayload now t f i hi

/-- R70, row 0: the timestamp, 8 bytes (D19). -/
theorem dataFields_timestamp (now : Word) (t : Telemetry) (f : Flow) :
    (dataFields now t f)[0]? = some ⟨0, 8, now.toNat⟩ := rfl

/-- R70, rows 1 to 6: the load cells. -/
theorem dataFields_loadcell (now : Word) (t : Telemetry) (f : Flow) (k : Nat) (h : k < 6) :
    (dataFields now t f)[1 + k]? = some ⟨8 + 4 * k, 4, t.loadcell[k].toNat⟩ := by
  interval_cases k <;> rfl

/-- R70, rows 7 to 9: the fixed accelerometer. -/
theorem dataFields_accelFixed (now : Word) (t : Telemetry) (f : Flow) (a : Nat) (h : a < 3) :
    (dataFields now t f)[7 + a]? = some ⟨32 + 4 * a, 4, t.accelFixed[a].toNat⟩ := by
  interval_cases a <;> rfl

/-- R70, rows 10 to 18: the tank accelerometers, tank-major. -/
theorem dataFields_accelTank (now : Word) (t : Telemetry) (f : Flow) (j : Nat) (h : j < 9) :
    (dataFields now t f)[10 + j]? = some ⟨44 + 4 * j, 4, t.accelTank[j].toNat⟩ := by
  interval_cases j <;> rfl

/-- R70, rows 19 to 21: the flow readings. -/
theorem dataFields_rate (now : Word) (t : Telemetry) (f : Flow) (i : Nat) (h : i < 3) :
    (dataFields now t f)[19 + i]? = some ⟨80 + 4 * i, 4, f.rate[i].toNat⟩ := by
  interval_cases i <;> rfl

/-! ## TELEM (R236) -/

/-- TELEM when due: the stamp moves and one frame of the registers goes out, with no other register written. -/
theorem exec_telem_due {now : Word} {s : State} (h : 10 ≤ (now - s.tlm.tTlm).toNat) :
    exec (.telem now) s = .next { s with
      tlm := { s.tlm with tTlm := now }
      tx := s.tx ++ frameBytes 1 92 (dataPayload now s.tlm s.flow)
      out := { Output.empty with tx := frameBytes 1 92 (dataPayload now s.tlm s.flow) } } :=
  congrArg Host.Outcome.next (sendTelemetry_due (s := s.begin) h)

/-- TELEM when not due: only the output is cleared. -/
theorem exec_telem_notDue {now : Word} {s : State} (h : (now - s.tlm.tTlm).toNat < 10) :
    exec (.telem now) s = .next { s with out := Output.empty } :=
  congrArg Host.Outcome.next (sendTelemetry_notDue (s := s.begin) h)

/-- Settles O47: the payload sent is `dataPayload`, and each clause about a register is one block of rows of R70's
table read back. -/
theorem telemSendsTheRegisters : Obligations.TelemSendsTheRegisters := by
  intro now s
  refine ⟨fun hdue => ⟨dataPayload now s.tlm s.flow, dataPayload_length now s.tlm s.flow, ?timestamp, ?loadcell,
    ?accelFixed, ?accelTank, ?rate, exec_telem_due hdue⟩, exec_telem_notDue⟩
  case timestamp => exact memRead_dataPayload_of_row (dataFields_timestamp now s.tlm s.flow)
  case loadcell => exact fun k h => memRead_dataPayload_of_row (dataFields_loadcell now s.tlm s.flow k h)
  case accelFixed => exact fun a h => memRead_dataPayload_of_row (dataFields_accelFixed now s.tlm s.flow a h)
  case accelTank => exact fun j h => memRead_dataPayload_of_row (dataFields_accelTank now s.tlm s.flow j h)
  case rate => exact fun i h => memRead_dataPayload_of_row (dataFields_rate now s.tlm s.flow i h)

end Sys2Proof.Proofs
end

section
/-! Event records (R103, R110; entries 2 and 3): the readers on the bytes that `encode` writes, and the unused codes. -/

namespace Sys2Proof.Proofs

open Sys2Proof Sys2Proof.Machine

/-- A record that the operand reader accepts as a well-formed operation decodes to that operation. -/
theorem decode_of_parseOperands {c : Byte} {bs rest : List Byte} {i : Instr} (hi : WellFormed i)
    (h : parseOperands (opCode c) bs = .ok (i, rest)) : decode (c :: bs) = .ok (i, rest) := by
  rw [decode, h]
  dsimp only
  rw [show violation i = none from hi]

/-- A record whose operands cannot be read is no operation, for the reason the operand reader gives. -/
theorem decode_of_parseOperands_error {c : Byte} {bs : List Byte} {e : DecodeError}
    (h : parseOperands (opCode c) bs = .error e) : decode (c :: bs) = .error e := by
  rw [decode, h]

/-- A well-formed pump command carries as many bytes as it declares. -/
theorem payload_length_of_wellFormed_pumpcmd {P : Packet} {now : Word} (h : WellFormed (.pumpcmd P now)) :
    P.payload.length = P.length.toNat := by
  simp only [WellFormed, violation] at h
  split at h
  · exact (payloadViolation_none.mp h).2
  · cases h

/-! ## Records written and read back -/

/-- Settles O1, by the shape of the operands. Bytes are read as they stand; a final 32-bit operand is read back by
`withWord_leBytes`; a payload is read back whole because it has the length that its operation declares or fixes. -/
theorem recordRoundTrip : Obligations.RecordRoundTrip := by
  intro i rest hi
  cases i with
  | pulse | wStart | wEsc | wLit | wEsc0 | wEsc1 | wEscbad | decWait | decLenlo | decLenhi | decType | decPayload
  | decCklo | decCkhi | unesc | escape => exact decode_of_parseOperands hi rfl
  | reset | rxbyte | tick | sample | wdog | ramp | flowagg | telem =>
    exact decode_of_parseOperands hi (by simp [opCode, parseOperands])
  | pumpcmd =>
    have hlen := payload_length_of_wellFormed_pumpcmd hi
    exact decode_of_parseOperands hi (by simp [opCode, parseOperands, withBytes_append _ _ hlen])
  | print | txframe | route | pktPrint =>
    have hlen := (payloadViolation_none.mp hi).2
    exact decode_of_parseOperands hi (by simp [opCode, parseOperands, withBytes_append _ _ hlen])
  | pktData payload =>
    have hlen : payload.length = 92 := (payloadViolation_none.mp hi).2
    exact decode_of_parseOperands hi (by simp [opCode, parseOperands, withBytes_append _ _ hlen])
  | pktPump payload =>
    have hlen : payload.length = 8 := (payloadViolation_none.mp hi).2
    exact decode_of_parseOperands hi (by simp [opCode, parseOperands, withBytes_append _ _ hlen])

/-- Settles O3: each record is the one that `encode` writes, so it reads back (`recordRoundTrip`). -/
theorem writtenRecordsDecode : Obligations.WrittenRecordsDecode :=
  ⟨recordRoundTrip (.reset 5000) [] rfl, recordRoundTrip (.rxbyte 0xFE 10) [] rfl,
    recordRoundTrip (.tick 0xFFFFF000) [] rfl, recordRoundTrip (.pulse 2) [] rfl,
    recordRoundTrip (.sample 2 0xFFFFFF9C) [] rfl, recordRoundTrip (.print 2 [0x48, 0x69]) [] rfl,
    recordRoundTrip .wStart [] rfl, recordRoundTrip .wEsc [] rfl⟩

/-! ## Unused event codes (U14) -/

/-- The code of a byte with bit 7 clear is its low nibble (R110). -/
theorem opCode_event {h : Byte} (hlow : h.toNat < 128) : opCode h = h.toNat % 16 := if_pos hlow

/-- The operand reader has no event for the codes 6 to 15. -/
theorem parseOperands_unusedEvent {code : Nat} (hlo : 6 ≤ code) (hhi : code < 16) (bs : List Byte) :
    parseOperands code bs = .error (.unusedEventCode code) := by
  interval_cases code <;> rfl

/-- Settles O4: the low nibble is the code, and none of these codes has operands to read. -/
theorem unusedEventCodesRejected : Obligations.UnusedEventCodesRejected := by
  intro h rest hlow hunused
  apply decode_of_parseOperands_error
  rw [opCode_event hlow]
  exact parseOperands_unusedEvent hunused (Nat.mod_lt _ (by decide)) rest

end Sys2Proof.Proofs
end

section
/-! SAMPLE (R111, R238): the register number selects the register that is written. -/

namespace Sys2Proof.Proofs

open Sys2Proof Sys2Proof.Machine

/-! ## The register a number selects (R111) -/

theorem writeSample_loadcell {reg : Nat} (v : Word) (m : Telemetry) (h : reg < 6) :
    writeSample reg v m = some { m with loadcell := m.loadcell.set reg v h } := dif_pos h

theorem writeSample_accelFixed {reg : Nat} (v : Word) (m : Telemetry) (hlo : 6 ≤ reg) (h : reg - 6 < 3) :
    writeSample reg v m = some { m with accelFixed := m.accelFixed.set (reg - 6) v h } := by
  rw [writeSample, dif_neg (by omega), dif_pos h]

theorem writeSample_accelTank {reg : Nat} (v : Word) (m : Telemetry) (hlo : 9 ≤ reg) (h : reg - 9 < 9) :
    writeSample reg v m = some { m with accelTank := m.accelTank.set (reg - 9) v h } := by
  rw [writeSample, dif_neg (by omega), dif_neg (by omega), dif_pos h]

theorem writeSample_none {reg : Nat} (v : Word) (m : Telemetry) (h : 18 ≤ reg) : writeSample reg v m = none := by
  rw [writeSample, dif_neg (by omega), dif_neg (by omega), dif_neg (by omega)]

/-! ## The operation -/

/-- SAMPLE with a register number that selects one: the telemetry registers are written, nothing else. -/
theorem exec_sample_of_some {reg : Byte} {v : Word} {s : State} {m : Telemetry}
    (h : writeSample reg.toNat v s.tlm = some m) :
    exec (.sample reg v) s = .next { s with tlm := m, out := Output.empty } := by
  simp only [exec, execSample, h]
  rfl

theorem exec_sample_of_none {reg : Byte} {v : Word} {s : State} (h : writeSample reg.toNat v s.tlm = none) :
    exec (.sample reg v) s = .refused (.illFormed .sampleRange) := by
  simp only [exec, execSample, h]

/-- Settles O48: one clause per range of register numbers. -/
theorem sampleWritesOneRegister : Obligations.SampleWritesOneRegister := by
  intro reg v s
  exact ⟨fun h => exec_sample_of_some (writeSample_loadcell v s.tlm h),
    fun hlo h => exec_sample_of_some (writeSample_accelFixed v s.tlm hlo h),
    fun hlo h => exec_sample_of_some (writeSample_accelTank v s.tlm hlo h),
    fun h => exec_sample_of_none (writeSample_none v s.tlm h)⟩

end Sys2Proof.Proofs
end

section
/-! The wire symbol classes and the position operations presented alone (R92, R102): what a selected one does, and the
refusal of one that is not selected (entries 5 and 6). -/

namespace Sys2Proof.Proofs

open Sys2Proof Sys2Proof.Machine

/-! ## Which class `esc` and the wire byte select (R92) -/

theorem classify_lit {w : Byte} (hstart : w ≠ 0xFE#8) (hesc : w ≠ 0xEE#8) : classify false w = .lit := by
  simp [classify, hstart, hesc]

/-- The context `esc` in which R92 lists a class. -/
def classContext : WireClass → Bool
  | .start | .esc | .lit => false
  | .esc0 | .esc1 | .escbad => true

/-- A class is selected only in the context in which R92 lists it. -/
theorem classContext_classify (esc : Bool) (w : Byte) : classContext (classify esc w) = esc := by
  cases esc
  · simp only [classify, Bool.false_eq_true, if_false]
    split_ifs <;> rfl
  · simp only [classify, if_true]
    split_ifs <;> rfl

/-! ## A class presented alone -/

theorem wireSymbol_selected {c : WireClass} {w : Byte} {s : State} (h : classify s.dec.esc w = c) :
    wireSymbol c w s = .next (answerLogical (logicalOf w s) (receiveSymbol w s.begin)) := if_pos h

theorem wireSymbol_notSelected {c : WireClass} {w : Byte} {s : State} (h : classify s.dec.esc w ≠ c) :
    wireSymbol c w s = .refused .notSelected := if_neg h

/-- W.START outside a pair: `p` becomes 0 and the marker is its own logical byte. -/
theorem wireSymbol_start {s : State} (h : s.dec.esc = false) :
    wireSymbol .start 0xFE#8 s = .next (answerLogical (some 0xFE#8) (setPos 0 s.begin)) := by
  rw [wireSymbol_selected (by rw [h]; rfl), logicalOf_standsFor (.inl ⟨h, by decide, rfl⟩),
    receiveSymbol_start (s := s.begin) h, setEsc_self (s := setPos 0 s.begin) h]

/-- W.ESC outside a pair: it only arms the escape. -/
theorem wireSymbol_esc {s : State} (h : s.dec.esc = false) :
    wireSymbol .esc 0xEE#8 s = .next (setEsc true s.begin) := by
  rw [wireSymbol_selected (by rw [h]; rfl), receiveSymbol_arm (s := s.begin) h, logicalOf, h]
  rfl

/-- A selected class whose wire byte stands for a logical byte, other than W.START, answers that byte and clears
`esc`. -/
theorem wireSymbol_of_standsFor {c : WireClass} {w b : Byte} {s : State} (hc : classify s.dec.esc w = c)
    (hb : standsFor s.dec.esc w b) (hw : w ≠ 0xFE#8) :
    wireSymbol c w s = .next (answerLogical (some b) (setEsc false s.begin)) := by
  rw [wireSymbol_selected hc, logicalOf_standsFor hb, receiveSymbol_standsFor (s := s.begin) hb hw]

/-- W.LIT outside a pair: the byte is its own logical byte and no register changes. -/
theorem wireSymbol_lit {w : Byte} {s : State} (h : s.dec.esc = false) (hstart : w ≠ 0xFE#8) (hesc : w ≠ 0xEE#8) :
    wireSymbol .lit w s = .next (answerLogical (some w) s.begin) := by
  rw [wireSymbol_of_standsFor (by rw [h]; exact classify_lit hstart hesc) (.inl ⟨h, hesc, rfl⟩) hstart,
    setEsc_self (s := s.begin) h]

/-- A class presented in the other context is refused. -/
theorem wireSymbol_otherContext {c : WireClass} (w : Byte) {s : State} (h : s.dec.esc ≠ classContext c) :
    wireSymbol c w s = .refused .notSelected := by
  apply wireSymbol_notSelected
  rintro rfl
  exact h (classContext_classify s.dec.esc w).symm

/-- Settles O10: one lemma for each class of `esc = 0`; the other classes belong to the other context. -/
theorem wireSymbolsOutsideAPair : Obligations.WireSymbolsOutsideAPair := by
  intro w s h
  have refused : ∀ {c} v, classContext c = true → wireSymbol c v s = .refused .notSelected :=
    fun v hc => wireSymbol_otherContext v (by simp [h, hc])
  exact ⟨wireSymbol_start h, wireSymbol_esc h, wireSymbol_lit h, refused _ rfl, refused _ rfl, refused w rfl⟩

/-- Settles O11: the two codes of a pair stand for the markers; the classes of `esc = 0` belong to the other context. -/
theorem wireSymbolsClosingAPair : Obligations.WireSymbolsClosingAPair := by
  intro w s h
  have refused : ∀ {c} v, classContext c = false → wireSymbol c v s = .refused .notSelected :=
    fun v hc => wireSymbol_otherContext v (by simp [h, hc])
  exact ⟨wireSymbol_of_standsFor (by rw [h]; rfl) (.inr ⟨h, .inl ⟨rfl, rfl⟩⟩) (by decide),
    wireSymbol_of_standsFor (by rw [h]; rfl) (.inr ⟨h, .inr ⟨rfl, rfl⟩⟩) (by decide),
    refused _ rfl, refused _ rfl, refused w rfl⟩

/-! ## A position operation presented alone (R102) -/

/-- Settles O20: presented alone, a position operation is the dispatch where its position is selected, and refused
elsewhere (`exec_positionInstr`). -/
theorem positionOperationsNeedTheirPosition : Obligations.PositionOperationsNeedTheirPosition := by
  intro q b w s h
  rw [exec_positionInstr, if_neg h]

end Sys2Proof.Proofs
end

section
/-! The packet types as the device receives them (R96, R100, R195, R196; entry 7). -/

namespace Sys2Proof.Proofs

open Sys2Proof Sys2Proof.Machine

/-- A packet value is routed. -/
theorem receivePacket_of_packet {P : Packet} (h : payloadViolation P.length P.payload = none) (now : Word) (s : State) :
    receivePacket P now s = routePacket P now s.begin := by
  rw [receivePacket, h]

/-- A packet value without a route is dropped: `RouteDrop` is raised and counted, and nothing else changes (R264). -/
theorem receivePacket_dropped {P : Packet} (h : payloadViolation P.length P.payload = none) (now : Word) {s : State}
    (hroute : (P.type, P.length) ∉ s.cfg.routeTable) :
    receivePacket P now s = .next { s with
      stat := { s.stat with nRouteDrop := s.stat.nRouteDrop + 1 }
      out := { Output.empty with events := [.routeDrop P.type P.length] } } := by
  rw [receivePacket_of_packet h, routePacket, if_neg (show (P.type, P.length) ∉ s.begin.cfg.routeTable from hroute)]
  rfl

/-- PUMPCMD on a packet value of type 3 and length 8. -/
theorem execPumpcmd_of_packet {payload : List Byte} (h : payloadViolation 8#16 payload = none) (now : Word)
    (s : State) :
    execPumpcmd ⟨3#8, 8#16, payload⟩ now s = pumpCommand ⟨3#8, 8#16, payload⟩ now s.begin := by
  have hv : violation (.pumpcmd ⟨3#8, 8#16, payload⟩ now) = none := by simpa [violation] using h
  rw [execPumpcmd, hv]

/-- A packet value of type 3 and length 8 that has a route is a pump command. -/
theorem receivePacket_pump {payload : List Byte} (h : payloadViolation 8#16 payload = none) (now : Word) {s : State}
    (hroute : (3#8, 8#16) ∈ s.cfg.routeTable) :
    receivePacket ⟨3#8, 8#16, payload⟩ now s = pumpCommand ⟨3#8, 8#16, payload⟩ now s.begin := by
  rw [receivePacket_of_packet h, routePacket, if_pos (show (3#8, 8#16) ∈ s.begin.cfg.routeTable from hroute),
    if_pos (show 3#8 = typePump ∧ 8#16 = pumpLen from ⟨rfl, rfl⟩)]

/-- Settles O35: types 1 and 2 have no entry in the device's table, and the pump packet has the one entry there is. -/
theorem packetTypesOnTheDevice : Obligations.PacketTypesOnTheDevice := by
  intro n payload now s htable hlen
  refine ⟨?data, ?print, ?pump⟩
  case data =>
    rintro rfl
    have hv : payloadViolation 92#16 payload = none := payloadViolation_none.mpr ⟨by decide, hlen⟩
    exact receivePacket_dropped (P := ⟨1#8, 92#16, payload⟩) hv now (by simp [htable])
  case print =>
    intro hn
    have hv : payloadViolation n payload = none := payloadViolation_none.mpr ⟨hn, hlen⟩
    exact receivePacket_dropped (P := ⟨2#8, n, payload⟩) hv now (by simp [htable])
  case pump =>
    rintro rfl
    have hv : payloadViolation 8#16 payload = none := payloadViolation_none.mpr ⟨by decide, hlen⟩
    obtain ⟨a, b, -, -, hcommand⟩ := pumpCommand_fields (P := ⟨3#8, 8#16, payload⟩) hlen.ge now s.begin
    exact ⟨_, (execPumpcmd_of_packet hv now s).trans hcommand,
      (receivePacket_pump hv now (by simp [htable])).trans hcommand⟩

end Sys2Proof.Proofs
end

section
/-! The escape coder (R130, R131, R135 to R137): ESCAPE and UNESC presented alone, the round trip of the coder, and the
escape error. -/

namespace Sys2Proof.Proofs

open Sys2Proof Sys2Proof.Machine

/-! ## ESCAPE and UNESC presented alone -/

theorem exec_escape (b : Byte) (s : State) : exec (.escape b) s = .next (answerCoded (escapeByte b) s.begin) := rfl

/-- Settles O6: the answer is `escapeByte`'s three branches, and only the output is written. -/
theorem escapeAnswersWireBytes : Obligations.EscapeAnswersWireBytes := by
  intro b s
  rw [exec_escape]
  rfl

theorem exec_unesc {w : Byte} {s : State} {esc e err : Bool} {lb : Option Byte} (hesc : s.dec.esc = esc)
    (h : unescByte esc w = ⟨e, lb, err⟩) :
    exec (.unesc w) s = .next (answerUnesc lb err (setEsc e s.begin)) := by
  simp only [exec, execUnesc, hesc, h]

/-- Settles O7: an armed escape takes 0x00, 0x01 or a byte that is no code; without one, 0xEE arms it and any other byte
stands for itself. -/
theorem unescDecodesOneWireByte : Obligations.UnescDecodesOneWireByte := by
  intro w s
  cases hesc : s.dec.esc with
  | true =>
    by_cases h0 : w = 0x00#8
    · subst h0
      rw [exec_unesc hesc unescByte_pair0]
      rfl
    · by_cases h1 : w = 0x01#8
      · subst h1
        rw [exec_unesc hesc unescByte_pair1]
        rfl
      · rw [exec_unesc hesc (unescByte_bad h0 h1)]
        simp [answerUnesc, setEsc, State.withDec, State.begin, h0, h1]
  | false =>
    by_cases hw : w = 0xEE#8
    · subst hw
      rw [exec_unesc hesc unescByte_arm]
      rfl
    · rw [exec_unesc hesc (unescByte_lit hw)]
      simp [answerUnesc, setEsc, State.withDec, State.begin, hw]

/-! ## The round trip of the coder -/

/-- An escaped byte in front of a stream adds that byte to what the stream unescapes to, and nothing else. -/
theorem unescAll_escapeByte_append (b : Byte) (ws : List Byte) :
    unescAll false (escapeByte b ++ ws) =
      ((unescAll false ws).1, b :: (unescAll false ws).2.1, (unescAll false ws).2.2) := by
  rcases escapeByte_cases b with ⟨rfl, h⟩ | ⟨rfl, h⟩ | ⟨-, hesc, h⟩ <;> rw [h]
  · simp [unescAll, unescByte_arm, unescByte_pair0]
  · simp [unescAll, unescByte_arm, unescByte_pair1]
  · simp [unescAll, unescByte_lit hesc]

/-- Settles O9, by induction on the byte sequence. -/
theorem coderRoundTrip : Obligations.CoderRoundTrip := by
  intro bs
  induction bs with
  | nil => rfl
  | cons b bs ih => rw [List.flatMap_cons, unescAll_escapeByte_append, ih]

/-- The first byte that a stream unescapes to is fixed by an escaped byte in front of it. -/
theorem eq_of_escapeByte_prefix {b c : Byte} (h : escapeByte b <+: escapeByte c) : b = c := by
  obtain ⟨ws, hws⟩ := h
  have hb := unescAll_escapeByte_append b ws
  have hc := unescAll_escapeByte_append c []
  rw [List.append_nil, ← hws, hb] at hc
  simp only [Prod.mk.injEq, List.cons.injEq] at hc
  obtain ⟨-, ⟨hbc, -⟩, -⟩ := hc
  exact hbc

/-- Settles O8: the three forms of an escaped byte for the clauses about one byte; the prefix clause because unescaping
gives the byte back. -/
theorem escapeOutputsAreUnambiguous : Obligations.EscapeOutputsAreUnambiguous := by
  intro b c
  have hforms : 0xFE#8 ∉ escapeByte b ∧ ((escapeByte b).length = 2 ↔ b = 0xFE ∨ b = 0xEE) ∧
      (0xEE#8 ∈ escapeByte b → ∃ x, escapeByte b = [0xEE, x] ∧ x ≠ 0xEE) := by
    rcases escapeByte_cases b with ⟨rfl, h⟩ | ⟨rfl, h⟩ | ⟨hstart, hesc, h⟩ <;> rw [h]
    · simp
    · simp
    · simp [hstart, hesc, eq_comm (b := b)]
  obtain ⟨hstart, hlength, hesc⟩ := hforms
  exact ⟨hstart, hlength, hesc, eq_of_escapeByte_prefix⟩

/-! ## The escape error (R136, R261) -/

theorem classify_escbad {w : Byte} (h0 : w ≠ 0x00#8) (h1 : w ≠ 0x01#8) : classify true w = .escbad := by
  simp [classify, h0, h1]

theorem logicalOf_bad {w : Byte} {s : State} (h : s.dec.esc = true) (h0 : w ≠ 0x00#8) (h1 : w ≠ 0x01#8) :
    logicalOf w s = none := by
  rw [logicalOf, h, unescByte_bad h0 h1]

/-- Settles O12: a byte that closes no pair has no logical byte, so both operations are `receiveSymbol_bad` and end
there. -/
theorem escapeErrorKeepsThePosition : Obligations.EscapeErrorKeepsThePosition := by
  intro w now s hesc h0 h1
  have hnone := logicalOf_bad hesc h0 h1
  have hbad := receiveSymbol_bad (s := s.begin) hesc h0 h1
  constructor
  · show wireSymbol .escbad w s = _
    rw [wireSymbol_selected (by rw [hesc]; exact classify_escbad h0 h1), hnone, hbad]
    rfl
  · rw [rxbyte_of_silent now hnone, hbad]
    rfl

end Sys2Proof.Proofs
end

section
/-! Runs of wire bytes (R150 to R162): the packets and events of a run put together from its parts, a stream of escaped
logical bytes fed to the position operations, and the two fates of a whole frame: received, or lost behind a raw
0xEE. -/

namespace Sys2Proof.Proofs

open Sys2Proof Sys2Proof.Machine

/-! ## Runs in parts -/

/-- The run `is` leads from `s` to `t`, emits the packets `ps` and raises the events `es`. -/
structure RunsTo (is : List Instr) (s t : State) (ps : List Packet) (es : List Event) : Prop where
  run : runAll is s = .next t
  emits : emittedBy is s = ps
  raises : raisedBy is s = es

theorem RunsTo.nil (s : State) : RunsTo [] s s [] [] := ⟨rfl, rfl, rfl⟩

theorem RunsTo.cons {i : Instr} {is : List Instr} {s t u : State} {ps : List Packet} {es : List Event}
    (hi : exec i s = .next t) (h : RunsTo is t u ps es) :
    RunsTo (i :: is) s u (t.out.pkt.toList ++ ps) (t.out.events ++ es) := by
  obtain ⟨hrun, rfl, rfl⟩ := h
  exact ⟨by simp only [runAll, hi, andThen, hrun], by simp only [emittedBy, hi], by simp only [raisedBy, hi]⟩

theorem RunsTo.single {i : Instr} {s t : State} (hi : exec i s = .next t) :
    RunsTo [i] s t t.out.pkt.toList t.out.events := by
  simpa using RunsTo.cons hi (.nil t)

/-- A run that goes on: states in sequence, packets and events in order. -/
theorem RunsTo.append {is js : List Instr} {s t u : State} {ps qs : List Packet} {es fs : List Event}
    (h : RunsTo is s t ps es) (h' : RunsTo js t u qs fs) : RunsTo (is ++ js) s u (ps ++ qs) (es ++ fs) := by
  induction is generalizing s ps es with
  | nil =>
    obtain ⟨hrun, rfl, rfl⟩ := h
    cases hrun
    exact h'
  | cons i is ih =>
    obtain ⟨hrun, rfl, rfl⟩ := h
    obtain ⟨v, hi, hv⟩ := andThen_next_iff.mp hrun
    simpa only [emittedBy, raisedBy, hi, List.append_assoc, List.cons_append]
      using RunsTo.cons hi (ih ⟨hv, rfl, rfl⟩)

/-- No operation reads the output of the one before it. -/
theorem RunsTo.of_begin {is : List Instr} {s t : State} {ps : List Packet} {es : List Event} (hne : is ≠ [])
    (h : RunsTo is s.begin t ps es) : RunsTo is s t ps es := by
  cases is with
  | nil => exact absurd rfl hne
  | cons i is =>
    obtain ⟨hrun, hemits, hraises⟩ := h
    simp only [runAll, emittedBy, raisedBy, exec_begin] at hrun hemits hraises
    exact ⟨hrun, hemits, hraises⟩

theorem rxsEvents_append (ws vs : List Byte) (now : Word) :
    rxsEvents (ws ++ vs) now = rxsEvents ws now ++ rxsEvents vs now := List.map_append

/-! ## Wire bytes that only move the decoder -/

/-- From the decoder `d` the wire bytes `ws` lead to `d'`, at any time, with no packet, no event and no other register
written. -/
def Absorbs (ws : List Byte) (d d' : Decoder) : Prop :=
  ∀ (now : Word) (s : State), RunsTo (rxsEvents ws now) (s.begin.withDec d) (s.begin.withDec d') [] []

theorem Absorbs.nil (d : Decoder) : Absorbs [] d d := fun _ _ => .nil _

theorem Absorbs.append {ws vs : List Byte} {d d' d'' : Decoder} (h : Absorbs ws d d') (h' : Absorbs vs d' d'') :
    Absorbs (ws ++ vs) d d'' := fun now s => by
  rw [rxsEvents_append]
  exact (h now s).append (h' now s)

theorem Absorbs.single {w : Byte} {d d' : Decoder}
    (h : ∀ (now : Word) (s : State), s.dec = d → exec (.rxbyte w now) s = .next (s.begin.withDec d')) :
    Absorbs [w] d d' := fun now s => .single (h now (s.begin.withDec d) rfl)

/-- The output of the state before is cleared by the first byte. -/
theorem Absorbs.runsTo {ws : List Byte} {s : State} {d' : Decoder} (h : Absorbs ws s.dec d') (hne : ws ≠ [])
    (now : Word) : RunsTo (rxsEvents ws now) s (s.begin.withDec d') [] [] :=
  .of_begin (by simpa [rxsEvents] using hne) (h now s)

/-- R160: the escape marker outside a pair only arms the escape. -/
theorem absorbs_arm {d : Decoder} (hesc : d.esc = false) : Absorbs [0xEE#8] d { d with esc := true } := by
  refine .single fun now s hs => ?_
  subst hs
  rw [rxbyte_of_silent now (by rw [logicalOf, hesc, unescByte_arm]), receiveSymbol_arm (s := s.begin) hesc]
  rfl

/-- R160: a raw start marker outside a pair starts a frame from any position. -/
theorem absorbs_start {d : Decoder} (hesc : d.esc = false) : Absorbs [0xFE#8] d { d with p := 1, ck := 0x00FE#16 } := by
  refine .single fun now s hs => ?_
  subst hs
  rw [rxbyte_of_logical now (logicalOf_standsFor (.inl ⟨hesc, by decide, rfl⟩)),
    receiveSymbol_start (s := s.begin) hesc, setEsc_self (s := setPos 0 s.begin) hesc]
  rfl

/-! ## One escaped logical byte -/

/-- RXBYTE on the wire bytes of one logical byte: the last of them dispatches it in the state before them, and the
ones before it, if any, are silent. -/
theorem runsTo_escapeByte (b : Byte) {s : State} (hesc : s.dec.esc = false) :
    ∃ w, w ≠ 0xFE#8 ∧ ∀ (now : Word) (t : State), andThen (dispatch b w s.begin) (routeEmitted now) = .next t →
      RunsTo (rxsEvents (escapeByte b) now) s t t.out.pkt.toList t.out.events := by
  have hpair {w : Byte} (hw : w ≠ 0xFE#8) (hb : standsFor true w b) (now : Word) (t : State)
      (ht : andThen (dispatch b w s.begin) (routeEmitted now) = .next t) :
      RunsTo (rxsEvents [0xEE#8, w] now) s t t.out.pkt.toList t.out.events := by
    refine ((absorbs_arm hesc).runsTo (by simp) now).append (.single (i := .rxbyte w now) ?_)
    rw [rxbyte_dispatch now hb hw, ← ht, ← setEsc_self (s := s.begin) hesc]
    rfl
  rcases escapeByte_cases b with ⟨rfl, h⟩ | ⟨rfl, h⟩ | ⟨hstart, hmark, h⟩ <;> rw [h]
  · exact ⟨0x00#8, by decide, hpair (by decide) (.inr ⟨rfl, .inl ⟨rfl, rfl⟩⟩)⟩
  · exact ⟨0x01#8, by decide, hpair (by decide) (.inr ⟨rfl, .inr ⟨rfl, rfl⟩⟩)⟩
  · refine ⟨b, hstart, fun now t ht => .single ?_⟩
    rw [rxbyte_dispatch now (.inl ⟨hesc, hmark, rfl⟩) hstart, setEsc_self (s := s.begin) hesc, ht]

/-- The position operation that `d` selects turns it into `d'` on the logical byte `b`, and does nothing else. -/
def Takes (b : Byte) (d d' : Decoder) : Prop :=
  ∀ (w : Byte) (s : State), w ≠ 0xFE#8 → s.dec = d → dispatch b w s = .next (s.withDec d')

theorem Takes.absorbs {b : Byte} {d d' : Decoder} (h : Takes b d d') (hesc : d.esc = false) :
    Absorbs (escapeByte b) d d' := by
  intro now s
  obtain ⟨w, hw, hrun⟩ := runsTo_escapeByte b (s := s.begin.withDec d) hesc
  refine hrun now (s.begin.withDec d') ?_
  rw [h w (s.begin.withDec d).begin hw rfl]
  rfl

/-- A stream of escaped logical bytes, by a property of the decoder and the bytes still to come that each byte keeps. -/
theorem absorbs_flatMap {I : List Byte → Decoder → Prop} (hesc : ∀ {bs d}, I bs d → d.esc = false)
    (hstep : ∀ {b bs d}, I (b :: bs) d → ∃ d', Takes b d d' ∧ I bs d') {bs : List Byte} {d : Decoder} (h : I bs d) :
    ∃ d', Absorbs (bs.flatMap escapeByte) d d' ∧ I [] d' := by
  induction bs generalizing d with
  | nil => exact ⟨d, .nil d, h⟩
  | cons b bs ih =>
    obtain ⟨d₁, htakes, h₁⟩ := hstep h
    obtain ⟨d₂, habsorbs, h₂⟩ := ih h₁
    exact ⟨d₂, (htakes.absorbs (hesc h)).append habsorbs, h₂⟩

/-! ## The position operations on a legal frame (R152 to R157) -/

theorem takes_wait {b : Byte} {d : Decoder} (hp : d.p.toNat = 0) : Takes b d { d with ck := b.setWidth 16 } := by
  rintro w s hw rfl
  simp [dispatch, positionOf_wait.mpr hp, decWait, hw]

theorem takes_lenlo {b : Byte} {d : Decoder} (hp : d.p.toNat = 1) :
    Takes b d { d with len := d.len.extractLsb' 8 8 ++ b, ck := addCk d.ck b, p := 2 } := by
  rintro w s - rfl
  simp [dispatch, positionOf_lenlo.mpr hp, decLenlo]

theorem takes_lenhi {b : Byte} {d : Decoder} {n : Half} (hp : d.p.toNat = 2)
    (hn : b ++ d.len.extractLsb' 0 8 = n) (hle : n.toNat ≤ 1024) :
    Takes b d { d with len := n, ck := addCk d.ck b, p := 3 } := by
  rintro w s - rfl
  have hmax : ¬ maxLen < n.toNat := by simpa using hle
  simp only [dispatch, positionOf_lenhi.mpr hp, decLenhi, hn, hmax, if_false]

theorem takes_type {b : Byte} {d : Decoder} (hp : d.p.toNat = 3) :
    Takes b d { d with typ := b, ck := addCk d.ck b, p := 4 } := by
  rintro w s - rfl
  simp [dispatch, positionOf_type.mpr hp, decType]

theorem takes_payload {b : Byte} {d : Decoder} (h4 : 4 ≤ d.p.toNat) (hlt : d.p.toNat < 4 + d.len.toNat)
    (hlen : d.len.toNat ≤ 1024) : Takes b d (storeByte b d) := by
  rintro w s - rfl
  have hk : s.dec.p.toNat - 4 < maxLen := by simp only [maxLen]; omega
  rw [dispatch_payload (positionOf_payload.mpr ⟨h4, hlt⟩)]
  simp only [decPayload, hk, if_true]
  rfl

theorem takes_cklo {b : Byte} {d : Decoder} (hp : d.p.toNat = 4 + d.len.toNat) :
    Takes b d { d with cklo := b, p := d.p + 1 } := by
  rintro w s - rfl
  simp [dispatch, positionOf_cklo.mpr hp, decCklo]

/-! ## A frame up to its last byte -/

/-- The decoder holds the header of a frame of type `type` and length `n` and the payload bytes `xs` (R153 to R156). -/
structure Holds (type : Byte) (n : Half) (xs : List Byte) (d : Decoder) : Prop where
  esc : d.esc = false
  typ : d.typ = type
  len : d.len = n
  ck : d.ck = checksum (coveredBytes type n xs)
  stored : ∀ (k : Nat) (hk : k < xs.length), payloadRead d.payload k = some xs[k]

/-- The three header bytes after a start marker. -/
theorem absorbs_header {type : Byte} {n : Half} {d : Decoder} (hn : n.toNat ≤ 1024) (hesc : d.esc = false)
    (hp : d.p.toNat = 1) (hck : d.ck = 0x00FE#16) :
    ∃ d', Absorbs ((coveredBytes type n []).flatMap escapeByte) d d' ∧ Holds type n [] d' ∧ d'.p.toNat = 4 := by
  have hlenlo := takes_lenlo (b := n.extractLsb' 0 8) hp
  have hlenhi := takes_lenhi (b := n.extractLsb' 8 8)
    (d := { d with len := d.len.extractLsb' 8 8 ++ n.extractLsb' 0 8, ck := addCk d.ck (n.extractLsb' 0 8), p := 2 })
    rfl (by rw [half_low, bytes_of_half]) hn
  have htype := takes_type (b := type)
    (d := { d with len := n, ck := addCk (addCk d.ck (n.extractLsb' 0 8)) (n.extractLsb' 8 8), p := 3 }) rfl
  exact ⟨_, (hlenlo.absorbs hesc).append ((hlenhi.absorbs hesc).append ((htype.absorbs hesc).append (.nil _))),
    ⟨hesc, rfl, rfl, by rw [hck]; rfl, by simp⟩, rfl⟩

/-- One more payload byte. -/
theorem storeByte_holds {type b : Byte} {n : Half} {xs : List Byte} {d : Decoder} (h : Holds type n xs d)
    (hp : d.p.toNat = 4 + xs.length) : Holds type n (xs ++ [b]) (storeByte b d) where
  esc := h.esc
  typ := h.typ
  len := h.len
  ck := by rw [coveredBytes_snoc, checksum_snoc, ← h.ck]; rfl
  stored k hk := by
    rw [storeByte, payloadRead_payloadWrite, hp, Nat.add_sub_cancel_left, List.getElem_append]
    by_cases hlast : k = xs.length
    · simp [hlast]
    · rw [List.length_append, List.length_singleton] at hk
      have hold : k < xs.length := by omega
      simp [hlast, hold, h.stored k hold]

/-- The decoder holds the frame up to the payload bytes `rest`, which are still to come. -/
def Awaits (type : Byte) (n : Half) (payload rest : List Byte) (d : Decoder) : Prop :=
  ∃ xs, xs ++ rest = payload ∧ Holds type n xs d ∧ d.p.toNat = 4 + xs.length

theorem Awaits.step {type b : Byte} {n : Half} {payload rest : List Byte} {d : Decoder} (hn : n.toNat ≤ 1024)
    (hlen : payload.length = n.toNat) (h : Awaits type n payload (b :: rest) d) :
    ∃ d', Takes b d d' ∧ Awaits type n payload rest d' := by
  obtain ⟨xs, rfl, hd, hp⟩ := h
  have hlt : xs.length < d.len.toNat := by rw [hd.len, ← hlen]; simp
  have hle : d.len.toNat ≤ 1024 := hd.len ▸ hn
  have hp' : (storeByte b d).p.toNat = d.p.toNat + 1 := pos_succ_toNat (by omega)
  exact ⟨_, takes_payload (by omega) (by omega) hle, xs ++ [b], by simp, storeByte_holds hd hp, by simp; omega⟩

/-- A legal frame without its last logical byte, the checksum's high byte: the decoder holds it whole and waits for that
byte at DEC.CKHI, whatever checksum the frame carries. -/
theorem absorbs_frame {type : Byte} {n c : Half} {payload : List Byte} {d : Decoder} (hesc : d.esc = false)
    (hn : n.toNat ≤ 1024) (hlen : payload.length = n.toNat) :
    ∃ d', Absorbs (startByte :: ((coveredBytes type n payload).flatMap escapeByte ++ escapeByte (c.extractLsb' 0 8)))
        d d' ∧
      Holds type n payload d' ∧ d'.cklo = c.extractLsb' 0 8 ∧ positionOf d' = some .ckhi := by
  obtain ⟨d₁, hheader, hd₁, hp₁⟩ :=
    absorbs_header (type := type) hn (d := { d with p := 1, ck := 0x00FE#16 }) hesc rfl rfl
  obtain ⟨d₂, hpayload, xs, hxs, hd₂, hp₂⟩ := absorbs_flatMap (I := Awaits type n payload)
    (fun ⟨_, _, h, _⟩ => h.esc) (Awaits.step hn hlen) ⟨[], rfl, hd₁, hp₁⟩
  obtain rfl : xs = payload := by simpa using hxs
  have hend : d₂.p.toNat = 4 + d₂.len.toNat := by rw [hp₂, hd₂.len, hlen]
  have hlast : (d₂.p + 1).toNat = d₂.p.toNat + 1 := pos_succ_toNat (by omega)
  refine ⟨{ d₂ with cklo := c.extractLsb' 0 8, p := d₂.p + 1 }, ?_,
    ⟨hd₂.esc, hd₂.typ, hd₂.len, hd₂.ck, hd₂.stored⟩, rfl, positionOf_ckhi.mpr (by dsimp only; omega)⟩
  simpa [coveredBytes] using (absorbs_start hesc).append
    (hheader.append (hpayload.append ((takes_cklo (b := c.extractLsb' 0 8) hend).absorbs hd₂.esc)))

/-- A frame that carries the checksum `c`, right or wrong, does what the dispatch of its last logical byte does in a
state whose decoder holds the frame. -/
theorem runsTo_frame {type : Byte} {n c : Half} {payload : List Byte} {s : State} (hesc : s.dec.esc = false)
    (hn : n.toNat ≤ 1024) (hlen : payload.length = n.toNat) (now : Word) :
    ∃ d w, Holds type n payload d ∧ d.cklo = c.extractLsb' 0 8 ∧ positionOf d = some .ckhi ∧
      ∀ t, andThen (dispatch (c.extractLsb' 8 8) w (s.begin.withDec d)) (routeEmitted now) = .next t →
        RunsTo (rxsEvents (frameCarrying type n payload c) now) s t t.out.pkt.toList t.out.events := by
  obtain ⟨d, hframe, hd, hcklo, hq⟩ := absorbs_frame (type := type) (c := c) hesc hn hlen
  obtain ⟨w, -, hlast⟩ := runsTo_escapeByte (c.extractLsb' 8 8) (s := s.begin.withDec d) hd.esc
  refine ⟨d, w, hd, hcklo, hq, fun t ht => ?_⟩
  have hrun := (hframe.runsTo (by simp) now).append (hlast now t ht)
  rwa [← rxsEvents_append] at hrun

/-! ## A frame received whole (R162) -/

/-- The last byte of a frame that carries its own checksum emits the packet (R158). -/
theorem dispatch_emits {type b w : Byte} {n : Half} {payload : List Byte} {s : State} (hs : Holds type n payload s.dec)
    (hn : n.toNat ≤ 1024) (hlen : payload.length = n.toNat) (hq : positionOf s.dec = some .ckhi)
    (hck : b ++ s.dec.cklo = checksum (coveredBytes type n payload)) :
    dispatch b w s = .next (emitPkt ⟨type, n, payload⟩ (setPos 0 s)) := by
  have hcopy : payloadCopy s.dec.payload 0 n.toNat = .ok payload := by
    rw [← hlen]
    exact payloadCopy_ok (by simpa [hlen] using hn) (by simpa using hs.stored)
  rw [dispatch_ckhi hq]
  simp only [decCkhi, hck, hs.ck, hcopy, hs.typ, hs.len, if_true]

/-- Routing a packet of its declared length completes and raises no event of the decoder (R195, R200). -/
theorem routePacket_raises {P : Packet} (h : P.payload.length = P.length.toNat) (now : Word) (s : State) :
    ∃ t, routePacket P now s = .next t ∧ ∀ e ∈ t.out.events, e ∈ s.out.events ∨ e.isDecoder = false := by
  have hraise {e : Event} (he : e.isDecoder = false) :
      ∀ f ∈ (raise e s).out.events, f ∈ s.out.events ∨ f.isDecoder = false := by
    intro f hf
    rw [raise_out, List.mem_append, List.mem_singleton] at hf
    exact hf.imp_right fun (hfe : f = e) => hfe ▸ he
  rcases routePacket_cases h now s with ⟨-, e⟩ | ⟨-, -, -, a, b, -, -, -, e⟩ | ⟨-, -, e⟩
  · exact ⟨_, e, hraise rfl⟩
  · refine ⟨_, e, ?_⟩
    rcases pumpFields_cases a b now s with ⟨s0, s1, -, -, ⟨-, e'⟩ | ⟨-, -, e'⟩⟩ | ⟨-, e'⟩ <;> rw [e']
    · exact fun f hf => .inl hf
    · exact fun f hf => .inl hf
    · exact hraise rfl
  · exact ⟨_, e, fun f hf => .inl hf⟩

/-- Settles O25: the frame up to its last byte only moves the decoder, and that byte emits the packet, which is then
routed. -/
theorem frameRoundTrip : Obligations.FrameRoundTrip := by
  intro type n payload now s hesc hn hlen
  obtain ⟨d, w, hd, hcklo, hq, hframe⟩ := runsTo_frame (type := type)
    (c := checksum (coveredBytes type n payload)) hesc hn hlen now
  have hdispatch := dispatch_emits (w := w) (s := s.begin.withDec d) hd hn hlen hq
    (by rw [State.withDec_dec, hcklo, bytes_of_half])
  obtain ⟨t, ht, hevents⟩ := routePacket_raises (P := ⟨type, n, payload⟩) hlen now
    (emitPkt ⟨type, n, payload⟩ (setPos 0 (s.begin.withDec d)))
  obtain ⟨hdec, -, -, -, -, hpkt, -⟩ := (routePacket_routed ht).frame
  have hpacket : t.out.pkt = some ⟨type, n, payload⟩ := hpkt
  obtain ⟨hrun, hemits, hraises⟩ := hframe t (by rw [hdispatch]; exact ht)
  rw [← frameBytes_eq_frameCarrying] at hrun hemits hraises
  refine ⟨t, hrun, by rw [frameEvents, hemits, hpacket]; rfl, hpacket, ?_, by rw [hdec]; rfl, hdec ▸ hd.esc⟩
  rw [frameEvents, hraises]
  exact fun e he => (hevents e he).resolve_left List.not_mem_nil

/-! ## A frame lost behind a raw 0xEE (R161) -/

theorem escapeByte_ne_nil (b : Byte) : escapeByte b ≠ [] := by
  obtain ⟨hpos, -⟩ := escapeByte_length b
  exact List.length_pos_iff.mp hpos

/-- A frame is a raw start marker and a stream of escaped logical bytes. -/
theorem frameBytes_eq_escaped (type : Byte) (n : Half) (payload : List Byte) :
    ∃ bs : List Byte, bs.flatMap escapeByte ≠ [] ∧
      frameBytes type n payload = [0xFE#8] ++ bs.flatMap escapeByte := by
  refine ⟨coveredBytes type n payload ++ [(checksum (coveredBytes type n payload)).extractLsb' 0 8,
    (checksum (coveredBytes type n payload)).extractLsb' 8 8], ?_, by simp [frameBytes]⟩
  simp [coveredBytes, escapeByte_ne_nil]

/-- A waiting decoder stays waiting on any stream of escaped logical bytes: none of them is a raw start marker. -/
theorem absorbs_waiting (bs : List Byte) {d : Decoder} (hesc : d.esc = false) (hp : d.p = 0) :
    ∃ d', Absorbs (bs.flatMap escapeByte) d d' ∧ d'.p = 0 ∧ d'.esc = false :=
  absorbs_flatMap (I := fun _ d => d.p = 0 ∧ d.esc = false) And.right
    (fun ⟨hp, hesc⟩ => ⟨_, takes_wait (by rw [hp]; rfl), hp, hesc⟩) ⟨hp, hesc⟩

/-- A start marker that comes where a pair is open is an escape error, and the decoder waits (R136, R150). -/
theorem rxbyte_start_in_pair (now : Word) {s : State} (hesc : s.dec.esc = true) :
    exec (.rxbyte 0xFE#8 now) s =
      .next (raise (.escErr 0xFE#8) (s.begin.withDec { s.dec with esc := false, p := 0 })) := by
  rw [rxbyte_of_silent now (logicalOf_bad hesc (by decide) (by decide)),
    receiveSymbol_bad (s := s.begin) hesc (by decide) (by decide), if_pos (.inr rfl)]
  rfl

/-- Settles O27: the marker behind the raw 0xEE is an escape error that leaves the decoder waiting, and the rest of the
frame holds no other marker. -/
theorem startAfterEscapeLosesTheFrame : Obligations.StartAfterEscapeLosesTheFrame := by
  intro type n payload now s hesc
  obtain ⟨bs, hne, hwire⟩ := frameBytes_eq_escaped type n payload
  obtain ⟨d, hrest, hp, hd⟩ := absorbs_waiting bs (d := { s.dec with esc := false, p := 0 }) rfl rfl
  have harm := (absorbs_arm hesc).runsTo (by simp) now
  have hstart := RunsTo.single (rxbyte_start_in_pair now (s := s.begin.withDec { s.dec with esc := true }) rfl)
  have hlost := harm.append (hstart.append (hrest.runsTo hne now))
  rw [hwire, ← List.singleton_append, rxsEvents_append, rxsEvents_append]
  exact ⟨_, hlost.run, hlost.emits, hlost.raises, hp, hd, rfl⟩

end Sys2Proof.Proofs
end

section
/-! The position operations presented alone (R152 to R158): each is the dispatch at its position, and DEC.CKHI emits the
packet or discards the frame. -/

namespace Sys2Proof.Proofs

open Sys2Proof Sys2Proof.Machine

/-! ## DEC.WAIT to DEC.CKLO (R152 to R157) -/

theorem exec_positionInstr_selected {q : Position} {s : State} (hq : positionOf s.dec = some q) (b w : Byte) :
    exec (positionInstr q b w) s = dispatch b w s.begin := by
  rw [exec_positionInstr, if_pos hq]

/-- A selected position operation that only moves the decoder, presented alone. -/
theorem exec_positionInstr_of_takes {q : Position} {b : Byte} {s : State} {d : Decoder}
    (hq : positionOf s.dec = some q) (h : Takes b s.dec d) :
    exec (positionInstr q b 0) s = .next (s.begin.withDec d) := by
  rw [exec_positionInstr_selected hq]
  exact h 0 s.begin (by decide) rfl

/-- Settles O13: at `p = 0` the dispatch is R152's, and keeping `p` leaves it 0. -/
theorem decWaitSeedsTheChecksum : Obligations.DecWaitSeedsTheChecksum := by
  intro b w s hp
  have hq : positionOf s.dec = some .wait := positionOf_wait.mpr (by rw [hp]; rfl)
  calc exec (.decWait b w) s
      = dispatch b w s.begin := exec_positionInstr_selected hq b w
    _ = .next (decWait b w s.begin) := by simp only [dispatch, State.begin_dec, hq]
    _ = _ := by rw [decWait, State.begin_dec, hp]; rfl

/-- Settles O14: the new length is the high byte of the old one over `b`. -/
theorem decLenloWritesLowByte : Obligations.DecLenloWritesLowByte := by
  intro b s hp
  have hp1 : s.dec.p.toNat = 1 := by rw [hp]; rfl
  exact ⟨_, lenlo_toNat s.dec.len b, exec_positionInstr_of_takes (positionOf_lenlo.mpr hp1) (takes_lenlo hp1)⟩

/-- Settles O15: the two cases of R154, by the length that the write leaves. -/
theorem decLenhiTestsTheLength : Obligations.DecLenhiTestsTheLength := by
  intro b s hp
  have hq : positionOf s.dec = some .lenhi := positionOf_lenhi.mpr (by rw [hp]; rfl)
  have hexec : exec (.decLenhi b) s = .next (decLenhi b s.begin) :=
    (exec_positionInstr_selected hq b 0).trans (by simp only [dispatch, State.begin_dec, hq])
  obtain ⟨len, -, hlen, ⟨hle, e⟩ | ⟨hgt, e⟩⟩ := decLenhi_cases b s.begin <;> rw [e] at hexec
  · exact ⟨len, hlen, fun _ => hexec, fun h => absurd h (by omega)⟩
  · exact ⟨len, hlen, fun h => absurd h (by omega), fun _ => hexec⟩

/-- Settles O16: `takes_type` at `p = 3`. -/
theorem decTypeLatchesTheType : Obligations.DecTypeLatchesTheType := by
  intro b s hp
  have hp3 : s.dec.p.toNat = 3 := by rw [hp]; rfl
  exact exec_positionInstr_of_takes (positionOf_type.mpr hp3) (takes_type hp3)

/-- Settles O17: the buffer after the write is read by `payloadRead_payloadWrite`. -/
theorem decPayloadStoresOneByte : Obligations.DecPayloadStoresOneByte := by
  intro b s h4 hlt hlen
  exact ⟨_, fun a => payloadRead_payloadWrite s.dec.payload (s.dec.p.toNat - 4) a b,
    exec_positionInstr_of_takes (positionOf_payload.mpr ⟨h4, hlt⟩) (takes_payload h4 hlt hlen)⟩

/-- Settles O18: `takes_cklo` at `p = 4 + len`. -/
theorem decCkloHoldsTheByte : Obligations.DecCkloHoldsTheByte := by
  intro b s hp
  exact exec_positionInstr_of_takes (positionOf_cklo.mpr hp) (takes_cklo hp)

/-! ## DEC.CKHI (R158) -/

/-- On a matching checksum the packet comes out with a copy of the written payload bytes. -/
theorem decCkhi_emits {b : Byte} {s : State} {bytes : List Byte} (hck : (b ++ s.dec.cklo : Half) = s.dec.ck)
    (hle : s.dec.len.toNat ≤ 1024) (hlen : bytes.length = s.dec.len.toNat)
    (hread : ∀ (k : Nat) (h : k < bytes.length), payloadRead s.dec.payload k = some bytes[k]) :
    decCkhi b s = .next (emitPkt ⟨s.dec.typ, s.dec.len, bytes⟩ (setPos 0 s)) := by
  have hcopy : payloadCopy s.dec.payload 0 s.dec.len.toNat = .ok bytes := by
    rw [← hlen]
    exact payloadCopy_ok (by simpa [hlen] using hle) (by simpa using hread)
  simp only [decCkhi, hck, hcopy, if_true]

/-- On any other checksum the frame is discarded. -/
theorem decCkhi_discards {b : Byte} {s : State} (hck : (b ++ s.dec.cklo : Half) ≠ s.dec.ck) :
    decCkhi b s = .next (raise (.ckErr (b ++ s.dec.cklo) s.dec.ck) (setPos 0 s)) := by
  simp only [decCkhi, hck, if_false]

/-- Settles O19: at `p = 5 + len` the dispatch is DEC.CKHI's, in its two cases. -/
theorem decCkhiEmitsOrDiscards : Obligations.DecCkhiEmitsOrDiscards := by
  intro b s hp
  have hq : positionOf s.dec = some .ckhi := positionOf_ckhi.mpr hp
  have hexec : exec (.decCkhi b) s = decCkhi b s.begin :=
    (exec_positionInstr_selected hq b 0).trans (dispatch_ckhi hq)
  rw [hexec]
  exact ⟨fun bytes hck hle hlen hread => decCkhi_emits (s := s.begin) ((pair_eq_iff _ _ _).mp hck) hle hlen hread,
    fun hck => decCkhi_discards (s := s.begin) (mt (pair_eq_iff _ _ _).mpr hck)⟩

end Sys2Proof.Proofs
end

section
/-! RXBYTE against the operations it is made of (R150, R160): the markers outside a pair, the position operation on a
logical byte, and the packet that is emitted and routed in one operation. -/

namespace Sys2Proof.Proofs

open Sys2Proof Sys2Proof.Machine

/-! ## The markers -/

/-- A wire byte that only moves the decoder, as one operation. -/
theorem Absorbs.exec_rxbyte {w : Byte} {s : State} {d : Decoder} (h : Absorbs [w] s.dec d) (now : Word) :
    exec (.rxbyte w now) s = .next (s.begin.withDec d) := by
  obtain ⟨t, ht, hrest⟩ := andThen_next_iff.mp (h.runsTo (by simp) now).run
  rw [ht]
  exact hrest

/-- Settles O21: `absorbs_start` and `absorbs_arm`, for one operation. -/
theorem rxMarkersOutsideAPair : Obligations.RxMarkersOutsideAPair :=
  fun now _ hesc => ⟨(absorbs_start hesc).exec_rxbyte now, (absorbs_arm hesc).exec_rxbyte now⟩

/-! ## A byte that completes no frame -/

/-- Only DEC.CKHI on a matching checksum emits a packet. -/
theorem dispatch_emits_nothing {b w : Byte} {s u : State} (h : dispatch b w s = .next u) (h0 : s.out.pkt = none)
    (hck : positionOf s.dec = some .ckhi → (b ++ s.dec.cklo : Half) ≠ s.dec.ck) : u.out.pkt = none := by
  rcases dispatch_output h with e | ⟨_, e⟩ | ⟨hq, heq, -⟩
  · rw [e, h0]
  · rw [e, raise_out, h0]
  · exact absurd heq (hck hq)

/-- Routing does nothing after a dispatch that emits no packet. -/
theorem andThen_routeEmitted_of_none {r : Result} (now : Word) (h : ∀ u, r = .next u → u.out.pkt = none) :
    andThen r (routeEmitted now) = r := by
  cases r with
  | next u => exact routeEmitted_of_none (h u rfl)
  | fault f => rfl
  | refused x => rfl

/-- Settles O22: RXBYTE and the position operation run the same dispatch, and there is no packet to route. -/
theorem rxRunsThePositionOperation : Obligations.RxRunsThePositionOperation := by
  intro w b now q s hb hw hq hck
  calc exec (.rxbyte w now) s
      = andThen (dispatch b w (setEsc false s.begin)) (routeEmitted now) := rxbyte_dispatch now hb hw
    _ = dispatch b w (setEsc false s.begin) := andThen_routeEmitted_of_none now fun u hu =>
        dispatch_emits_nothing hu rfl fun hckhi =>
          mt (pair_eq_iff _ _ _).mpr (hck (Option.some.inj (hq.symm.trans hckhi)))
    _ = exec (positionInstr q b w) { s with dec := { s.dec with esc := false } } :=
        (exec_positionInstr_selected (s := { s with dec := { s.dec with esc := false } }) hq b w).symm

/-! ## The byte that completes a frame -/

/-- Settles O23: DEC.CKHI emits the packet, and routing it does not see that it stands in the output. -/
theorem rxRoutesTheCompletedPacket : Obligations.RxRoutesTheCompletedPacket := by
  intro w b now bytes s t hb hw hp hle hck hlen hread hroute
  have hpacket : payloadViolation s.dec.len bytes = none := payloadViolation_none.mpr ⟨hle, hlen⟩
  have hrouted : routePacket ⟨s.dec.typ, s.dec.len, bytes⟩ now (setPos 0 (setEsc false s.begin)) = .next t :=
    (receivePacket_of_packet hpacket now _).symm.trans hroute
  have hemit : dispatch b w (setEsc false s.begin) =
      .next (emitPkt ⟨s.dec.typ, s.dec.len, bytes⟩ (setPos 0 (setEsc false s.begin))) := by
    rw [dispatch_ckhi (by exact positionOf_ckhi.mpr hp)]
    exact decCkhi_emits (s := setEsc false s.begin) ((pair_eq_iff _ _ _).mp hck) hle hlen hread
  rw [rxbyte_dispatch now hb hw, hemit, andThen, routeEmitted_of_some rfl, routePacket_emitPkt, hrouted]
  rfl

end Sys2Proof.Proofs
end

section
/-! The checksum against errors (R164, R186): one changed byte changes it, and a frame that carries a wrong one is
discarded. -/

namespace Sys2Proof.Proofs

open Sys2Proof Sys2Proof.Machine

/-- Settles O28: in the closed form the two checksums differ by less than 256. -/
theorem checksumSeesOneByte : Obligations.ChecksumSeesOneByte := by
  intro xs ys b c hne heq
  have hsum : (checksum (xs ++ b :: ys)).toNat = (checksum (xs ++ c :: ys)).toNat := by rw [heq]
  simp only [checksum_toNat, List.map_append, List.map_cons, List.sum_append, List.sum_cons] at hsum
  exact hne (BitVec.eq_of_toNat_eq (by omega))

/-- Settles O26: the frame up to its last byte only moves the decoder, and that byte finds the checksum wrong. -/
theorem wrongChecksumIsDiscarded : Obligations.WrongChecksumIsDiscarded := by
  intro type n payload c now s hesc hn hlen hc
  obtain ⟨d, w, hd, hcklo, hq, hframe⟩ := runsTo_frame (type := type) (c := c) hesc hn hlen now
  have hdeclared : (c.extractLsb' 8 8 ++ d.cklo : Half) = c := by rw [hcklo, bytes_of_half]
  have hcomputed : d.ck = checksumSum (coveredBytes type n payload) := by rw [hd.ck, checksum_eq_checksumSum]
  have hdiscard := decCkhi_discards (b := c.extractLsb' 8 8) (s := s.begin.withDec d)
    (by rw [State.withDec_dec, hdeclared, hcomputed]; exact hc)
  rw [State.withDec_dec, hdeclared, hcomputed] at hdiscard
  obtain ⟨hrun, hemits, hraises⟩ := hframe
    (raise (.ckErr c (checksumSum (coveredBytes type n payload))) (setPos 0 (s.begin.withDec d)))
    (by rw [dispatch_ckhi hq, hdiscard, andThen, routeEmitted_of_none rfl])
  exact ⟨_, hrun, hemits, hraises, rfl, hd.esc, rfl, rfl, rfl⟩

end Sys2Proof.Proofs
end

section
/-! The frame encoder (R180, R182, R184, R185; D23): what TXFRAME appends, how long and how clean a frame is, and the
payloads that are refused. -/

namespace Sys2Proof.Proofs

open Sys2Proof Sys2Proof.Machine

/-! ## The logical bytes of a frame (R180) -/

/-- The logical bytes a frame escapes behind its raw start marker: the covered bytes and their checksum, low byte
first. -/
def escapedBytes (type : Byte) (n : Half) (payload : List Byte) : List Byte :=
  coveredBytes type n payload ++ [(checksum (coveredBytes type n payload)).extractLsb' 0 8,
    (checksum (coveredBytes type n payload)).extractLsb' 8 8]

theorem frameBytes_eq_cons_flatMap (type : Byte) (n : Half) (payload : List Byte) :
    frameBytes type n payload = 0xFE#8 :: (escapedBytes type n payload).flatMap escapeByte := by
  simp [frameBytes, escapedBytes]

theorem escapedBytes_length (type : Byte) (n : Half) (payload : List Byte) :
    (escapedBytes type n payload).length = payload.length + 5 := by
  simp [escapedBytes, coveredBytes]

/-- The low byte of a 16-bit value, as the spec's arithmetic writes it. -/
theorem lowByte_eq_ofNat (h : Half) : h.extractLsb' 0 8 = BitVec.ofNat 8 (h.toNat % 256) := by
  apply BitVec.eq_of_toNat_eq
  simp [BitVec.extractLsb'_toNat]

/-- The high byte of a 16-bit value, as the spec's arithmetic writes it. -/
theorem highByte_eq_ofNat (h : Half) : h.extractLsb' 8 8 = BitVec.ofNat 8 (h.toNat / 256) := by
  apply BitVec.eq_of_toNat_eq
  simp [BitVec.extractLsb'_toNat, Nat.shiftRight_eq_div_pow]

theorem coveredBytes_eq_arith (type : Byte) (n : Half) (payload : List Byte) :
    coveredBytes type n payload =
      BitVec.ofNat 8 (n.toNat % 256) :: BitVec.ofNat 8 (n.toNat / 256) :: type :: payload := by
  rw [coveredBytes, lowByte_eq_ofNat, highByte_eq_ofNat]

/-! ## TXFRAME and PRINT -/

/-- TXFRAME on a legal payload: one frame goes out, and no register is written. -/
theorem exec_txframe_of_payload {n : Half} {payload : List Byte} (h : payloadViolation n payload = none) (type : Byte)
    (s : State) :
    exec (.txframe type n payload) s = .next { s with
      tx := s.tx ++ frameBytes type n payload
      out := { Output.empty with tx := frameBytes type n payload } } := by
  simp only [exec, execTxframe, h]
  rfl

theorem exec_txframe_refused {n : Half} {payload : List Byte} {v : Violation} (h : payloadViolation n payload = some v)
    (type : Byte) (s : State) : exec (.txframe type n payload) s = .refused (.illFormed v) := by
  simp only [exec, execTxframe, h]

theorem exec_print_refused {n : Half} {bytes : List Byte} {v : Violation} (h : payloadViolation n bytes = some v)
    (s : State) : exec (.print n bytes) s = .refused (.illFormed v) := by
  simp only [exec, execPrint, h]

/-- Settles O30: the frame's logical bytes and checksum in arithmetic, escaped by `escapeByte`'s three branches. -/
theorem txframeAppendsOneFrame : Obligations.TxframeAppendsOneFrame := by
  intro type n payload s hn hlen covered c wire
  have hcovered : coveredBytes type n payload = covered := coveredBytes_eq_arith type n payload
  have hck : (checksum covered).toNat = c := checksum_toNat covered
  have hwire : frameBytes type n payload = wire := by
    rw [frameBytes_eq_cons_flatMap, escapedBytes, lowByte_eq_ofNat, highByte_eq_ofNat, hcovered, hck]
    rfl
  rw [exec_txframe_of_payload (payloadViolation_none.mpr ⟨hn, hlen⟩), hwire]

/-- Settles O31: the length is the first thing checked. -/
theorem longPayloadsRefused : Obligations.LongPayloadsRefused := by
  intro type n payload s hn
  have hlong : payloadViolation n payload = some .lengthRange := if_pos hn
  exact ⟨exec_txframe_refused hlong type s, exec_print_refused hlong s⟩

/-! ## The wire bytes of a frame (R184, R185) -/

/-- Settles O32: the body is the escaped stream of `n + 5` logical bytes. -/
theorem framesAreClean : Obligations.FramesAreClean := by
  intro type n payload hlen
  have hclean := cleanBody_flatMap (escapedBytes type n payload) []
  have hbounds := flatMap_escapeByte_length (escapedBytes type n payload)
  rw [List.append_nil] at hclean
  rw [escapedBytes_length, hlen] at hbounds
  exact ⟨_, frameBytes_eq_cons_flatMap type n payload, hclean, by omega, by omega⟩

end Sys2Proof.Proofs
end

section
/-! Whichever PWM conversion the block is built with: the ends of the range, the order of values, NaN (R203; entry 13). -/

namespace Sys2Proof.Proofs

open Sys2Proof Sys2Proof.Machine

/-! ## The placement of a clamped value within the span -/

/-- R203 P3, lower end: no threshold lies at 0. -/
theorem pwmOffset_zero (c : Config) : pwmOffset c 0 = 0 := by
  cases h : c.pwmConv with
  | exactFloor => simp [pwmOffset, h]
  | platform => simp [pwmOffset, h]

/-- R203 P3, upper end: no threshold lies above 1. -/
theorem pwmOffset_one (c : Config) : pwmOffset c (2 ^ 149) = pwmSpan c := by
  cases h : c.pwmConv with
  | exactFloor => simp [pwmOffset, h]
  | platform =>
    simp only [pwmOffset, h]
    exact (congrArg List.length (List.filter_eq_self.mpr fun _ _ => decide_eq_true (min_le_right _ _))).trans
      List.length_range

/-- R203 P4 in whole units: a larger value reaches at least the thresholds that a smaller one reaches. -/
theorem pwmOffset_mono (c : Config) {u v : Nat} (huv : u ≤ v) : pwmOffset c u ≤ pwmOffset c v := by
  cases h : c.pwmConv with
  | exactFloor =>
    simp only [pwmOffset, h]
    exact Nat.div_le_div_right (Nat.mul_le_mul_left _ huv)
  | platform =>
    simp only [pwmOffset, h, ← List.countP_eq_length_filter]
    exact List.countP_mono_left fun k _ hk => decide_eq_true ((of_decide_eq_true hk).trans huv)

/-! ## The converted value -/

/-- The conversion of a value that is clamped to `u` units; the sum does not wrap, since the offset stays within the
span. -/
theorem pwmConv_toNat {c : Config} (hc : c.Valid) {x : Word} {u : Nat} (hu : clampUnits (fval x) = some u) :
    ∃ r, pwmConv c x = some r ∧ r.toNat = c.pwmMin.toNat + pwmOffset c u := by
  obtain ⟨hlt, -⟩ := hc
  have hle := pwmOffset_le c (clampUnits_le hu)
  have hmax := c.pwmMax.isLt
  refine ⟨_, by rw [pwmConv, hu, Option.map_some], ?_⟩
  rw [BitVec.toNat_ofNat, Nat.mod_eq_of_lt]
  unfold pwmSpan at hle
  omega

/-- R203 P3: a value clamped to 0 converts to `PWM_MIN`. -/
theorem pwmConv_eq_pwmMin {c : Config} (hc : c.Valid) {x : Word} (hu : clampUnits (fval x) = some 0) :
    pwmConv c x = some c.pwmMin := by
  obtain ⟨r, hr, hnat⟩ := pwmConv_toNat hc hu
  rw [pwmOffset_zero, Nat.add_zero] at hnat
  rw [hr, BitVec.eq_of_toNat_eq hnat]

/-- R203 P3: a value clamped to 1 converts to `PWM_MAX`. -/
theorem pwmConv_eq_pwmMax {c : Config} (hc : c.Valid) {x : Word} (hu : clampUnits (fval x) = some (2 ^ 149)) :
    pwmConv c x = some c.pwmMax := by
  obtain ⟨r, hr, hnat⟩ := pwmConv_toNat hc hu
  rw [pwmOffset_one, pwmSpan, Nat.add_sub_of_le hc.1.le] at hnat
  rw [hr, BitVec.eq_of_toNat_eq hnat]

/-- R203 P4: clamping and placement both keep the order of finite values. -/
theorem pwmConv_mono {c : Config} (hc : c.Valid) {x y : Word} {r q : Half} (hx : isFiniteF32 x) (hy : isFiniteF32 y)
    (hxy : fvalRat x ≤ fvalRat y) (hr : pwmConv c x = some r) (hq : pwmConv c y = some q) : r.toNat ≤ q.toNat := by
  obtain ⟨u, hu, hux⟩ := fval_of_finite hx
  obtain ⟨v, hv, hvy⟩ := fval_of_finite hy
  have huv : u ≤ v := by
    rw [← Int.cast_le (R := ℚ), hux, hvy]
    exact mul_le_mul_of_nonneg_right hxy (by positivity)
  obtain ⟨r', hr', hrnat⟩ := pwmConv_toNat hc (x := x) (by rw [hu]; rfl)
  obtain ⟨q', hq', hqnat⟩ := pwmConv_toNat hc (x := y) (by rw [hv]; rfl)
  cases hr.symm.trans hr'
  cases hq.symm.trans hq'
  rw [hrnat, hqnat]
  exact Nat.add_le_add_left (pwmOffset_mono c (min_le_min_right _ (Int.toNat_le_toNat huv))) _

/-! ## NaN -/

/-- R17: a pattern without a value is a NaN pattern, since an infinity and a finite pattern have one. -/
theorem fval_eq_nan_iff {x : Word} : fval x = .nan ↔ isNanF32 x := by
  refine ⟨fun h => ?_, fval_of_isNanF32⟩
  by_cases he : (x.extractLsb' 23 8).toNat = 255
  · refine ⟨he, fun hf => ?_⟩
    rw [fval, if_pos he, if_neg (not_not.mpr hf)] at h
    split at h <;> cases h
  · obtain ⟨u, hu, -⟩ := fval_of_finite he
    cases hu.symm.trans h

/-- R203 P1, U6: NaN and only NaN has no conversion. -/
theorem pwmConv_eq_none_iff {c : Config} {x : Word} : pwmConv c x = none ↔ isNanF32 x := by
  rw [← fval_eq_nan_iff, pwmConv, Option.map_eq_none_iff]
  cases fval x <;> simp [clampUnits]

/-- Settles O38, one lemma per property of R203; the four fixed patterns are clamped to 0 or to 1. -/
theorem pwmConversionIsAdmissible : Obligations.PwmConversionIsAdmissible := by
  intro c x y hc
  refine ⟨pwmConv_eq_none_iff, fun r => pwmConv_inRange hc, pwmConv_eq_pwmMin hc ?_, pwmConv_eq_pwmMax hc ?_,
    pwmConv_eq_pwmMin hc ?_, pwmConv_eq_pwmMax hc ?_, fun hx hy hxy r q => pwmConv_mono hc hx hy hxy⟩
  · rw [show fval 0x00000000 = .fin 0 by decide]; rfl
  · rw [show fval 0x3F800000 = .fin (2 ^ 149) by decide]; rfl
  · rw [show fval 0xFF800000 = .negInf by decide]; rfl
  · rw [show fval 0x7F800000 = .posInf by decide]; rfl

end Sys2Proof.Proofs
end

section
/-! The router and the pump command (R195, R200, R204): ROUTE's three outcomes and PUMPCMD's three. -/

namespace Sys2Proof.Proofs

open Sys2Proof Sys2Proof.Machine

/-! ## ROUTE (R195) -/

/-- Settles O33: a packet value is dropped or is a pump command by the two branches of the router
(`receivePacket_dropped`, `receivePacket_pump`). -/
theorem routeMatchesExactly : Obligations.RouteMatchesExactly := by
  intro P now s hn hlen
  obtain ⟨type, n, payload⟩ := P
  have hv : payloadViolation n payload = none := payloadViolation_none.mpr ⟨hn, hlen⟩
  refine ⟨receivePacket_dropped hv now, ?_⟩
  rintro hroute rfl rfl
  obtain ⟨a, b, -, -, hcommand⟩ := pumpCommand_fields (P := ⟨3#8, 8#16, payload⟩) hlen.ge now s.begin
  exact ⟨_, (execPumpcmd_of_packet hv now s).trans hcommand, (receivePacket_pump hv now hroute).trans hcommand⟩

/-- Settles O34: the router's third branch goes on with the state that the operation began with (entry 16). -/
theorem otherRoutesLeaveTheBlock : Obligations.OtherRoutesLeaveTheBlock := by
  intro P now s hn hlen hroute hother
  refine (receivePacket_of_packet (payloadViolation_none.mpr ⟨hn, hlen⟩) now s).trans ?_
  rcases routePacket_cases hlen now s.begin with ⟨hdrop, -⟩ | ⟨-, htype, hlength, -⟩ | ⟨-, -, e⟩
  · exact absurd hroute hdrop
  · exact absurd ⟨htype, hlength⟩ hother
  · exact e

/-! ## PUMPCMD (R200) -/

/-- PUMPCMD on a packet that carries the fields `a` and `b` (R69, R201). -/
theorem exec_pumpcmd_fields (a b now : Word) (s : State) :
    exec (.pumpcmd ⟨3#8, 8#16, leBytes 4 a.toNat ++ leBytes 4 b.toNat⟩ now) s = .next (pumpFields a b now s.begin) := by
  obtain ⟨ha, hb⟩ := field32_pump a b
  have hlen : (leBytes 4 a.toNat ++ leBytes 4 b.toNat).length = 8 := by simp
  refine (execPumpcmd_of_packet (payloadViolation_none.mpr ⟨by decide, hlen⟩) now s).trans ?_
  simp only [pumpCommand, ha, hb]

/-- R200: two convertible fields are what the setpoints are compared with. -/
theorem pumpFields_of_some {a b : Word} {s0 s1 : Half} {s : State} (h0 : pwmConv s.cfg a = some s0)
    (h1 : pwmConv s.cfg b = some s1) (now : Word) : pumpFields a b now s = latchSetpoints s0 s1 now s := by
  simp only [pumpFields, h0, h1]

theorem latchSetpoints_changed {s0 s1 : Half} {s : State} (h : ¬ (s0 = s.pump.sp0 ∧ s1 = s.pump.sp1)) (now : Word) :
    latchSetpoints s0 s1 now s = s.withPump { s.pump with sp0 := s0, sp1 := s1, tCmd := now } :=
  if_pos (not_and_or.mp h)

theorem latchSetpoints_unchanged {s0 s1 : Half} {s : State} (h : s0 = s.pump.sp0 ∧ s1 = s.pump.sp1) (now : Word) :
    latchSetpoints s0 s1 now s = s :=
  if_neg fun hne => not_and_or.mpr hne h

/-- R204: a field without a conversion rejects the command whole. -/
theorem pumpFields_rejected {a b : Word} {s : State} (h : pwmConv s.cfg a = none ∨ pwmConv s.cfg b = none)
    (now : Word) : pumpFields a b now s = raise (.cmdReject a b) s := by
  rcases pumpFields_cases a b now s with ⟨s0, s1, h0, h1, -⟩ | ⟨-, e⟩
  · simp [h0, h1] at h
  · exact e

/-- Settles O36: both fields convert, and the setpoints are latched or stand already, or the packet is rejected. -/
theorem pumpCommandLatchesChanges : Obligations.PumpCommandLatchesChanges := by
  intro a b now s r
  have hr : r = .next (pumpFields a b now s.begin) := exec_pumpcmd_fields a b now s
  refine ⟨fun s0 s1 h0 h1 => ?converted, fun hnone => ?rejected⟩
  case converted =>
    rw [pumpFields_of_some (s := s.begin) h0 h1] at hr
    refine ⟨fun hchanged => ?_, fun hsame => ?_⟩
    · rw [hr, latchSetpoints_changed (s := s.begin) hchanged]; rfl
    · rw [hr, latchSetpoints_unchanged (s := s.begin) hsame]; rfl
  case rejected =>
    rw [hr, pumpFields_rejected (s := s.begin) hnone]; rfl

end Sys2Proof.Proofs
end

section
/-! The watchdog and the ramp (R210, R212, R215, R216, R266), alone and within a TICK (R253). -/

namespace Sys2Proof.Proofs

open Sys2Proof Sys2Proof.Machine

/-! ## WDOG (R210, R266) -/

/-- Settles O39: `watchdog_trip` raises `WdgTrip` or not by the old `wdg`, and `watchdog_armed` writes `wdg` alone. -/
theorem watchdogForcesNeutral : Obligations.WatchdogForcesNeutral := by
  intro now s
  refine ⟨fun htrip => ?_, fun harmed => congrArg Host.Outcome.next (watchdog_armed (s := s.begin) harmed)⟩
  refine (congrArg Host.Outcome.next (watchdog_trip (s := s.begin) htrip)).trans ?_
  rw [State.begin_pump]
  split <;> rfl

/-! ## RAMP (R215, R216) -/

/-- Settles O40: each output takes one `rampStep`. -/
theorem rampMovesByAtMostFive : Obligations.RampMovesByAtMostFive := by
  intro now s
  exact ⟨fun hdue => ⟨_, _, rampStep_toInt s.pump.out0 s.pump.sp0, rampStep_toInt s.pump.out1 s.pump.sp1,
      congrArg Host.Outcome.next (rampOutputs_due (s := s.begin) hdue)⟩,
    fun hnotDue => congrArg Host.Outcome.next (rampOutputs_notDue (s := s.begin) hnotDue)⟩

/-- `k` ramp ticks in unbounded arithmetic: by the error or by `5 k`, whichever is smaller in magnitude. -/
theorem rampTicks_toInt (sp o : Half) (k : Nat) :
    ((rampTicks sp k o).toNat : ℤ) = o.toNat + max (-5 * k : ℤ) (min (5 * k) (sp.toNat - o.toNat)) := by
  induction k generalizing o with
  | zero => simp [rampTicks]
  | succ k ih =>
    have hstep := rampStep_toInt o sp
    rw [rampTicks, ih, Nat.cast_succ]
    omega

/-- Settles O41: `rampTicks_toInt`, on either side of the setpoint. -/
theorem rampConverges : Obligations.RampConverges := by
  intro sp o k
  have hticks := rampTicks_toInt sp o k
  constructor <;> intro hside <;> omega

/-! ## Neutral after a TICK (R212) -/

/-- Outputs that stand at their setpoints stay there, whether or not the ramp is due. -/
theorem rampOutputs_settled {s : State} (now : Word) (h0 : s.pump.out0 = s.pump.sp0) (h1 : s.pump.out1 = s.pump.sp1) :
    (rampOutputs now s).pump.out0 = s.pump.sp0 ∧ (rampOutputs now s).pump.out1 = s.pump.sp1 := by
  by_cases hdue : 100 ≤ (now - s.pump.tRamp).toNat
  · rw [rampOutputs_due hdue, h0, h1]
    simp
  · rw [rampOutputs_notDue (by omega)]
    exact ⟨h0, h1⟩

/-- R253: after the watchdog and the ramp a TICK writes no pump register. -/
theorem exec_tick_pump (now : Word) (s : State) :
    ∃ t, exec (.tick now) s = .next t ∧ t.pump = (rampOutputs now (watchdog now s.begin)).pump := by
  obtain ⟨-, htelem, -⟩ := sendTelemetry_frame now (aggregateFlow now (rampOutputs now (watchdog now s.begin)))
  obtain ⟨-, hflow, -⟩ := aggregateFlow_frame now (rampOutputs now (watchdog now s.begin))
  exact ⟨_, rfl, htelem.trans hflow⟩

/-- Settles O42: the watchdog puts setpoints and outputs at neutral, where the ramp after it keeps them. -/
theorem tickAfterSilenceIsNeutral : Obligations.TickAfterSilenceIsNeutral := by
  intro now s hsilent
  obtain ⟨t, ht, hpump⟩ := exec_tick_pump now s
  have htrip : (watchdog now s.begin).pump = { s.pump with
      sp0 := s.cfg.pwmNeutral, sp1 := s.cfg.pwmNeutral, out0 := s.cfg.pwmNeutral, out1 := s.cfg.pwmNeutral
      wdg := true } := by
    rw [watchdog_trip (s := s.begin) hsilent]
    rfl
  obtain ⟨-, -, -, -, -, -, -, -, -, hwdg, hsp0, hsp1⟩ := rampOutputs_frame now (watchdog now s.begin)
  obtain ⟨hout0, hout1⟩ := rampOutputs_settled now (s := watchdog now s.begin) (by rw [htrip]) (by rw [htrip])
  refine ⟨t, ht, ?_⟩
  rw [hpump, hwdg, hsp0, hsp1, hout0, hout1, htrip]
  exact ⟨rfl, rfl, rfl, rfl, rfl⟩

end Sys2Proof.Proofs
end

section
/-! Pulses, flow aggregation and print (R230, R232, R239; D17, D25), each presented alone. -/

namespace Sys2Proof.Proofs

open Sys2Proof Sys2Proof.Machine

/-! ## PULSE (R230) -/

/-- PULSE on a sensor that exists: its counter goes up by one, with the wrap of a 32-bit register (D17). -/
theorem exec_pulse_of_lt {i : Byte} (h : i.toNat < 3) (s : State) :
    exec (.pulse i) s = .next { s with
      flow := { s.flow with cnt := s.flow.cnt.set i.toNat (s.flow.cnt[i.toNat] + 1) h }, out := Output.empty } := by
  simp only [exec, execPulse, h, dif_pos]
  rfl

theorem exec_pulse_refused {i : Byte} (h : 3 ≤ i.toNat) (s : State) :
    exec (.pulse i) s = .refused (.illFormed .sensorRange) :=
  dif_neg h.not_gt

/-- The increment of a 32-bit register, as the spec's arithmetic writes it. -/
theorem word_succ_eq_ofNat (v : Word) : v + 1 = BitVec.ofNat 32 (v.toNat + 1) := by
  apply BitVec.eq_of_toNat_eq
  simp [BitVec.toNat_add]

/-- Settles O44: the two branches of PULSE's range test. -/
theorem pulseCountsOne : Obligations.PulseCountsOne := by
  intro i s
  refine ⟨fun hlt => ?_, fun hge => exec_pulse_refused hge s⟩
  rw [exec_pulse_of_lt hlt, word_succ_eq_ofNat]

/-! ## FLOWAGG (R232) -/

/-- Settles O45: `aggregateFlow` when the window is due, counter by counter, and when it is not. -/
theorem flowaggDrainsTheWindow : Obligations.FlowaggDrainsTheWindow := by
  intro now s
  refine ⟨fun hdue => ⟨_, congrArg Host.Outcome.next (aggregateFlow_due (s := s.begin) hdue), rfl, fun i hi => ?_⟩,
    fun hnotDue => congrArg Host.Outcome.next (aggregateFlow_notDue (s := s.begin) hnotDue)⟩
  interval_cases i <;> exact ⟨rfl, rfl⟩

/-! ## PRINT (R239) -/

/-- PRINT and TXFRAME of type 2 are one operation, refusals included (D25). -/
theorem exec_print_eq_txframe (n : Half) (bytes : List Byte) (s : State) :
    exec (.print n bytes) s = exec (.txframe 2 n bytes) s := rfl

/-- Settles O49: TXFRAME of type 2 on a payload of the declared length. -/
theorem printSendsOneFrame : Obligations.PrintSendsOneFrame := by
  intro n bytes s hn hlen
  exact ⟨exec_print_eq_txframe n bytes s, exec_txframe_of_payload (payloadViolation_none.mpr ⟨hn, hlen⟩) 2 s⟩

end Sys2Proof.Proofs
end

section
/-! Receiving and transmitting read and write disjoint registers (R240): each part of RXBYTE commutes with replacing the
flow and telemetry registers, and TELEM and PRINT with replacing the decoder and the pump controller. -/

namespace Sys2Proof.Proofs

open Sys2Proof Sys2Proof.Machine

/-! ## Parts of an operation that carry the flow and telemetry registers along -/

/-- The flow and telemetry registers replaced. -/
def withReports (f : Flow) (m : Telemetry) (s : State) : State := (s.withFlow f).withTlm m

/-- What replacing the flow and telemetry registers leaves alone. -/
theorem withReports_frame (f : Flow) (m : Telemetry) (s : State) :
    (withReports f m s).dec = s.dec ∧ (withReports f m s).pump = s.pump ∧ (withReports f m s).cfg = s.cfg ∧
    (withReports f m s).out = s.out :=
  ⟨rfl, rfl, rfl, rfl⟩

/-- A part of an operation that neither reads nor writes a flow or telemetry register: with others in their place it
does the same and leaves those. -/
def CarriesReports (g : State → Result) : Prop :=
  ∀ f m s, g (withReports f m s) = andThen (g s) fun t => .next (withReports f m t)

theorem CarriesReports.next_iff {g : State → State} :
    CarriesReports (fun s => .next (g s)) ↔ ∀ f m s, g (withReports f m s) = withReports f m (g s) := by
  simp [CarriesReports, andThen]

theorem CarriesReports.seq {g k : State → Result} (hg : CarriesReports g) (hk : CarriesReports k) :
    CarriesReports fun s => andThen (g s) k := by
  intro f m s
  dsimp only
  rw [hg f m s]
  cases g s with
  | next t => exact hk f m t
  | fault | refused => rfl

/-! ## The parts of RXBYTE (R150) -/

/-- Steps 1 to 3, in the three cases of UNESC. -/
theorem receiveSymbol_carriesReports (w : Byte) : CarriesReports fun s => .next (receiveSymbol w s) := by
  rw [CarriesReports.next_iff]
  intro f m s
  rcases unescByte_cases s.dec.esc w with ⟨b, hb, -⟩ | ⟨he, rfl, -⟩ | ⟨he, h0, h1, -⟩
  · rw [receiveSymbol_of_standsFor hb, receiveSymbol_of_standsFor (s := withReports f m s) hb]
    rfl
  · rw [receiveSymbol_arm he, receiveSymbol_arm (s := withReports f m s) he]
    rfl
  · rw [receiveSymbol_bad he h0 h1, receiveSymbol_bad (s := withReports f m s) he h0 h1]
    rfl

theorem decLenhi_carriesReports (b : Byte) : CarriesReports fun s => .next (decLenhi b s) := by
  rw [CarriesReports.next_iff]
  intro f m s
  simp only [decLenhi, withReports_frame]
  split <;> rfl

theorem decPayload_carriesReports (b : Byte) : CarriesReports (decPayload b) := by
  intro f m s
  simp only [decPayload, withReports_frame]
  split <;> rfl

theorem decCkhi_carriesReports (b : Byte) : CarriesReports (decCkhi b) := by
  intro f m s
  simp only [decCkhi, withReports_frame]
  split
  · split <;> rfl
  · rfl

/-- Step 4, position by position. -/
theorem dispatch_carriesReports (b w : Byte) : CarriesReports (dispatch b w) := by
  intro f m s
  simp only [dispatch, withReports_frame]
  cases positionOf s.dec with
  | none => rfl
  | some q =>
    cases q with
    | wait | lenlo | type | cklo => rfl
    | lenhi => exact decLenhi_carriesReports b f m s
    | payload => exact decPayload_carriesReports b f m s
    | ckhi => exact decCkhi_carriesReports b f m s

theorem pumpFields_carriesReports (a b now : Word) : CarriesReports fun s => .next (pumpFields a b now s) := by
  rw [CarriesReports.next_iff]
  intro f m s
  simp only [pumpFields, latchSetpoints, withReports_frame]
  split
  · split <;> rfl
  · rfl
  · rfl

theorem routePacket_carriesReports (P : Packet) (now : Word) : CarriesReports (routePacket P now) := by
  intro f m s
  simp only [routePacket, pumpCommand, withReports_frame]
  split
  · split
    · split
      · exact pumpFields_carriesReports _ _ now f m s
      · rfl
    · rfl
  · rfl

/-- Step 5: routing the packet of a completed frame. -/
theorem routeEmitted_carriesReports (now : Word) : CarriesReports (routeEmitted now) := by
  intro f m s
  simp only [routeEmitted, withReports_frame]
  split
  · rfl
  · exact routePacket_carriesReports _ now f m s

theorem rxbyte_carriesReports (w : Byte) (now : Word) : CarriesReports (exec (.rxbyte w now)) := by
  intro f m s
  cases h : logicalOf w s with
  | none =>
    rw [rxbyte_of_silent now h, rxbyte_of_silent (s := withReports f m s) now h]
    exact receiveSymbol_carriesReports w f m s.begin
  | some b =>
    rw [rxbyte_of_logical now h, rxbyte_of_logical (s := withReports f m s) now h]
    exact (receiveSymbol_carriesReports w).seq
      ((dispatch_carriesReports b w).seq (routeEmitted_carriesReports now)) f m s.begin

/-! ## What RXBYTE leaves alone -/

/-- A part that carries the flow and telemetry registers along leaves them as they are. -/
theorem CarriesReports.keeps {g : State → Result} (hg : CarriesReports g) {s t : State} (h : g s = .next t) :
    t.flow = s.flow ∧ t.tlm = s.tlm := by
  have hsame : g s = andThen (g s) fun t => .next (withReports s.flow s.tlm t) := hg s.flow s.tlm s
  rw [h] at hsame
  have ht : t = withReports s.flow s.tlm t := Host.Outcome.next.inj hsame
  rw [ht]
  exact ⟨rfl, rfl⟩

/-- RXBYTE sends nothing. -/
theorem rxbyte_sends_nothing {w : Byte} {now : Word} {s t : State} (h : exec (.rxbyte w now) s = .next t) :
    t.out.tx = [] := by
  obtain ⟨-, -, -, -, hrecv, -⟩ := receiveSymbol_frame w s.begin
  rcases rxbyte_next h with rfl | ⟨b, u, -, hu, hrouted⟩
  · exact hrecv
  · obtain ⟨-, -, -, -, -, -, hdispatch⟩ := dispatch_frame hu
    obtain ⟨-, -, -, -, hroute, -⟩ := hrouted.frame
    exact hroute.trans (hdispatch.trans hrecv)

/-! ## TELEM and PRINT -/

/-- TELEM neither reads nor writes a decoder or pump register. -/
theorem telem_carries_decoder_pump {now : Word} {s t : State} (h : exec (.telem now) s = .next t) (d : Decoder)
    (p : Pump) : exec (.telem now) { s with dec := d, pump := p } = .next { t with dec := d, pump := p } := by
  by_cases hdue : 10 ≤ (now - s.tlm.tTlm).toNat
  · rw [exec_telem_due hdue] at h
    cases h
    exact exec_telem_due hdue
  · rw [exec_telem_notDue (by omega)] at h
    cases h
    exact exec_telem_notDue (Nat.lt_of_not_le hdue)

/-- PRINT neither reads nor writes a decoder or pump register. -/
theorem print_carries_decoder_pump {n : Half} {bytes : List Byte} {s t : State}
    (h : exec (.print n bytes) s = .next t) (d : Decoder) (p : Pump) :
    exec (.print n bytes) { s with dec := d, pump := p } = .next { t with dec := d, pump := p } := by
  cases hv : payloadViolation n bytes with
  | none =>
    rw [exec_print_eq_txframe, exec_txframe_of_payload hv] at h
    cases h
    rw [exec_print_eq_txframe, exec_txframe_of_payload hv]
  | some v =>
    rw [exec_print_refused hv] at h
    cases h

/-- Settles O59: RXBYTE carries the flow and telemetry registers along, TELEM and PRINT the decoder and the pump
controller. -/
theorem receiveAndTransmitAreIndependent : Obligations.ReceiveAndTransmitAreIndependent := by
  intro w now n bytes s t f m d p
  refine ⟨fun h => ?_, fun h => telem_carries_decoder_pump h d p, fun h => print_carries_decoder_pump h d p⟩
  obtain ⟨hflow, htlm⟩ := (rxbyte_carriesReports w now).keeps h
  have hcarry := rxbyte_carriesReports w now f m s
  rw [h] at hcarry
  exact ⟨hflow, htlm, rxbyte_sends_nothing h, hcarry⟩

end Sys2Proof.Proofs
end

section
/-! FLOW_RATE (R233 to R235; D18, G3): one rate for one rational, the tolerance in the normal range, and the default as
the nearest binary32 pattern, ties to even (entries 14 and 15). -/

namespace Sys2Proof.Proofs

open Sys2Proof Sys2Proof.Machine

/-! ## Bounds on the exact quotient, over whole numbers -/

section Quotient

variable {n d : Nat}

/-- R234 Q3's range, in units of 2^-149. -/
theorem normalRange_units :
    normalRange n d = true ↔ d * 2 ^ 23 ≤ n * 2 ^ 149 ∧ n * 2 ^ 149 ≤ d * ((2 ^ 24 - 1) * 2 ^ 253) := by
  rw [normalRange, Bool.and_eq_true, decide_eq_true_eq, decide_eq_true_eq, oneUnits]

/-- R234 Q3's range, as a condition on the quotient. -/
theorem normalRange_iff (hd : 0 < d) :
    normalRange n d = true ↔ (2 : ℚ) ^ (-126 : ℤ) ≤ (n : ℚ) / d ∧ (n : ℚ) / d ≤ (2 ^ 24 - 1) * 2 ^ 104 := by
  have hdq : (0 : ℚ) < d := Nat.cast_pos.mpr hd
  rw [normalRange_units, le_div_iff₀ hdq, div_le_iff₀ hdq, ← Nat.cast_le (α := ℚ), ← Nat.cast_le (α := ℚ)]
  push_cast
  norm_num
  refine and_congr ?_ ?_ <;> constructor <;> intro h <;> linarith

/-- The least quotient that rounds to +∞, half way from the largest finite pattern to the next value (entry 15). -/
theorem overflow_iff (hd : 0 < d) :
    (2 ^ 25 - 1) * (d * 2 ^ 252) ≤ n * 2 ^ 149 ↔ (2 : ℚ) ^ 128 - 2 ^ 103 ≤ (n : ℚ) / d := by
  have hdq : (0 : ℚ) < d := Nat.cast_pos.mpr hd
  rw [le_div_iff₀ hdq, ← Nat.cast_le (α := ℚ)]
  push_cast
  norm_num
  constructor <;> intro h <;> linarith

/-- The largest quotient that rounds to +0.0, half of the smallest subnormal (entry 15). -/
theorem underflow_iff (hd : 0 < d) : 2 * (n * 2 ^ 149) ≤ d ↔ (n : ℚ) / d ≤ (2 : ℚ) ^ (-150 : ℤ) := by
  have hdq : (0 : ℚ) < d := Nat.cast_pos.mpr hd
  rw [div_le_iff₀ hdq, ← Nat.cast_le (α := ℚ)]
  push_cast
  norm_num
  constructor <;> intro h <;> linarith

/-- A relative error bound on a pattern of `u` units, over whole numbers. -/
theorem abs_sub_le_iff (hd : 0 < d) (u : ℤ) (k : Nat) :
    |(u : ℚ) / 2 ^ 149 - (n : ℚ) / d| ≤ (n : ℚ) / d / 2 ^ k ↔
      |u * d - (n * 2 ^ 149 : ℕ)| * 2 ^ k ≤ ((n * 2 ^ 149 : ℕ) : ℤ) := by
  have hdq : (0 : ℚ) < d := Nat.cast_pos.mpr hd
  have hq : (n : ℚ) / d / 2 ^ k = ((n * 2 ^ 149 : ℕ) : ℚ) / 2 ^ k / (d * 2 ^ 149) := by
    rw [Nat.cast_mul, Nat.cast_pow, Nat.cast_ofNat]
    field_simp
  rw [abs_sub_units u n d hd, hq, div_le_div_iff_of_pos_right (by positivity), le_div_iff₀ (by positivity)]
  exact_mod_cast Iff.rfl

end Quotient

/-! ## Rates within a tolerance (R234 Q3) -/

/-- R234 Q3 with the tolerance `2^-k`: a finite positive pattern within `2^-k q` of `q`. -/
structure RateWithin (k : Nat) (r : Word) (q : ℚ) : Prop where
  finite : isFiniteF32 r
  pos : 0 < fvalRat r
  near : |fvalRat r - q| ≤ q / 2 ^ k

theorem RateWithin.mono {j k : Nat} {r : Word} {q : ℚ} (h : RateWithin k r q) (hq : 0 ≤ q) (hjk : j ≤ k) :
    RateWithin j r q :=
  ⟨h.finite, h.pos, h.near.trans (div_le_div_of_nonneg_left hq (by positivity) (pow_le_pow_right₀ (by norm_num) hjk))⟩

/-- A pattern of `u` units is within a tolerance when `u` is, over whole numbers. -/
theorem RateWithin.of_units {n d k : Nat} {r : Word} {u : ℤ} (hd : 0 < d) (hr : fval r = .fin u) (hu : 0 < u)
    (hnear : |u * d - (n * 2 ^ 149 : ℕ)| * 2 ^ k ≤ ((n * 2 ^ 149 : ℕ) : ℤ)) : RateWithin k r ((n : ℚ) / d) := by
  obtain ⟨hfin, hval⟩ := finite_of_fval hr
  have huq : (0 : ℚ) < u := Int.cast_pos.mpr hu
  refine ⟨hfin, ?_, ?_⟩ <;> rw [hval]
  · positivity
  · exact (abs_sub_le_iff hd u k).mpr hnear

/-- The model's test on a platform's rate is R234 Q3's tolerance. -/
theorem rateWithin_of_withinTolerance {n d : Nat} {r : Word} (hd : 0 < d) (h : withinTolerance r n d = true) :
    RateWithin 22 r ((n : ℚ) / d) := by
  unfold withinTolerance at h
  split at h
  · next u hu =>
    rw [Bool.and_eq_true, decide_eq_true_eq, decide_eq_true_eq, oneUnits] at h
    obtain ⟨hpos, hnear⟩ := h
    refine .of_units hd hu hpos ?_
    rw [Int.abs_eq_natAbs]
    exact_mod_cast hnear
  all_goals cases h

/-! ## The default rate (R235) -/

section Nearest

variable {n d : Nat}

/-- Rounding moves by at most a half of the unit `2^s`, which is `2^-24` of a quotient of at least `2^23` units. -/
theorem roundHalfEven_relative (hd : 0 < d) {s : Nat} (hbig : 2 ^ 23 * (d * 2 ^ s) ≤ n) :
    |((roundHalfEven n (d * 2 ^ s) * 2 ^ s : ℕ) : ℤ) * d - n| * 2 ^ 24 ≤ n := by
  obtain ⟨hle, hge⟩ := roundHalfEven_bound n (d * 2 ^ s) (by positivity)
  have hunit : ((roundHalfEven n (d * 2 ^ s) * 2 ^ s : ℕ) : ℤ) * d =
      ((roundHalfEven n (d * 2 ^ s) * (d * 2 ^ s) : ℕ) : ℤ) := by push_cast; ring
  rw [hunit, Int.abs_eq_natAbs]
  omega

/-- In the normal range the default is within `2^-24 q`. -/
theorem nearestF32_within (hd : 0 < d) (h : normalRange n d = true) : RateWithin 24 (nearestF32 n d) ((n : ℚ) / d) := by
  obtain ⟨hlo, hhi⟩ := normalRange_units.mp h
  rcases nearestF32_cases n d hd with ⟨s, m, -, rfl, hs, -, -, -, hval⟩ | ⟨hge, -⟩
  · have hbig : 2 ^ 23 * (d * 2 ^ s) ≤ n * 2 ^ 149 := by
      rcases hs with rfl | hs
      · omega
      · exact hs
    have hnear := roundHalfEven_relative hd hbig
    refine .of_units hd hval ?_ hnear
    by_contra hneg
    have hud : ((roundHalfEven (n * 2 ^ 149) (d * 2 ^ s) * 2 ^ s : ℕ) : ℤ) * d ≤ 0 :=
      mul_nonpos_of_nonpos_of_nonneg (not_lt.mp hneg) (Int.natCast_nonneg d)
    rw [Int.abs_eq_natAbs] at hnear
    omega
  · omega

/-- Below the overflow bound the default is finite, its sign is clear, no finite pattern is nearer, and its fraction is
even where another is as near. -/
theorem nearestF32_nearest (hd : 0 < d) (h : (n : ℚ) / d < 2 ^ 128 - 2 ^ 103) :
    isFiniteF32 (nearestF32 n d) ∧ (nearestF32 n d).msb = false ∧
    ∀ y, isFiniteF32 y → |fvalRat (nearestF32 n d) - (n : ℚ) / d| ≤ |fvalRat y - (n : ℚ) / d| ∧
      (y ≠ nearestF32 n d → |fvalRat y - (n : ℚ) / d| = |fvalRat (nearestF32 n d) - (n : ℚ) / d| →
        (nearestF32 n d).getLsbD 0 = false) := by
  rcases nearestF32_cases n d hd with ⟨s, m, -, hm, hs, -, hlt, hnat, hval⟩ | ⟨hge, -⟩
  · obtain ⟨hfin, hrat⟩ := finite_of_fval hval
    refine ⟨hfin, by rw [BitVec.msb_eq_decide, hnat, decide_eq_false_iff_not]; omega, fun y hy => ?_⟩
    obtain ⟨u, hu, -⟩ := fval_of_finite hy
    obtain ⟨-, hyrat⟩ := finite_of_fval hu
    obtain ⟨hnearest, htie⟩ := significand_nearest n d s m hd hm hs hu
    have hunits : (0 : ℚ) < d * 2 ^ 149 := by positivity
    rw [hrat, hyrat, abs_sub_units _ n d hd, abs_sub_units _ n d hd]
    refine ⟨(div_le_div_iff_of_pos_right hunits).mpr (Int.cast_le.mpr hnearest), fun hne heq => ?_⟩
    have heven : m % 2 = 0 := by
      rcases htie (Int.cast_injective ((div_left_inj' hunits.ne').mp heq)) with rfl | heven
      · by_contra hodd
        have hm0 : 0 < m := by omega
        exact hne (fval_inj hu hval (by positivity))
      · exact heven
    rw [BitVec.getLsbD, hnat, Nat.testBit_zero, decide_eq_false_iff_not]
    omega
  · exact absurd h (not_lt.mpr ((overflow_iff hd).mp hge))

/-- From the overflow bound on the default is +∞. -/
theorem nearestF32_overflow (hd : 0 < d) (h : (2 : ℚ) ^ 128 - 2 ^ 103 ≤ (n : ℚ) / d) :
    nearestF32 n d = 0x7F800000 := by
  rcases nearestF32_cases n d hd with ⟨s, m, hlt, -⟩ | ⟨-, hinf⟩
  · exact absurd ((overflow_iff hd).mpr h) (Nat.not_le_of_lt hlt)
  · exact hinf

/-- Up to one half the nearest whole number is 0. -/
theorem roundHalfEven_eq_zero (hd : 0 < d) (h : 2 * n ≤ d) : roundHalfEven n d = 0 := by
  have hdiv : n / d = 0 := Nat.div_eq_of_lt (by omega)
  have hmod : n % d = n := Nat.mod_eq_of_lt (by omega)
  simp only [roundHalfEven, hdiv, hmod]
  split_ifs <;> omega

/-- Up to the underflow bound the default is +0.0. -/
theorem nearestF32_underflow (hd : 0 < d) (h : (n : ℚ) / d ≤ (2 : ℚ) ^ (-150 : ℤ)) : nearestF32 n d = 0 := by
  have hhalf : 2 * (n * 2 ^ 149) ≤ d := (underflow_iff hd).mpr h
  have hscale : 0 = Nat.log2 (n * 2 ^ 149 / d) - 23 := by
    rw [Nat.div_eq_of_lt (by omega), Nat.log2_zero]
  have hsig : 0 = roundHalfEven (n * 2 ^ 149) (d * 2 ^ 0) := by
    rw [pow_zero, Nat.mul_one, roundHalfEven_eq_zero hd hhalf]
  exact nearestF32_eq n d 0 0 hscale hsig

end Nearest

/-! ## FLOW_RATE under either choice -/

section FlowRate

variable {c : Config} {count T : Word} {K : Ratio}

/-- R233's quotient is the model's numerator over its denominator. -/
theorem rate_quotient (count T : Word) (K : Ratio) :
    (1000 * count.toNat * K.den : ℚ) / (T.toNat * K.num) = (rateNum count K : ℚ) / (rateDen T K : ℚ) := by
  simp [rateNum, rateDen]

theorem rateDen_pos (hT : 1000 ≤ T.toNat) (hK : 0 < K.num) : 0 < rateDen T K :=
  Nat.mul_pos (by omega) hK

theorem flowRate_nearestEven (h : c.flowRate = .nearestEven) (count T : Word) (K : Ratio) :
    flowRate c count T K = nearestF32 (rateNum count K) (rateDen T K) := by
  simp only [flowRate, h]

/-- Q1: the rate depends on the rational `K` only. -/
theorem flowRate_congr (c : Config) (count : Word) {K' : Ratio} (hT : 1000 ≤ T.toNat) (hK : 0 < K.num)
    (hK' : 0 < K'.num) (hden' : 0 < K'.den) (h : K'.num * K.den = K.num * K'.den) : flowRate c count T K' = flowRate c count T K := by
  have hcross : rateNum count K' * rateDen T K = rateNum count K * rateDen T K' := by
    simp only [rateNum, rateDen]
    linear_combination (1000 * count.toNat * T.toNat) * h.symm
  obtain ⟨hnear, hrange, htol⟩ := quotient_congr (rateDen_pos hT hK) (rateDen_pos hT hK') hcross
  simp only [flowRate, hnear, hrange, htol, lowestTerms_congr hK hden' h]

/-- Q2: no pulses, no flow. -/
theorem flowRate_zero (c : Config) (hT : 1000 ≤ T.toNat) (hK : 0 < K.num) : flowRate c 0 T K = 0 := by
  cases hc : c.flowRate with
  | nearestEven =>
    rw [flowRate_nearestEven hc]
    exact nearestF32_underflow (rateDen_pos hT hK) (by simp [rateNum])
  | platform => simp [flowRate, hc]

/-- Q3: in the normal range either choice is within `2^-22 q`. -/
theorem flowRate_within (c : Config) (hT : 1000 ≤ T.toNat) (hK : 0 < K.num) (hcount : 0 < count.toNat)
    (hrange : normalRange (rateNum count K) (rateDen T K) = true) :
    RateWithin 22 (flowRate c count T K) ((rateNum count K : ℚ) / (rateDen T K : ℚ)) := by
  have hd := rateDen_pos hT hK
  have hdefault := (nearestF32_within hd hrange).mono (by positivity) (show 22 ≤ 24 by norm_num)
  cases hc : c.flowRate with
  | nearestEven => rwa [flowRate_nearestEven hc]
  | platform =>
    have hne : count ≠ 0 := by rintro rfl; exact absurd hcount (by decide)
    simp only [flowRate, hc, if_neg hne, hrange, Bool.true_and, Bool.not_eq_true']
    split
    · exact hdefault
    · next htol => exact rateWithin_of_withinTolerance hd (eq_true_of_ne_false htol)

end FlowRate

/-- Settles O46: Q1 to Q3 for either choice, and for the default the three ranges of `nearestF32`. -/
theorem flowRateIsWithinTolerance : Obligations.FlowRateIsWithinTolerance := by
  intro c count T K hT hK hden q r
  have hd := rateDen_pos hT hK
  have hq : q = (rateNum count K : ℚ) / (rateDen T K : ℚ) := rate_quotient count T K
  rw [hq]
  refine ⟨fun K' hK' hden' => flowRate_congr c count hT hK hK' hden', flowRate_zero c hT hK, ?tolerance, ?default⟩
  case tolerance =>
    intro hcount hlo hhi
    have hrange := (normalRange_iff hd).mpr ⟨hlo, hhi⟩
    obtain ⟨hfin, hpos, hnear⟩ := flowRate_within c hT hK hcount hrange
    refine ⟨hfin, hpos, hnear, fun hc => ?_⟩
    have hr : r = nearestF32 _ _ := flowRate_nearestEven hc count T K
    rw [hr]
    exact (nearestF32_within hd hrange).near
  case default =>
    intro hc
    have hr : r = nearestF32 _ _ := flowRate_nearestEven hc count T K
    rw [hr]
    exact ⟨nearestF32_nearest hd, nearestF32_overflow hd, nearestF32_underflow hd⟩

end Sys2Proof.Proofs
end

section
/-! Reading and running one pending record (R66, R250, R252; entries 1 to 4): what a step does with the pending bytes, and
that a record takes at least its code byte. -/

namespace Sys2Proof.Proofs

open Sys2Proof Sys2Proof.Machine

/-! ## The step on the pending bytes (R250) -/

theorem step_of_nothing_pending {s : State} (h : s.inbox = []) : step s = .next s := by
  simp only [step, fetch, h]

theorem step_of_decode_ok {s : State} {i : Instr} {rest : List Byte} (h : decode s.inbox = .ok (i, rest)) :
    step s = exec i { s with inbox := rest } := by
  have hfetch : fetch s = .operation i rest := by
    cases hbs : s.inbox with
    | nil => rw [hbs] at h; cases h
    | cons b bs => rw [hbs] at h; simp only [fetch, hbs, h]
  rw [step, hfetch]
  rfl

theorem step_of_decode_error {s : State} {e : DecodeError} (hpending : s.inbox ≠ [])
    (h : decode s.inbox = .error e) : step s = .refused (.undecodable e) := by
  have hfetch : fetch s = .bad e := by
    cases hbs : s.inbox with
    | nil => exact absurd hbs hpending
    | cons b bs => rw [hbs] at h; simp only [fetch, hbs, h]
  rw [step, hfetch]

/-- Settles O5: the three things that `fetch` can find. -/
theorem stepRunsTheDecodedOperation : Obligations.StepRunsTheDecodedOperation :=
  fun _ => ⟨fun _ _ h => step_of_decode_ok h, step_of_nothing_pending,
    fun _ hpending h => step_of_decode_error hpending h⟩

/-! ## How much a record takes (R250, R252) -/

/-- If an operation is read, at most `n` bytes are left after it. -/
structure LeavesAtMost (n : Nat) (d : Decoded) : Prop where
  length_le : ∀ i rest, d = .ok (i, rest) → rest.length ≤ n

theorem LeavesAtMost.ok {n : Nat} {r : List Byte} (i : Instr) (h : r.length ≤ n) : LeavesAtMost n (.ok (i, r)) := by
  constructor
  intro _ _ heq
  cases heq
  exact h

theorem LeavesAtMost.error {n : Nat} (e : DecodeError) : LeavesAtMost n (.error e) := by
  constructor
  intro _ _ heq
  cases heq

section Readers

variable {n : Nat} {bs : List Byte}

theorem LeavesAtMost.withByte {k : Byte → List Byte → Decoded} (hbs : bs.length ≤ n)
    (hk : ∀ b r, r.length ≤ n → LeavesAtMost n (k b r)) : LeavesAtMost n (withByte bs k) := by
  constructor
  intro i rest h
  obtain ⟨b, r, rfl, hr⟩ := withByte_ok h
  exact (hk b r (Nat.le_of_succ_le hbs)).length_le i rest hr

theorem LeavesAtMost.withBytes {m : Nat} {k : List Byte → List Byte → Decoded} (hbs : bs.length ≤ n)
    (hk : ∀ xs r, r.length ≤ n → LeavesAtMost n (k xs r)) : LeavesAtMost n (withBytes m bs k) := by
  constructor
  intro i rest h
  obtain ⟨xs, r, rfl, -, hr⟩ := withBytes_ok h
  rw [List.length_append] at hbs
  exact (hk xs r (by omega)).length_le i rest hr

theorem LeavesAtMost.withHalf {k : Half → List Byte → Decoded} (hbs : bs.length ≤ n)
    (hk : ∀ v r, r.length ≤ n → LeavesAtMost n (k v r)) : LeavesAtMost n (withHalf bs k) :=
  .withBytes hbs fun _ r hr => hk _ r hr

theorem LeavesAtMost.withWord {k : Word → List Byte → Decoded} (hbs : bs.length ≤ n)
    (hk : ∀ v r, r.length ≤ n → LeavesAtMost n (k v r)) : LeavesAtMost n (withWord bs k) :=
  .withBytes hbs fun _ r hr => hk _ r hr

end Readers

/-- Every arm of `parseOperands` is a chain of readers, taken apart here by the rule for the reader at its head. -/
theorem parseOperands_leavesAtMost (code : Nat) (bs : List Byte) : LeavesAtMost bs.length (parseOperands code bs) := by
  have hbs : bs.length ≤ bs.length := le_rfl
  unfold parseOperands
  split
  all_goals repeat' first
    | exact .error _
    | refine .ok _ ?_
    | refine .withByte ?_ fun _ _ _ => ?_
    | refine .withHalf ?_ fun _ _ _ => ?_
    | refine .withWord ?_ fun _ _ _ => ?_
    | refine .withBytes ?_ fun _ _ _ => ?_
    | assumption

/-- A record that decodes is a code byte and operands that `parseOperands` accepts. -/
theorem parseOperands_of_decode {bs rest : List Byte} {i : Instr} (h : decode bs = .ok (i, rest)) :
    ∃ c r, bs = c :: r ∧ parseOperands (opCode c) r = .ok (i, rest) := by
  cases bs with
  | nil => cases h
  | cons c r =>
    refine ⟨c, r, rfl, ?_⟩
    rw [decode] at h
    split at h
    · cases h
    · next hparse =>
      rw [hparse]
      split at h
      · cases h; rfl
      · cases h

/-- Settles O2: the decoder has checked the operands, and it takes the code byte before it reads them. -/
theorem decodedOperationsAreWellFormed : Obligations.DecodedOperationsAreWellFormed := by
  intro bs rest i h
  refine ⟨wellFormed_of_decode h, ?_⟩
  obtain ⟨c, r, rfl, hparse⟩ := parseOperands_of_decode h
  exact Nat.lt_succ_of_le ((parseOperands_leavesAtMost (opCode c) r).length_le i rest hparse)

end Sys2Proof.Proofs
end

section
/-! TICK (R253, D13): its four parts presented one after another, and a second TICK at the same clock value. -/

namespace Sys2Proof.Proofs

open Sys2Proof Sys2Proof.Machine

/-! ## The output of the four parts -/

/-- The ramp neither reads nor writes the output. -/
theorem rampOutputs_begin (now : Word) (s : State) : rampOutputs now s.begin = (rampOutputs now s).begin := by
  by_cases hdue : 100 ≤ (now - s.pump.tRamp).toNat
  · rw [rampOutputs_due hdue, rampOutputs_due (s := s.begin) hdue]
    rfl
  · have hnotDue := Nat.lt_of_not_le hdue
    rw [rampOutputs_notDue hnotDue, rampOutputs_notDue (s := s.begin) hnotDue]

/-- Flow aggregation neither reads nor writes the output. -/
theorem aggregateFlow_begin (now : Word) (s : State) : aggregateFlow now s.begin = (aggregateFlow now s).begin := by
  by_cases hdue : 1000 ≤ (now - s.flow.tFlow).toNat
  · rw [aggregateFlow_due hdue, aggregateFlow_due (s := s.begin) hdue]
    rfl
  · have hnotDue := Nat.lt_of_not_le hdue
    rw [aggregateFlow_notDue hnotDue, aggregateFlow_notDue (s := s.begin) hnotDue]

/-- The watchdog's output is its event, if any. -/
theorem watchdog_begin_out (now : Word) (s : State) :
    (watchdog now s.begin).out = { Output.empty with events := (watchdog now s.begin).out.events } := by
  by_cases htrip : 4000 ≤ (now - s.pump.tCmd).toNat
  · rw [watchdog_trip (s := s.begin) htrip]
    split <;> rfl
  · rw [watchdog_armed (s := s.begin) (Nat.lt_of_not_le htrip)]
    rfl

/-- Telemetry after an operation that has raised events and sent nothing: the frame joins the events in the output. -/
theorem sendTelemetry_of_events (now : Word) {s : State} {es : List Event}
    (hout : s.out = { Output.empty with events := es }) :
    sendTelemetry now s = { sendTelemetry now s.begin with
      out := { (sendTelemetry now s.begin).out with events := es } } := by
  by_cases hdue : 10 ≤ (now - s.tlm.tTlm).toNat
  · rw [sendTelemetry_due hdue, sendTelemetry_due (s := s.begin) hdue, txFrame, emitTx, State.withTlm_out, hout]
    rfl
  · have hnotDue := Nat.lt_of_not_le hdue
    rw [sendTelemetry_notDue hnotDue, sendTelemetry_notDue (s := s.begin) hnotDue, State.begin_out, ← hout]
    rfl

/-- The ramp and the flow aggregation leave the output as the watchdog left it. -/
theorem aggregateFlow_rampOutputs_out (now : Word) (s : State) :
    (aggregateFlow now (rampOutputs now s)).out = s.out := by
  obtain ⟨-, -, -, -, -, -, -, hflow⟩ := aggregateFlow_frame now (rampOutputs now s)
  obtain ⟨-, -, -, -, -, -, -, hramp, -⟩ := rampOutputs_frame now s
  exact hflow.trans hramp

/-- Settles O51: a part presented alone starts with an empty output, which is all that sets it apart from the part
within a TICK; the ramp and the flow aggregation carry the watchdog's event along and telemetry adds its frame. -/
theorem tickRunsTheFourParts : Obligations.TickRunsTheFourParts := by
  intro now s
  have hout := (aggregateFlow_rampOutputs_out now (watchdog now s.begin)).trans (watchdog_begin_out now s)
  exact ⟨_, _, _, _, rfl, congrArg Host.Outcome.next (rampOutputs_begin now (watchdog now s.begin)),
    congrArg Host.Outcome.next (aggregateFlow_begin now (rampOutputs now (watchdog now s.begin))), rfl,
    congrArg Host.Outcome.next (sendTelemetry_of_events now hout)⟩

/-! ## Nothing left to do at the same clock value (R253 corner case (b)) -/

/-- The watchdog has been evaluated at `now`: below the time-out `wdg` is clear, else it is set and both channels stand
at neutral. -/
structure WatchdogDone (now : Word) (s : State) : Prop where
  armed : (now - s.pump.tCmd).toNat < 4000 → s.pump.wdg = false
  tripped : 4000 ≤ (now - s.pump.tCmd).toNat → s.pump.wdg = true ∧ s.pump.sp0 = s.cfg.pwmNeutral ∧
    s.pump.sp1 = s.cfg.pwmNeutral ∧ s.pump.out0 = s.cfg.pwmNeutral ∧ s.pump.out1 = s.cfg.pwmNeutral

theorem watchdog_done (now : Word) (s : State) : WatchdogDone now (watchdog now s) := by
  obtain ⟨-, -, -, hcfg, -, -, -, htCmd, -⟩ := watchdog_frame now s
  constructor <;> rw [htCmd]
  · intro harmed
    rw [watchdog_armed harmed, State.withPump_pump]
  · intro htrip
    rw [hcfg, watchdog_trip htrip, State.withPump_pump]
    exact ⟨rfl, rfl, rfl, rfl, rfl⟩

/-- The ramp keeps outputs that the watchdog has put at neutral. -/
theorem WatchdogDone.rampOutputs {now : Word} {s : State} (h : WatchdogDone now s) :
    WatchdogDone now (rampOutputs now s) := by
  obtain ⟨-, -, -, -, hcfg, -, -, -, htCmd, hwdg, hsp0, hsp1⟩ := rampOutputs_frame now s
  constructor <;> rw [htCmd, hwdg]
  · exact h.armed
  · intro htrip
    obtain ⟨hset, h0, h1, hout0, hout1⟩ := h.tripped htrip
    obtain ⟨hramp0, hramp1⟩ := rampOutputs_settled now (hout0.trans h0.symm) (hout1.trans h1.symm)
    rw [hcfg, hsp0, hsp1, hramp0, hramp1]
    exact ⟨hset, h0, h1, h0, h1⟩

/-- A second evaluation writes what is there already and raises nothing. -/
theorem WatchdogDone.watchdog_eq {now : Word} {s : State} (h : WatchdogDone now s) : watchdog now s = s := by
  by_cases htrip : 4000 ≤ (now - s.pump.tCmd).toNat
  · obtain ⟨hset, h0, h1, hout0, hout1⟩ := h.tripped htrip
    have hpump : s.pump = { s.pump with
        sp0 := s.cfg.pwmNeutral, sp1 := s.cfg.pwmNeutral, out0 := s.cfg.pwmNeutral, out1 := s.cfg.pwmNeutral
        wdg := true } := by
      cases hp : s.pump
      simp_all
    rw [watchdog_trip htrip, if_pos hset, ← hpump]
    rfl
  · have harmed := Nat.lt_of_not_le htrip
    rw [watchdog_armed harmed, ← h.armed harmed]
    rfl

/-- After the ramp its timer is not due: it was not, or its stamp has just been taken. -/
theorem rampOutputs_rests (now : Word) (s : State) : (now - (rampOutputs now s).pump.tRamp).toNat < 100 := by
  by_cases hdue : 100 ≤ (now - s.pump.tRamp).toNat
  · simp [rampOutputs_due hdue]
  · rw [rampOutputs_notDue (by omega)]
    omega

theorem aggregateFlow_rests (now : Word) (s : State) : (now - (aggregateFlow now s).flow.tFlow).toNat < 1000 := by
  by_cases hdue : 1000 ≤ (now - s.flow.tFlow).toNat
  · simp [aggregateFlow_due hdue]
  · rw [aggregateFlow_notDue (by omega)]
    omega

theorem sendTelemetry_rests (now : Word) (s : State) : (now - (sendTelemetry now s).tlm.tTlm).toNat < 10 := by
  by_cases hdue : 10 ≤ (now - s.tlm.tTlm).toNat
  · simp [sendTelemetry_due hdue]
  · rw [sendTelemetry_notDue (by omega)]
    omega

/-- No part of a TICK at `now` has anything to do. -/
structure TickDone (now : Word) (s : State) : Prop where
  watchdog : WatchdogDone now s
  ramp : (now - s.pump.tRamp).toNat < 100
  flow : (now - s.flow.tFlow).toNat < 1000
  telemetry : (now - s.tlm.tTlm).toNat < 10

/-- Each part of a TICK does what is due, and the parts after it do not undo that. -/
theorem exec_tick_done {now : Word} {s t : State} (h : exec (.tick now) s = .next t) : TickDone now t := by
  cases h
  let ramped := rampOutputs now (watchdog now s.begin)
  obtain ⟨-, hpump, hflow, -, hcfg, -⟩ := sendTelemetry_frame now (aggregateFlow now ramped)
  obtain ⟨-, hpump', -, -, hcfg', -⟩ := aggregateFlow_frame now ramped
  have hwatchdog : WatchdogDone now ramped := (watchdog_done now s.begin).rampOutputs
  constructor
  · constructor <;> rw [hpump, hpump']
    · exact hwatchdog.armed
    · rw [hcfg, hcfg']
      exact hwatchdog.tripped
  · rw [hpump, hpump']
    exact rampOutputs_rests now _
  · rw [hflow]
    exact aggregateFlow_rests now ramped
  · exact sendTelemetry_rests now _

/-- With nothing to do a TICK leaves every register and answers no output. -/
theorem exec_tick_of_done {now : Word} {s : State} (h : TickDone now s) :
    exec (.tick now) s = .next { s with out := Output.empty } := by
  have hwatchdog : watchdog now s.begin = s.begin := WatchdogDone.watchdog_eq ⟨h.watchdog.armed, h.watchdog.tripped⟩
  refine congrArg Host.Outcome.next ?_
  rw [hwatchdog, rampOutputs_notDue (s := s.begin) h.ramp, aggregateFlow_notDue (s := s.begin) h.flow,
    sendTelemetry_notDue (s := s.begin) h.telemetry]
  rfl

/-- Settles O52: after a TICK nothing is left to do at the same clock value. -/
theorem tickIsIdempotent : Obligations.TickIsIdempotent :=
  fun _ _ _ h => exec_tick_of_done (exec_tick_done h)

end Sys2Proof.Proofs
end
